-- ==== Sys2Proof/Word.lean ====
section
/-! DEFINITION. The word types of LM92TC: bytes, nibbles, 32-bit register and command words, 16-bit
host memory addresses (00_scope.md R8). Bit 0 is the least significant bit of each. -/

namespace Sys2Proof

/-- `u8` of R8: a bus byte, a display byte, a byte of host memory. -/
abbrev Byte := BitVec 8

/-- `u4`: the levels of the display data lines D7..D4, bit 3 being D7 (R36). -/
abbrev Nibble := BitVec 4

/-- `u32` of R8: a command word or the contents of a host register. -/
abbrev Word := BitVec 32

/-- An address of host memory HMEM (R56); its arithmetic is modulo 2^16. -/
abbrev HAddr := BitVec 16

end Sys2Proof
end

