-- ==== Sys2Proof/Syntax.lean ====
section
/-! DEFINITION. The commands of LM92TC (30_encoding.md R83), one constructor per row of the opcode table,
and the lines of a host program (R87, R88) as the assembler takes them. -/

namespace Sys2Proof

/-- A command with its operand fields, each of exactly the width its format gives it (R81), so that
every term stands for one command word. -/
inductive Instr where
  /-- BUS_INIT (R110). -/
  | busInit
  /-- BUS_START (R111). -/
  | busStart
  /-- BUS_STOP (R113). -/
  | busStop
  /-- BUS_SEND b (R114). -/
  | busSend (b : Byte)
  /-- BUS_READ_ACK (R116). -/
  | busReadAck
  /-- BUS_READ_NACK (R117). -/
  | busReadNack
  /-- DISP_INIT (R150). -/
  | dispInit
  /-- DISP_CMD b (R151). -/
  | dispCmd (b : Byte)
  /-- DISP_CHAR b (R152). -/
  | dispChar (b : Byte)
  /-- DISP_CLEAR (R153). -/
  | dispClear
  /-- DISP_HOME (R154). -/
  | dispHome
  /-- DISP_GOTO col, row (R155); neither operand is checked before the command runs. -/
  | dispGoto (col row : Byte)
  /-- DISP_TEXT addr (R180). -/
  | dispText (addr : HAddr)
  /-- DISP_HEX v (R181); `imm` is read unsigned (R86). -/
  | dispHex (imm : BitVec 24)
  /-- DISP_INT v (R182); `imm` is read signed (R86). -/
  | dispInt (imm : BitVec 24)
  /-- TEMP_READ (R201). -/
  | tempRead
deriving DecidableEq, Repr

/-- The unit a command belongs to (R83). -/
inductive FuncUnit where
  | twi | lcd | trs
deriving DecidableEq, Repr

/-- The unit of a command, the column "unit" of R83. -/
def Instr.unit : Instr → FuncUnit
  | .busInit => .twi
  | .busStart => .twi
  | .busStop => .twi
  | .busSend _ => .twi
  | .busReadAck => .twi
  | .busReadNack => .twi
  | .dispInit => .lcd
  | .dispCmd _ => .lcd
  | .dispChar _ => .lcd
  | .dispClear => .lcd
  | .dispHome => .lcd
  | .dispGoto _ _ => .lcd
  | .dispText _ => .lcd
  | .dispHex _ => .lcd
  | .dispInt _ => .lcd
  | .tempRead => .trs

/-- The host registers (R51). -/
inductive Reg where
  | cmd | status | rxdata | temp | cfg
deriving DecidableEq, Repr

/-- A line of a host program (R87): a command line with its operands as numbers, not yet checked
against the ranges of R88, or a host line. -/
inductive Line where
  | busInit
  | busStart
  | busStop
  | busSend (b : Int)
  | busRdack
  | busRdnack
  | lcdInit
  | lcdCmd (b : Int)
  | lcdChar (b : Int)
  | lcdClear
  | lcdHome
  | lcdGoto (col row : Int)
  | lcdText (addr : Int)
  | lcdHex (v : Int)
  | lcdInt (v : Int)
  | tempRead
  /-- `rd REG`. -/
  | rd (r : Reg)
  /-- `wr REG, value`; R87 names CFG, and the program P4 of 95_test_vectors.md writes STATUS. -/
  | wr (r : Reg) (value : Int)
  /-- `wait` (R95). -/
  | wait
deriving DecidableEq, Repr

end Sys2Proof
end

