-- ==== Sys2Proof/WellFormed.lean ====
section
/-! DEFINITION. Which terms of the abstract forms are well formed. A term of `Instr` is well formed by its
type: each operand field has exactly the bits its format gives it (30_encoding.md R81), so no check is
left. A line of a host program carries plain numbers; R88 gives the range of each and says that an
operand outside its range does not assemble. -/

namespace Sys2Proof

/-- A number of n bits, unsigned. -/
def fitsUnsigned (n : Nat) (v : Int) : Bool := decide (0 ≤ v) && decide (v < 2 ^ n)

/-- The operand ranges of R88. The value of a `wr` line is a 32-bit word (R50). -/
def Line.wf : Line → Bool
  | .busInit => true
  | .busStart => true
  | .busStop => true
  | .busSend b => fitsUnsigned 8 b
  | .busRdack => true
  | .busRdnack => true
  | .lcdInit => true
  | .lcdCmd b => fitsUnsigned 8 b
  | .lcdChar b => fitsUnsigned 8 b
  | .lcdClear => true
  | .lcdHome => true
  | .lcdGoto col row => fitsUnsigned 8 col && fitsUnsigned 8 row
  | .lcdText addr => fitsUnsigned 16 addr
  | .lcdHex v => fitsUnsigned 24 v
  | .lcdInt v => decide (-8388608 ≤ v) && decide (v ≤ 8388607)
  | .tempRead => true
  | .rd _ => true
  | .wr _ value => fitsUnsigned 32 value
  | .wait => true

end Sys2Proof
end

