-- ==== Sys2Proof/Decode.lean ====
section
/-! DEFINITION. Decoding and encoding of command words (30_encoding.md R80 to R86). The table is R83's, row
by row; decoding is the loop of R85; encoding lays the fields out as R81 draws the formats. -/

namespace Sys2Proof

/-- One row of the opcode map R83. -/
structure Row where
  /-- The mnemonic, as the opcode table spells it. -/
  mnemonic : String
  /-- The whole word with every operand field 0. -/
  value : Word
  /-- The opcode and the reserved bits. -/
  mask : Word
  /-- The command with its operand fields read from the word (R81). -/
  build : Word → Instr

/-- `w & mask(m) = match(m)` (R83). -/
def Row.covers (r : Row) (w : Word) : Bool := w &&& r.mask == r.value

/-- Bits 7:0 of a word: `b` of format B, `col` of format P. -/
def fieldLow (w : Word) : Byte := w.extractLsb' 0 8

/-- Bits 15:8 of a word: `row` of format P. -/
def fieldRow (w : Word) : Byte := w.extractLsb' 8 8

/-- Bits 15:0 of a word: `addr` of format A. -/
def fieldAddr (w : Word) : HAddr := w.extractLsb' 0 16

/-- Bits 23:0 of a word: `imm` of format I. -/
def fieldImm (w : Word) : BitVec 24 := w.extractLsb' 0 24

/-- The opcode map R83. -/
def opcodeMap : List Row :=
  [ ⟨"BUS_INIT",      0x10000000#32, 0xFFFFFFFF#32, fun _ => .busInit⟩,
    ⟨"BUS_START",     0x11000000#32, 0xFFFFFFFF#32, fun _ => .busStart⟩,
    ⟨"BUS_STOP",      0x12000000#32, 0xFFFFFFFF#32, fun _ => .busStop⟩,
    ⟨"BUS_SEND",      0x13000000#32, 0xFFFFFF00#32, fun w => .busSend (fieldLow w)⟩,
    ⟨"BUS_READ_ACK",  0x14000000#32, 0xFFFFFFFF#32, fun _ => .busReadAck⟩,
    ⟨"BUS_READ_NACK", 0x15000000#32, 0xFFFFFFFF#32, fun _ => .busReadNack⟩,
    ⟨"DISP_INIT",     0x20000000#32, 0xFFFFFFFF#32, fun _ => .dispInit⟩,
    ⟨"DISP_CMD",      0x21000000#32, 0xFFFFFF00#32, fun w => .dispCmd (fieldLow w)⟩,
    ⟨"DISP_CHAR",     0x22000000#32, 0xFFFFFF00#32, fun w => .dispChar (fieldLow w)⟩,
    ⟨"DISP_CLEAR",    0x23000000#32, 0xFFFFFFFF#32, fun _ => .dispClear⟩,
    ⟨"DISP_HOME",     0x24000000#32, 0xFFFFFFFF#32, fun _ => .dispHome⟩,
    ⟨"DISP_GOTO",     0x25000000#32, 0xFFFF0000#32, fun w => .dispGoto (fieldLow w) (fieldRow w)⟩,
    ⟨"DISP_TEXT",     0x30000000#32, 0xFFFF0000#32, fun w => .dispText (fieldAddr w)⟩,
    ⟨"DISP_HEX",      0x31000000#32, 0xFF000000#32, fun w => .dispHex (fieldImm w)⟩,
    ⟨"DISP_INT",      0x32000000#32, 0xFF000000#32, fun w => .dispInt (fieldImm w)⟩,
    ⟨"TEMP_READ",     0x40000000#32, 0xFFFFFFFF#32, fun _ => .tempRead⟩ ]

/-- R85: the command a word stands for, or `none` for `Illegal` (a reserved opcode, R84, or a nonzero
reserved bit, R82). -/
def decode (w : Word) : Option Instr :=
  (opcodeMap.find? (fun r => r.covers w)).map (fun r => r.build w)

/-- The word of a command: the opcode of R83 in bits 31:24 and the operand fields where the formats of
R81 put them, every reserved bit 0. -/
def encode : Instr → Word
  | .busInit => 0x10#8 ++ 0#24
  | .busStart => 0x11#8 ++ 0#24
  | .busStop => 0x12#8 ++ 0#24
  | .busSend b => 0x13#8 ++ 0#16 ++ b
  | .busReadAck => 0x14#8 ++ 0#24
  | .busReadNack => 0x15#8 ++ 0#24
  | .dispInit => 0x20#8 ++ 0#24
  | .dispCmd b => 0x21#8 ++ 0#16 ++ b
  | .dispChar b => 0x22#8 ++ 0#16 ++ b
  | .dispClear => 0x23#8 ++ 0#24
  | .dispHome => 0x24#8 ++ 0#24
  | .dispGoto col row => 0x25#8 ++ 0#8 ++ row ++ col
  | .dispText addr => 0x30#8 ++ 0#8 ++ addr
  | .dispHex imm => 0x31#8 ++ imm
  | .dispInt imm => 0x32#8 ++ imm
  | .tempRead => 0x40#8 ++ 0#24

/-- The mnemonic of a command, the opcode table's spelling (R83). -/
def Instr.mnemonic : Instr → String
  | .busInit => "BUS_INIT"
  | .busStart => "BUS_START"
  | .busStop => "BUS_STOP"
  | .busSend _ => "BUS_SEND"
  | .busReadAck => "BUS_READ_ACK"
  | .busReadNack => "BUS_READ_NACK"
  | .dispInit => "DISP_INIT"
  | .dispCmd _ => "DISP_CMD"
  | .dispChar _ => "DISP_CHAR"
  | .dispClear => "DISP_CLEAR"
  | .dispHome => "DISP_HOME"
  | .dispGoto _ _ => "DISP_GOTO"
  | .dispText _ => "DISP_TEXT"
  | .dispHex _ => "DISP_HEX"
  | .dispInt _ => "DISP_INT"
  | .tempRead => "TEMP_READ"

/-- The 32-bit command word of which the opcode table gives the low `nbits` bits. -/
def tableWord (nbits w : Nat) : Word := BitVec.ofNat 32 (w % 2 ^ nbits)

/-- The instruction the decoder reads from an instruction whose bits are `w`, bit 0 the least significant.
A command is one 32-bit word and is never stored in bytes (R80, R52), so no byte order enters. -/
def decodeTableWord (nbits w : Nat) : Option Instr := decode (tableWord nbits w)

end Sys2Proof
end

