-- ==== Sys2Proof/Config.lean ====
section
/-! DEFINITION. The implementation parameters of LM92TC (00_scope.md R7) and the free values: what the
spec leaves open is an opaque constant, so that nothing can be proved of the value it takes. -/

namespace Sys2Proof

/-- One draw of the environment at a bus wait (R11, R101). The request decides which part is read:
a start or a stop reads `hang`; a transmission reads `hang` and `ack`; a reception `hang` and `data`. -/
structure BusDraw where
  /-- The device never completes the operation (the answer `hang` of R11). -/
  hang : Bool
  /-- The timeout step is taken although the device would answer; it is enabled only where
  CFG.TIMEOUT is not 0 (R101). -/
  early : Bool
  /-- The device's acknowledge of a transmitted byte: `ack` or `nack`. -/
  ack : Bool
  /-- The byte the device sends. -/
  data : Byte
deriving DecidableEq, Repr, Inhabited

namespace Config

/-- `F_REF` of R7, in hertz. Informative: no rule reads it. -/
def refClockHz : Nat := 8000000

/-- `F_SCL` of R7, in hertz: the bus clock target. Informative: no rule reads it. -/
def busClockTargetHz : Nat := 100000

/-- The informative relation of R120 between the divisor and the bus clock, in hertz. -/
def busClockHz (div : Byte) : Nat := refClockHz / (16 + 2 * div.toNat)

/-- `DIV_RESET` of R7. -/
def divReset : Byte := 0x20#8

/-- `SADDR_RESET` of R7. -/
def saddrReset : BitVec 7 := 0x48#7

/-- `SREG_RESET` of R7. -/
def sregReset : Byte := 0x00#8

/-- `COLS` of R7: display columns. -/
def cols : Nat := 20

/-- `ROWS` of R7: display rows. -/
def rows : Nat := 4

/-- `T_POWERON` of R7, in microseconds. -/
def tPowerOn : Nat := 15000

/-- `T_RESET1` of R7, in microseconds. -/
def tReset1 : Nat := 5000

/-- `T_RESET2` of R7, in microseconds. -/
def tReset2 : Nat := 150

/-- `T_RESET3` of R7, in microseconds. -/
def tReset3 : Nat := 50

/-- `T_CLEAR` of R7, in microseconds. -/
def tClear : Nat := 3000

/-- `T_HOME` of R7, in microseconds: DISP_HOME appends no wait (R154). -/
def tHome : Nat := 0

/-- `T_E` of R7: the enable line is high for at least this long, in microseconds. -/
def tEnableHigh : Nat := 40

/-- `T_EL` of R7: the enable line is low for at least this long, in microseconds. -/
def tEnableLow : Nat := 1

/-- `FMT_BUF` of R7: the format buffer in bytes, the terminator included. -/
def fmtBuf : Nat := 8

/-- `FMT_MAX` of R7: the visible characters of a formatted number, the buffer without its terminator. -/
def fmtMax : Nat := fmtBuf - 1

/-- What a byte of HMEM that is not listed reads as. DESIGN CHOICE (log 6, unsafe): the spec calls the
contents at reset unspecified (R38). -/
def hmemUnlisted : Byte := 0x00#8

/-- How many engine steps one step of the machine takes at most when no input is waiting to land.
DESIGN CHOICE (log 2, safe): it bounds the size of a step, not of a command; a command that is
longer goes on in the next step. -/
def burstLimit : Nat := 524288

/-- The device's answer number n, past the answers the state lists (R11: a draw under no law; log 3). -/
opaque busDraw : Nat → BusDraw

/-- The value number n of an unspecified read (R30; log 8). -/
opaque freeWord : Nat → Word

/-- The choice number n between the bytes a racing HMEM read may give (R65; log 7). -/
opaque freePick : Nat → Nat

/-- `TEMP_SIGNED` of R7, OPEN: the sign reading of the temperature code (R204; log 14). -/
opaque tempSigned : Bool

/-- `TIMEOUT_UNIT` of R7, OPEN and read by no rule: the microseconds of one unit of CFG.TIMEOUT (R237;
log 14). -/
opaque timeoutUnit : Nat

end Config

end Sys2Proof
end

