-- ==== Sys2Proof/Machine/State.lean ====
section
/-! DEFINITION. The state of LM92TC (10_state.md), the inputs of its environment, the state after reset, and
the reasons a step could stop. Plain data only. -/

namespace Sys2Proof.Machine

/-- STATUS.PHASE (R27). The values 5 to 7 are never held. -/
inductive Phase where
  /-- 0: no transaction open. -/
  | idle
  /-- 1: a start or repeated start is issued; the next byte is an address byte. -/
  | addr
  /-- 2: the controller transmits. -/
  | tx
  /-- 3: the controller receives. -/
  | rx
  /-- 4: the last reception ended with no-acknowledge. -/
  | rxEnd
deriving DecidableEq, Repr

/-- STATUS.ERR (R225): the result codes. The values 5 to 15 are never written. -/
inductive Result where
  | ok | busNack | busTimeout | dispRange | fmtOverflow
deriving DecidableEq, Repr

/-- STATUS.VIOL (R221): the violation codes. The values 6 to 15 are never written. -/
inductive Viol where
  | none | overrun | illegalCmd | illegalAccess | notInit | sequence
deriving DecidableEq, Repr

/-- An event of the bus trace (R100). -/
inductive BusEvent where
  /-- `BStart(rep)`. -/
  | start (rep : Bool)
  /-- `BTx(b, ack)`. -/
  | tx (b : Byte) (ack : Bool)
  /-- `BRx(b, mack)`. -/
  | rx (b : Byte) (mack : Bool)
  /-- `BStop`. -/
  | stop
  /-- `BTimeout`. -/
  | timeout
deriving DecidableEq, Repr

/-- An event of the display trace (R140). -/
inductive DispEvent where
  /-- `Nib(rs, n)`. -/
  | nib (rs : Bool) (n : Nibble)
  /-- `Wait(t)`, in microseconds, a lower bound. -/
  | wait (t : Nat)
deriving DecidableEq, Repr

/-- One internal step of the command engine: a line of the pseudocode of a command's rule. -/
inductive Micro where
  /-- `drain_stop()` (R104). -/
  | drainStop
  /-- `S.pullup <- 1 ; S.div_active <- CFG.DIV ; BUS_INIT <- 1 ; PHASE <- IDLE` (R110). -/
  | enableBus
  /-- `DONE <- 0`. -/
  | clearDone
  /-- `S.txd <- b`. -/
  | loadTx (b : Byte)
  /-- `bus_op(Start(rep)) ; PHASE <- ADDR ; DONE <- 1`. -/
  | startCond (rep : Bool)
  /-- `ans <- bus_op(Tx(b)) ; ACK <- (ans = ack) ; DONE <- 1`, and the first no-acknowledge makes the
  command's result BUS_NACK. -/
  | transmit (b : Byte)
  /-- `if PHASE = ADDR: PHASE <- (b[0] = 0 ? TX : RX)` (R114). -/
  | addressPhase (b : Byte)
  /-- `PHASE <- p`. -/
  | setPhase (p : Phase)
  /-- `v <- bus_op(Rx(mack)) ; RXDATA <- zext_32(v) ; DONE <- 1` (R115). -/
  | receive (mack : Bool)
  /-- `hi <-` the byte just received (R201). -/
  | keepHi
  /-- `lo <-` the byte just received (R201). -/
  | keepLo
  /-- `DONE <- 0 ; PHASE <- IDLE ; STOP_PENDING <- 1` (R113, R201). -/
  | issueStop
  /-- `TEMP[15:0] <- hi ++ lo ; TEMP_VALID <- (e = OK)` (R201). -/
  | assemble
  /-- `S.driven <- 1 ; S.e <- 0 ; S.rs <- 0 ; S.d <- 0` (R150). -/
  | driveLines
  /-- The first half of `nib(rs, n)` (R142): the lines are set, the enable line rises. -/
  | nibRise (rs : Bool) (n : Nibble)
  /-- The second half of `nib(rs, n)`: the enable line falls and the event is appended. -/
  | nibFall
  /-- `wait(t)` (R141): the event is appended and the delay timer starts. -/
  | wait (t : Nat)
  /-- The loop of DISP_TEXT at address `a` (R180). -/
  | text (a : HAddr)
  /-- `DISP_INIT <- 1` (R150). -/
  | displayReady
deriving DecidableEq, Repr

/-- `S.useq` (R34): the position of the engine within the accepted command, with the pseudocode's local
variables (log 10). -/
structure Useq where
  /-- The steps still to do; after the last one comes `finish(result)`. -/
  todo : List Micro
  /-- The result code the command will finish with: `e` of R201. -/
  result : Result
  /-- `hi` of R201. -/
  hi : Byte
  /-- `lo` of R201. -/
  lo : Byte
  /-- The `Wait` the delay timer is holding, if any (R141, R235). -/
  timer : Option Nat
  /-- The bytes of HMEM the host has overwritten since this DISP_TEXT was accepted, each with its address
  and the value it had before (R65). -/
  stale : List Host.Cell
deriving DecidableEq, Repr

/-- Host memory HMEM (R38, R56): address and byte pairs, addresses strictly rising, no entry equal to what
an unlisted address reads as (`Memory.wf`). -/
abbrev Memory := List Host.Cell

/-- What can arrive from outside LM92TC (00_scope.md R10, R50, R250). -/
inductive Input where
  /-- A host read of `width` bits at byte offset `off`; `Read32` is width 32 (R50, R52). -/
  | read (width : Nat) (off : Byte)
  /-- A host write of `width` bits at byte offset `off`; `Write32` is width 32 (R50, R52). -/
  | write (width : Nat) (off : Byte) (w : Word)
  /-- The host writes one byte of its memory (R38). -/
  | poke (a : HAddr) (b : Byte)
  /-- The host loop `wait` (R95). -/
  | wait
  /-- Not an access: here the TWI unit takes its step of R119, if it is enabled. -/
  | stopStep
  /-- The reset input (R250). -/
  | reset
deriving DecidableEq, Repr

/-- An input and when it lands: after at most `after` further steps of the command engine (R61; log 2). -/
structure Arrival where
  after : Nat
  input : Input
deriving DecidableEq, Repr

/-- A value the host has read, with the offset it read (00_scope.md R12). -/
structure HostRead where
  off : Byte
  value : Word
deriving DecidableEq, Repr

/-- The state of LM92TC (R20) and of its environment. -/
structure State where
  /-- STATUS.BUSY (R23). -/
  busy : Bool
  /-- STATUS.DONE (R24). -/
  done : Bool
  /-- STATUS.ACK (R25). -/
  ack : Bool
  /-- STATUS.BUS_INIT (R26). -/
  busInit : Bool
  /-- STATUS.STOP_PENDING (R26). -/
  stopPending : Bool
  /-- STATUS.PHASE (R27). -/
  phase : Phase
  /-- STATUS.DISP_INIT (R28). -/
  dispInit : Bool
  /-- STATUS.RS and the level of the register-select line, S.rs (R28, R36). -/
  rs : Bool
  /-- STATUS.TEMP_VALID (R28). -/
  tempValid : Bool
  /-- STATUS.ERR (R29). -/
  err : Result
  /-- STATUS.VIOL (R29). -/
  viol : Viol
  /-- RXDATA[7:0]; the other bits read 0 (R31). -/
  rxdata : Byte
  /-- TEMP.RAW; the other bits are read from it or are 0 (R32). -/
  tempRaw : BitVec 16
  /-- CFG.DIV (R33). -/
  cfgDiv : Byte
  /-- CFG.SADDR (R33). -/
  cfgSaddr : BitVec 7
  /-- CFG.SREG (R33). -/
  cfgSreg : Byte
  /-- CFG.TIMEOUT (R33). -/
  cfgTimeout : Byte
  /-- S.cmd (R34). -/
  cmd : Option Word
  /-- S.useq (R34). -/
  useq : Option Useq
  /-- S.div_active (R35). -/
  divActive : Byte
  /-- S.pullup (R35). -/
  pullup : Bool
  /-- S.txd (R35). -/
  txd : Byte
  /-- S.driven (R36). -/
  driven : Bool
  /-- S.e (R36). -/
  e : Bool
  /-- S.d (R36). -/
  d : Nibble
  /-- S.btrace, oldest event first (R37). -/
  btrace : List BusEvent
  /-- S.dtrace, oldest event first (R37). -/
  dtrace : List DispEvent
  /-- HMEM (R38). -/
  hmem : Memory
  /-- The model's own: the inputs still to arrive, in order (log 1). -/
  inbox : List Arrival
  /-- The model's own: the device's coming answers (log 3). -/
  dev : List BusDraw
  /-- The model's own: how many answers of the device have been drawn (log 3). -/
  draws : Nat
  /-- The model's own: how many free values have been drawn for reads (logs 7, 8). -/
  frees : Nat
  /-- The model's own: what the host has read, oldest first (R12; log 9). -/
  hostReads : List HostRead
deriving DecidableEq, Repr

/-- The machine right after reset (R40). HMEM and the model's own fields are DESIGN CHOICEs (logs 6, 9). -/
def State.reset : State where
  busy := false
  done := false
  ack := false
  busInit := false
  stopPending := false
  phase := .idle
  dispInit := false
  rs := false
  tempValid := false
  err := .ok
  viol := .none
  rxdata := 0#8
  tempRaw := 0#16
  cfgDiv := Config.divReset
  cfgSaddr := Config.saddrReset
  cfgSreg := Config.sregReset
  cfgTimeout := 0#8
  cmd := none
  useq := none
  divActive := 0#8
  pullup := false
  txd := 0#8
  driven := false
  e := false
  d := 0#4
  btrace := []
  dtrace := []
  hmem := []
  inbox := []
  dev := []
  draws := 0
  frees := 0
  hostReads := []

/-- The reasons a step can stop with a fault: none. Every illegal access or command is refused by LM92TC
itself and recorded in VIOL (R220, R231), and a hang leaves the engine without a step, not the
machine (R101; log 13). Safe: nothing is ruled out by a stop. -/
inductive Fault where
deriving DecidableEq, Repr

/-- The reasons the model refuses an instruction. -/
inductive Refusal where
  /-- The instruction has no meaning in this model yet. Raised by an arm of `exec` only, and by none now.
  Safe: nothing can be proved of what such an instruction does. -/
  | notModelled (mnemonic : String)
deriving DecidableEq, Repr

/-- The outcome of a step of this machine. -/
abbrev Outcome := Host.Outcome State Fault Refusal

end Sys2Proof.Machine
end

