-- ==== Sys2Proof/Machine/Operands.lean ====
section
/-! DEFINITION. The operand forms of the commands: the numbers a format I operand stands for, the bus address
bytes, the nibbles of a display byte, the display addresses, and the formatting of numbers. -/

namespace Sys2Proof.Machine

/-! ## Integer operands -/

/-- The operand of DISP_HEX: `zext_32(w[23:0])`, 0 to 0xFFFFFF (R86). -/
def hexOperand (imm : BitVec 24) : Nat := imm.toNat

/-- The operand of DISP_INT: `sext_32(w[23:0])`, -8388608 to 8388607 (R86). -/
def intOperand (imm : BitVec 24) : Int := imm.toInt

/-! ## Bus bytes -/

/-- The address byte `a7 << 1 | rw`: bits 7:1 the device address, bit 0 R/W (R57, R105). -/
def addressByte (a7 : BitVec 7) (rw : Bool) : Byte := a7 ++ BitVec.ofBool rw

/-- Bit 0 of an address byte: R/W, `true` for a read (R105). -/
def isReadAddress (b : Byte) : Bool := b.getLsbD 0

/-- The phase that an address byte opens (R103). -/
def phaseOfAddress (b : Byte) : Phase := if isReadAddress b then .rx else .tx

/-- `W = hi ++ lo` (R202). -/
def assembleWord (hi lo : Byte) : BitVec 16 := hi ++ lo

/-! ## Display bytes -/

/-- `x[7:4]`: the nibble sent first (R143). -/
def highNibble (x : Byte) : Nibble := x.extractLsb' 4 4

/-- `x[3:0]`: the nibble sent second (R143). -/
def lowNibble (x : Byte) : Nibble := x.extractLsb' 0 4

/-- function-set: 4-bit mode, two-line, 5x7 font (R145). -/
def cmdFunctionSet : Byte := 0x28#8

/-- display-control: on, cursor visible (R145). -/
def cmdDisplayControl : Byte := 0x0E#8

/-- entry-mode: auto-increment (R145). -/
def cmdEntryMode : Byte := 0x06#8

/-- clear-display (R145). -/
def cmdClear : Byte := 0x01#8

/-- home (R145). -/
def cmdHome : Byte := 0x02#8

/-- The low-level reset nibble (R145). -/
def nibReset : Nibble := 0x3#4

/-- The 4-bit switch nibble (R145). -/
def nibFourBit : Nibble := 0x2#4

/-- `ROW_BASE` (R59). Rows past the table are refused by DISP_GOTO before this is read (R155). -/
def rowBase (row : Byte) : Byte :=
  [0x00#8, 0x40#8, 0x14#8, 0x54#8].getD row.toNat 0x00#8

/-- `rowaddr(col, row)` (R156). -/
def rowAddr (col row : Byte) : Byte := rowBase row + col

/-- The set-cursor byte `0x80 | addr` (R145, R155). -/
def setCursor (addr : Byte) : Byte := 0x80#8 ||| addr

/-- The check of DISP_GOTO: `row > 3 or col >= COLS` (R155). -/
def offDisplay (col row : Byte) : Bool :=
  decide (row.toNat > Config.rows - 1) || decide (col.toNat ≥ Config.cols)

/-! ## Number formatting -/

/-- The digits of `n` in base `base`, most significant first, put before `acc`; at most `fuel` of them. -/
def digitsFuel (base : Nat) : Nat → Nat → List Nat → List Nat
  | 0, _, acc => acc
  | fuel + 1, n, acc =>
    if n < base then n :: acc else digitsFuel base fuel (n / base) (n % base :: acc)

/-- The digits of `n` in base `base`, most significant first, no leading zeros; 24 digits are enough for
every 24-bit number in every base from 2 up. -/
def digitsOf (base n : Nat) : List Nat := digitsFuel base 24 n []

/-- The ASCII code of a digit: 0x30 to 0x39, then the lowercase letters from 0x61 (R183). -/
def digitCode (k : Nat) : Byte :=
  if k < 10 then BitVec.ofNat 8 (0x30 + k) else BitVec.ofNat 8 (0x61 + (k - 10))

/-- `hexstr(v)` (R183). -/
def hexstr (v : Nat) : List Byte := (digitsOf 16 v).map digitCode

/-- The code of "-" (R184). -/
def minusSign : Byte := 0x2D#8

/-- `decstr(v)` (R184). -/
def decstr (v : Int) : List Byte :=
  if v < 0 then minusSign :: (digitsOf 10 v.natAbs).map digitCode
  else (digitsOf 10 v.natAbs).map digitCode

/-- The buffer bound: more than FMT_MAX characters are rejected (R185). -/
def overflowsBuffer (s : List Byte) : Bool := decide (s.length > Config.fmtMax)

/-- The digit a code stands for, if it is one: the inverse of `digitCode` that R186's parsing uses. -/
def codeDigit (c : Byte) : Option Nat :=
  if 0x30 ≤ c.toNat ∧ c.toNat ≤ 0x39 then some (c.toNat - 0x30)
  else if 0x61 ≤ c.toNat ∧ c.toNat ≤ 0x66 then some (c.toNat - 0x61 + 10)
  else none

/-- Reading digits back in a base, after the value `acc` of the digits before them (R186). -/
def parseDigits (base : Nat) : List Byte → Nat → Option Nat
  | [], acc => some acc
  | c :: cs, acc =>
    match codeDigit c with
    | some k => if k < base then parseDigits base cs (acc * base + k) else none
    | none => none

/-- Reading the characters of a number in base 16 back (R186). -/
def parseHex (s : List Byte) : Option Nat :=
  if s = [] then none else parseDigits 16 s 0

/-- Reading the characters of a number in base 10 back (R186). -/
def parseDec (s : List Byte) : Option Int :=
  match s with
  | [] => none
  | c :: cs =>
    if c = minusSign then
      (if cs = [] then none else (parseDigits 10 cs 0).map (fun n : Nat => -(n : Int)))
    else (parseDigits 10 (c :: cs) 0).map (fun n : Nat => (n : Int))

end Sys2Proof.Machine
end

