-- ==== Sys2Proof/Machine/Flags.lean ====
section
/-! DEFINITION. The words the host registers read as, assembled from the fields of State (10_state.md R22, R31,
R32, R33), and the values they read as while a command executes (R30). -/

namespace Sys2Proof.Machine

/-- The field PHASE as a 3-bit number (R27). -/
def Phase.code : Phase → BitVec 3
  | .idle => 0
  | .addr => 1
  | .tx => 2
  | .rx => 3
  | .rxEnd => 4

/-- The field ERR as a 4-bit number (R225). -/
def Result.code : Result → BitVec 4
  | .ok => 0
  | .busNack => 1
  | .busTimeout => 2
  | .dispRange => 3
  | .fmtOverflow => 4

/-- The field VIOL as a 4-bit number (R221). -/
def Viol.code : Viol → BitVec 4
  | .none => 0
  | .overrun => 1
  | .illegalCmd => 2
  | .illegalAccess => 3
  | .notInit => 4
  | .sequence => 5

/-- STATUS while BUSY = 0, bit 31 first: reserved 31:20, VIOL 19:16, ERR 15:12, reserved 11, TEMP_VALID 10,
RS 9, DISP_INIT 8, PHASE 7:5, STOP_PENDING 4, BUS_INIT 3, ACK 2, DONE 1, BUSY 0 (R22). -/
def State.statusWord (s : State) : Word :=
  0#12 ++ s.viol.code ++ s.err.code ++ 0#1 ++ BitVec.ofBool s.tempValid ++ BitVec.ofBool s.rs ++
    BitVec.ofBool s.dispInit ++ s.phase.code ++ BitVec.ofBool s.stopPending ++
    BitVec.ofBool s.busInit ++ BitVec.ofBool s.ack ++ BitVec.ofBool s.done ++ BitVec.ofBool s.busy

/-- STATUS while BUSY = 1: BUSY, VIOL and the reserved bits are exact, the other fields come from the free
word `free` (R30; log 8). -/
def State.statusWordBusy (s : State) (free : Word) : Word :=
  0#12 ++ s.viol.code ++ free.extractLsb' 12 4 ++ 0#1 ++ free.extractLsb' 1 10 ++ 1#1

/-- RXDATA while BUSY = 0 (R31). -/
def State.rxdataWord (s : State) : Word := 0#24 ++ s.rxdata

/-- The temperature code `RAW[15:3]` (R32, R203). -/
def codeOf (w : BitVec 16) : BitVec 13 := w.extractLsb' 3 13

/-- TEMP while BUSY = 0: CODE in 28:16, RAW in 15:0 (R32). -/
def State.tempWord (s : State) : Word := 0#3 ++ codeOf s.tempRaw ++ s.tempRaw

/-- CFG while BUSY = 0: TIMEOUT 31:24, SREG 23:16, bit 15 reads 0, SADDR 14:8, DIV 7:0 (R33). -/
def State.cfgWord (s : State) : Word := s.cfgTimeout ++ s.cfgSreg ++ 0#1 ++ s.cfgSaddr ++ s.cfgDiv

/-- The fields a write of `w` to CFG sets; bit 15 is ignored (R33). -/
def State.withCfg (s : State) (w : Word) : State :=
  { s with
    cfgDiv := w.extractLsb' 0 8
    cfgSaddr := w.extractLsb' 8 7
    cfgSreg := w.extractLsb' 16 8
    cfgTimeout := w.extractLsb' 24 8 }

/-- The level of the display lines RS, E and D7..D4, or `none` while LM92TC does not drive them (R36). -/
def State.displayLines (s : State) : Option (Bool × Bool × Nibble) :=
  if s.driven then some (s.rs, s.e, s.d) else none

end Sys2Proof.Machine
end

