-- ==== Sys2Proof/Machine/Ops.lean ====
section
/-! DEFINITION. The named operations every command is built from: host memory, the environment's draws, refusing
(`raise Violation`), finishing, the bus operations with their timeout, the command engine's steps, the
acceptance check, and starting a command. LM92TC has no trap: refusing (R220) stands where another
machine takes an exception, and there is no return from it (R231, R232). -/

namespace Sys2Proof.Machine

/-! ## Host memory -/

/-- One byte of HMEM (`MemRead(addr, 1)`, R56). -/
def Memory.read : Memory → HAddr → Byte
  | [], _ => Config.hmemUnlisted
  | (k, b) :: m, a => if k = a.toNat then b else Memory.read m a

/-- Putting a byte into a memory whose addresses rise, with no regard to what an unlisted byte reads as. -/
def Memory.insert : Memory → Nat → Byte → Memory
  | [], k, b => [(k, b)]
  | (k', b') :: m, k, b =>
    if k < k' then (k, b) :: (k', b') :: m
    else if k = k' then (k, b) :: m
    else (k', b') :: Memory.insert m k b

/-- Taking the entry of an address out. -/
def Memory.erase : Memory → Nat → Memory
  | [], _ => []
  | (k', b') :: m, k => if k = k' then m else (k', b') :: Memory.erase m k

/-- Writing one byte, as the host does; a byte equal to what an unlisted one reads as is not listed. -/
def Memory.write (m : Memory) (a : HAddr) (b : Byte) : Memory :=
  if b = Config.hmemUnlisted then Memory.erase m a.toNat else Memory.insert m a.toNat b

/-- The canonical form from address `lo` up: addresses rise strictly and stay below 2^16, and no entry
equals what an unlisted address reads as. -/
def Memory.wfFrom : Nat → Memory → Bool
  | _, [] => true
  | lo, (k, b) :: m =>
    decide (lo ≤ k) && decide (k < 65536) && decide (b ≠ Config.hmemUnlisted) && Memory.wfFrom (k + 1) m

/-- The canonical form of a memory. -/
def Memory.wf (m : Memory) : Bool := Memory.wfFrom 0 m

/-! ## The environment's draws -/

/-- The device's answer number `k` from here on: the list's, or the opaque constant's past its end
(R11; log 3). -/
def State.drawAt (s : State) (k : Nat) : BusDraw :=
  match s.dev[k]? with
  | some d => d
  | none => Config.busDraw (s.draws + k)

/-- The device's next answer. -/
def State.nextDraw (s : State) : BusDraw := s.drawAt 0

/-- The next answer is used up. -/
def State.popDraw (s : State) : State := { s with dev := s.dev.tail, draws := s.draws + 1 }

/-- The next free word, for an unspecified read (R30; log 8). -/
def State.freeWord (s : State) : Word := Config.freeWord s.frees

/-- One more free value is used up. -/
def State.popFree (s : State) : State := { s with frees := s.frees + 1 }

/-! ## Refusing, finishing, timing out -/

/-- `raise Violation(code)` (R220): the first code since reset is kept, and nothing else changes. -/
def State.raise (s : State) (code : Viol) : State :=
  { s with viol := if s.viol = .none then code else s.viol }

/-- `finish(e)` (R226). -/
def State.finish (s : State) (e : Result) : State :=
  { s with err := e, cmd := none, useq := none, busy := false }

/-- `emit_bus(ev)` (R9). -/
def State.emitBus (s : State) (ev : BusEvent) : State := { s with btrace := s.btrace ++ [ev] }

/-- `emit_disp(ev)` (R9). -/
def State.emitDisp (s : State) (ev : DispEvent) : State := { s with dtrace := s.dtrace ++ [ev] }

/-- `S.cmd` is TEMP_READ (R228). -/
def State.runsTempRead (s : State) : Bool := s.cmd == some (encode .tempRead)

/-- `S.cmd` is a DISP_TEXT (R65). -/
def State.runsText (s : State) : Bool :=
  match s.cmd with
  | some w =>
    match decode w with
    | some (.dispText _) => true
    | _ => false
  | none => false

/-- `timeout()` (R228). -/
def State.timeout (s : State) : State :=
  State.finish
    { s.emitBus .timeout with
      busInit := false
      phase := .idle
      stopPending := false
      done := false
      tempValid := if s.runsTempRead then false else s.tempValid } .busTimeout

/-- The stop is performed on the bus (R119): `BStop` is appended and STOP_PENDING cleared, and the answer
of the device is used up. -/
def State.stopPerformed (s : State) : State :=
  { s.popDraw.emitBus .stop with stopPending := false }

/-- The step of R119 where it is enabled: a stop is pending and the device does not hang on it. -/
def State.stopStep (s : State) : State :=
  if s.stopPending && !s.nextDraw.hang then s.stopPerformed else s

/-! ## The command engine -/

/-- A bus wait (R101, R104), at an engine position already past it: the timeout step where CFG.TIMEOUT is
not 0 and the device hangs or the timeout comes early; no step at all where the device hangs and there
is no timeout; else the answer is used up and `complete` goes on with it. -/
def State.busWait (s : State) (complete : BusDraw → State → State) : Option State :=
  if s.cfgTimeout ≠ 0#8 ∧ (s.nextDraw.hang = true ∨ s.nextDraw.early = true) then
    some s.popDraw.timeout
  else if s.nextDraw.hang then none
  else some (complete s.nextDraw s.popDraw)

/-- The result after a transmission: the first no-acknowledge is the one recorded (R114, R201). -/
def resultAfter (r : Result) (ack : Bool) : Result :=
  if ack = false ∧ r = .ok then .busNack else r

/-- The values a read of HMEM at `a` may give: the byte there now, and each byte the host has overwritten
there since the DISP_TEXT was accepted (R65; log 7). -/
def State.textCandidates (s : State) (stale : List Host.Cell) (a : HAddr) : List Byte :=
  s.hmem.read a :: (stale.filter (fun c => c.1 == a.toNat)).map (fun c => c.2)

/-- The byte DISP_TEXT reads at `a`: with no race the byte there, with one a free choice (R65; log 7). -/
def State.textByte (s : State) (stale : List Host.Cell) (a : HAddr) : Byte :=
  if stale.any (fun c => c.1 == a.toNat) then
    (s.textCandidates stale a).getD
      (Config.freePick s.frees % (s.textCandidates stale a).length) (s.hmem.read a)
  else s.hmem.read a

/-- The free choice, if the read made one, is used up. -/
def State.afterTextByte (s : State) (stale : List Host.Cell) (a : HAddr) : State :=
  if stale.any (fun c => c.1 == a.toNat) then s.popFree else s

/-- `nib(rs, n)` as engine steps (R142). -/
def nibSteps (rs : Bool) (n : Nibble) : List Micro := [.nibRise rs n, .nibFall]

/-- `xfer(rs, x)` as engine steps (R143): the high nibble, then the low one. -/
def xferSteps (rs : Bool) (x : Byte) : List Micro :=
  nibSteps rs (highNibble x) ++ nibSteps rs (lowNibble x)

/-- One line of a command's pseudocode, from the position `u` that comes after it; `none` where the step is
not enabled, which only a bus wait can be (R101). -/
def State.perform (s : State) (m : Micro) (u : Useq) : Option State :=
  let s' : State := { s with useq := some u }
  match m with
  | .drainStop =>
    if s.stopPending then
      s'.busWait (fun _ t => { t.emitBus .stop with stopPending := false })
    else some s'
  | .enableBus => some { s' with pullup := true, divActive := s.cfgDiv, busInit := true, phase := .idle }
  | .clearDone => some { s' with done := false }
  | .loadTx b => some { s' with txd := b }
  | .startCond rep =>
    s'.busWait (fun _ t => { t.emitBus (.start rep) with phase := .addr, done := true })
  | .transmit b =>
    s'.busWait (fun d t =>
      { t.emitBus (.tx b d.ack) with
        ack := d.ack
        done := true
        useq := some { u with result := resultAfter u.result d.ack } })
  | .addressPhase b =>
    some { s' with phase := if s.phase = .addr then phaseOfAddress b else s.phase }
  | .setPhase p => some { s' with phase := p }
  | .receive mack =>
    s'.busWait (fun d t =>
      { t.emitBus (.rx d.data mack) with rxdata := d.data, done := true })
  | .keepHi => some { s' with useq := some { u with hi := s.rxdata } }
  | .keepLo => some { s' with useq := some { u with lo := s.rxdata } }
  | .issueStop => some { s' with done := false, phase := .idle, stopPending := true }
  | .assemble =>
    some { s' with tempRaw := assembleWord u.hi u.lo, tempValid := decide (u.result = .ok) }
  | .driveLines => some { s' with driven := true, e := false, rs := false, d := 0#4 }
  | .nibRise rs n => some { s' with rs := rs, d := n, e := true }
  | .nibFall => some { s'.emitDisp (.nib s.rs s.d) with e := false }
  | .wait t => some { s'.emitDisp (.wait t) with useq := some { u with timer := some t } }
  | .text a =>
    let c := s.textByte u.stale a
    let t := s'.afterTextByte u.stale a
    if c = 0#8 then some (t.finish .ok)
    else some { t with useq := some { u with todo := xferSteps true c ++ .text (a + 1) :: u.todo } }
  | .displayReady => some { s' with dispInit := true }

/-- One step of the command engine (R34), or of the delay timer while a `Wait` holds the engine (R235,
R236); `none` where no command executes or the bus holds the engine for good (R101). -/
def State.engineStep (s : State) : Option State :=
  match s.useq with
  | none => none
  | some u =>
    match u.timer with
    | some _ => some { s with useq := some { u with timer := none } }
    | none =>
      match u.todo with
      | [] => some (s.finish u.result)
      | m :: rest => s.perform m { u with todo := rest }

/-- At most `n` steps of the engine. -/
def State.engineRun : Nat → State → State
  | 0, s => s
  | n + 1, s =>
    match s.engineStep with
    | none => s
    | some t => State.engineRun n t

/-- How many engine steps are taken before the next input lands (log 2). -/
def State.room (s : State) : Nat :=
  match s.inbox with
  | [] => Config.burstLimit
  | a :: _ => a.after

/-- The next input is due: it lands before any further engine step. -/
def State.inputDue (s : State) : State :=
  { s with
    inbox :=
      match s.inbox with
      | [] => []
      | a :: rest => { a with after := 0 } :: rest }

/-- The engine runs until the next input lands, the command finishes, or the bus holds it. -/
def State.burst (s : State) : State := (State.engineRun s.room s).inputDue

/-! ## Acceptance -/

/-- "Needs an initialized unit" and has it (R222): DISP_INIT and BUS_INIT need nothing. -/
def State.unitReady (s : State) (i : Instr) : Bool :=
  match i with
  | .busInit => true
  | .dispInit => true
  | i => if i.unit = .lcd then s.dispInit else s.busInit

/-- The phase table R103: the phase after the command completes, or `none` for SEQ. Display commands do not
read or change PHASE. -/
def phaseTable (p : Phase) (i : Instr) : Option Phase :=
  match i with
  | .busInit => if p = .idle then some .idle else none
  | .busStart =>
    match p with
    | .rx => none
    | _ => some .addr
  | .busSend b =>
    match p with
    | .addr => some (phaseOfAddress b)
    | .tx => some .tx
    | _ => none
  | .busReadAck => if p = .rx then some .rx else none
  | .busReadNack => if p = .rx then some .rxEnd else none
  | .busStop =>
    match p with
    | .addr => some .idle
    | .tx => some .idle
    | .rxEnd => some .idle
    | _ => none
  | .tempRead => if p = .idle then some .idle else none
  | _ => some p

/-- Command acceptance (R222): the first failing check decides; then `S.cmd <- w` and the pseudocode. The
check that the word decodes comes between the first and the second, where the word is read
(`State.submit`). -/
def State.accept (s : State) (i : Instr) (go : State → State) : Outcome :=
  if s.busy then .next (s.raise .overrun)
  else if s.unitReady i = false then .next (s.raise .notInit)
  else if phaseTable s.phase i = none then .next (s.raise .sequence)
  else .next (go { s with cmd := some (encode i) })

/-- `S.busy <- 1`, the engine at the head of the steps `todo`, to finish with `result` unless a
no-acknowledge changes it. -/
def State.begin (s : State) (todo : List Micro) (result : Result) : State :=
  { s with
    busy := true
    useq := some ⟨todo, result, 0#8, 0#8, none, []⟩ }

/-- A command starts and runs until the next input lands. -/
def State.launch (s : State) (todo : List Micro) (result : Result) : State :=
  (s.begin todo result).burst

/-- `S.busy <- 1 ; DONE <- 0`, as every TWI command and TEMP_READ starts (R102, R24). -/
def State.launchBus (s : State) (todo : List Micro) : State :=
  State.launch { s with done := false } todo .ok

end Sys2Proof.Machine
end

