-- ==== Sys2Proof/Machine/Lcd.lean ====
section
/-! DEFINITION. The commands of the LCD unit (41_lcd.md). -/

namespace Sys2Proof.Machine

/-- The power-on sequence of DISP_INIT, line by line (R150). -/
def powerOnSteps : List Micro :=
  List.flatten
    [ [.driveLines, .wait Config.tPowerOn],
      nibSteps false nibReset, [.wait Config.tReset1],
      nibSteps false nibReset, [.wait Config.tReset2],
      nibSteps false nibReset, [.wait Config.tReset3],
      nibSteps false nibFourBit,
      xferSteps false cmdFunctionSet,
      xferSteps false cmdDisplayControl,
      xferSteps false cmdEntryMode,
      xferSteps false cmdClear, [.wait Config.tClear],
      [.displayReady] ]

/-- DISP_INIT (R150). -/
def execDispInit (s : State) : Outcome :=
  s.accept .dispInit (fun s => s.launch powerOnSteps .ok)

/-- DISP_CMD b (R151). -/
def execDispCmd (b : Byte) (s : State) : Outcome :=
  s.accept (.dispCmd b) (fun s => s.launch (xferSteps false b) .ok)

/-- DISP_CHAR b (R152). -/
def execDispChar (b : Byte) (s : State) : Outcome :=
  s.accept (.dispChar b) (fun s => s.launch (xferSteps true b) .ok)

/-- DISP_CLEAR (R153). -/
def execDispClear (s : State) : Outcome :=
  s.accept .dispClear (fun s => s.launch (xferSteps false cmdClear ++ [.wait Config.tClear]) .ok)

/-- DISP_HOME (R154): no wait is appended, T_HOME being 0. -/
def execDispHome (s : State) : Outcome :=
  s.accept .dispHome (fun s => s.launch (xferSteps false cmdHome) .ok)

/-- DISP_GOTO col, row (R155). -/
def execDispGoto (col row : Byte) (s : State) : Outcome :=
  s.accept (.dispGoto col row) (fun s =>
    if offDisplay col row then s.launch [] .dispRange
    else s.launch (xferSteps false (setCursor (rowAddr col row))) .ok)

end Sys2Proof.Machine
end

