-- ==== Sys2Proof/Machine/Text.lean ====
section
/-! DEFINITION. Text and number output (42_text.md). -/

namespace Sys2Proof.Machine

/-- `if length(s) > 7: finish(FMT_OVERFLOW)`, else each character in Character mode (R181, R182). -/
def State.launchFormatted (s : State) (chars : List Byte) : State :=
  if overflowsBuffer chars then s.launch [] .fmtOverflow
  else s.launch (chars.flatMap (xferSteps true)) .ok

/-- DISP_TEXT addr (R180). -/
def execDispText (addr : HAddr) (s : State) : Outcome :=
  s.accept (.dispText addr) (fun s => s.launch [.text addr] .ok)

/-- DISP_HEX v (R181). -/
def execDispHex (imm : BitVec 24) (s : State) : Outcome :=
  s.accept (.dispHex imm) (fun s => s.launchFormatted (hexstr (hexOperand imm)))

/-- DISP_INT v (R182). -/
def execDispInt (imm : BitVec 24) (s : State) : Outcome :=
  s.accept (.dispInt imm) (fun s => s.launchFormatted (decstr (intOperand imm)))

end Sys2Proof.Machine
end

