-- ==== Sys2Proof/Machine/Trs.lean ====
section
/-! DEFINITION. The temperature register read sequencer (43_trs.md). -/

namespace Sys2Proof.Machine

/-- `tx(x)` of R201. -/
def txSteps (x : Byte) : List Micro := [.clearDone, .loadTx x, .transmit x]

/-- The transaction of R200 as R201 runs it, with the CFG fields read at acceptance. -/
def readSteps (saddr : BitVec 7) (sreg : Byte) : List Micro :=
  List.flatten
    [ [.drainStop, .startCond false],
      txSteps (addressByte saddr false),
      [.setPhase .tx],
      txSteps sreg,
      [.clearDone, .startCond true],
      txSteps (addressByte saddr true),
      [.setPhase .rx],
      [.clearDone, .receive true, .keepHi],
      [.clearDone, .receive false, .keepLo, .setPhase .rxEnd],
      [.issueStop, .assemble] ]

/-- TEMP_READ (R201). -/
def execTempRead (s : State) : Outcome :=
  s.accept .tempRead (fun s => s.launchBus (readSteps s.cfgSaddr s.cfgSreg))

end Sys2Proof.Machine
end

