-- ==== Sys2Proof/Machine/Twi.lean ====
section
/-! DEFINITION. The commands of the TWI unit (40_twi.md). Every one but BUS_STOP, and TEMP_READ, drains a pending stop
before its first bus request (R104); R114 to R117 leave that line out of their pseudocode because no stop
is pending in their phases (log 16). -/

namespace Sys2Proof.Machine

/-- BUS_INIT (R110). -/
def execBusInit (s : State) : Outcome :=
  s.accept .busInit (fun s => s.launchBus [.drainStop, .enableBus])

/-- BUS_START (R111): a repeated start unless PHASE is IDLE (R112). -/
def execBusStart (s : State) : Outcome :=
  s.accept .busStart (fun s => s.launchBus [.drainStop, .startCond (decide (s.phase ≠ .idle))])

/-- BUS_STOP (R113): it finishes at acceptance; the stop is performed later (R119). -/
def execBusStop (s : State) : Outcome :=
  s.accept .busStop
    (fun s => State.finish { s with done := false, phase := .idle, stopPending := true } .ok)

/-- BUS_SEND b (R114, R118, R104). -/
def execBusSend (b : Byte) (s : State) : Outcome :=
  s.accept (.busSend b) (fun s => s.launchBus [.drainStop, .loadTx b, .transmit b, .addressPhase b])

/-- BUS_READ_ACK (R115, R116, R104). -/
def execBusReadAck (s : State) : Outcome :=
  s.accept .busReadAck (fun s => s.launchBus [.drainStop, .receive true])

/-- BUS_READ_NACK (R115, R117, R104). -/
def execBusReadNack (s : State) : Outcome :=
  s.accept .busReadNack (fun s => s.launchBus [.drainStop, .receive false, .setPhase .rxEnd])

end Sys2Proof.Machine
end

