-- ==== Sys2Proof/Machine/Dispatch.lean ====
section
/-! DEFINITION. The meaning of every command, one arm per constructor of Instr. -/

namespace Sys2Proof.Machine

def exec (i : Instr) (s : State) : Host.Outcome State Fault Refusal :=
  match i with
  | .busInit => Sys2Proof.Machine.execBusInit s
  | .busStart => Sys2Proof.Machine.execBusStart s
  | .busStop => Sys2Proof.Machine.execBusStop s
  | .busSend b => Sys2Proof.Machine.execBusSend b s
  | .busReadAck => Sys2Proof.Machine.execBusReadAck s
  | .busReadNack => Sys2Proof.Machine.execBusReadNack s
  | .dispInit => Sys2Proof.Machine.execDispInit s
  | .dispCmd b => Sys2Proof.Machine.execDispCmd b s
  | .dispChar b => Sys2Proof.Machine.execDispChar b s
  | .dispClear => Sys2Proof.Machine.execDispClear s
  | .dispHome => Sys2Proof.Machine.execDispHome s
  | .dispGoto col row => Sys2Proof.Machine.execDispGoto col row s
  | .dispText addr => Sys2Proof.Machine.execDispText addr s
  | .dispHex imm => Sys2Proof.Machine.execDispHex imm s
  | .dispInt imm => Sys2Proof.Machine.execDispInt imm s
  | .tempRead => Sys2Proof.Machine.execTempRead s

end Sys2Proof.Machine
end

