-- ==== Sys2Proof/Machine/HostPort.lean ====
section
/-! DEFINITION. The host's side of LM92TC: the register map and its accesses (20_memory.md R50 to R55), the submission
of a command word (60_exceptions.md R222), the host's writes of HMEM, the poll loop (30_encoding.md R95),
the reset event (70_reset_and_hazards.md R250), and which agent moves next. -/

namespace Sys2Proof.Machine

/-- The offset of a host register (R51). -/
def regOffset : Reg → Byte
  | .cmd => 0x00#8
  | .status => 0x04#8
  | .rxdata => 0x08#8
  | .temp => 0x0C#8
  | .cfg => 0x10#8

/-- The register an access reaches: 32 bits wide, at a multiple of 4, at a mapped offset (R51, R52, R53). -/
def regAt (width : Nat) (off : Byte) : Option Reg :=
  if width = 32 then
    if off = 0x00#8 then some .cmd
    else if off = 0x04#8 then some .status
    else if off = 0x08#8 then some .rxdata
    else if off = 0x0C#8 then some .temp
    else if off = 0x10#8 then some .cfg
    else none
  else none

/-- The value a read of a register returns (R21, R22, R30 to R33). While BUSY = 1 every register but CMD, and
every field of STATUS but BUSY, VIOL and the reserved bits, reads a free value (R30, R260; log 8). -/
def State.readValue (s : State) (r : Reg) : Word :=
  match r with
  | .cmd => 0#32
  | .status => if s.busy then s.statusWordBusy s.freeWord else s.statusWord
  | .rxdata => if s.busy then s.freeWord else s.rxdataWord
  | .temp => if s.busy then s.freeWord else s.tempWord
  | .cfg => if s.busy then s.freeWord else s.cfgWord

/-- A read that gave a free value has used it up. -/
def State.afterRead (s : State) (r : Reg) : State :=
  if s.busy = true ∧ r ≠ .cmd then s.popFree else s

/-- The host has read `value` at `off` (R12). -/
def State.logRead (s : State) (off : Byte) (value : Word) : State :=
  { s with hostReads := s.hostReads ++ [⟨off, value⟩] }

/-- A host read (R50 to R53): a refused one returns 0. -/
def State.hostRead (s : State) (width : Nat) (off : Byte) : State :=
  match regAt width off with
  | some r => (s.afterRead r).logRead off (s.readValue r)
  | none => (s.raise .illegalAccess).logRead off 0#32

/-- The write of a word to CMD (R21, R222): OVERRUN, then ILLEGAL_CMD, then the command's own checks. -/
def State.submit (s : State) (w : Word) : Outcome :=
  if s.busy then .next (s.raise .overrun)
  else
    match decode w with
    | none => .next (s.raise .illegalCmd)
    | some i => exec i s

/-- The write of a word to CFG (R33, R54). -/
def State.writeCfg (s : State) (w : Word) : State :=
  if s.busy then s.raise .overrun else s.withCfg w

/-- A host write (R50 to R54). DESIGN CHOICE (log 18): R52 gives ILLEGAL_ACCESS to a write of another width or
alignment, R54 and R221 give OVERRUN to a write to CMD or CFG while BUSY = 1, and R223 orders no pair of the
two. Width and offset are checked first, so such a write at CMD or CFG while BUSY = 1 raises
ILLEGAL_ACCESS. -/
def State.hostWrite (s : State) (width : Nat) (off : Byte) (w : Word) : Outcome :=
  match regAt width off with
  | some .cmd => s.submit w
  | some .cfg => .next (s.writeCfg w)
  | some .status => .next (s.raise .illegalAccess)
  | some .rxdata => .next (s.raise .illegalAccess)
  | some .temp => .next (s.raise .illegalAccess)
  | none => .next (s.raise .illegalAccess)

/-- The host writes a byte of HMEM. While a DISP_TEXT runs, the byte it overwrites may still be the one
LM92TC reads there (R65, R265; log 7). -/
def State.poke (s : State) (a : HAddr) (b : Byte) : State :=
  { s with
    hmem := s.hmem.write a b
    useq :=
      match s.useq with
      | none => none
      | some u =>
        if s.runsText then some { u with stale := (a.toNat, s.hmem.read a) :: u.stale } else some u }

/-- One poll of the loop `wait` (R95): a read of STATUS; with BUSY = 1 the engine goes on and the host polls
again, with BUSY = 0 the loop ends (log 12). -/
def State.poll (s : State) : State :=
  if s.busy then
    { s.hostRead 32 (regOffset .status) with inbox := ⟨Config.burstLimit, .wait⟩ :: s.inbox }
  else s.hostRead 32 (regOffset .status)

/-- Whether the step asks the device for an answer. -/
def Micro.asksDevice (stopPending : Bool) : Micro → Bool
  | .drainStop => stopPending
  | .startCond _ => true
  | .transmit _ => true
  | .receive _ => true
  | _ => false

/-- Whether a request stands before the device: the engine waits for an answer, or a stop is pending. -/
def State.awaitsDevice (s : State) : Bool :=
  s.stopPending ||
    match s.useq with
    | some u => (u.todo.head?.map (Micro.asksDevice s.stopPending)).getD false
    | none => false

/-- Whether the device hangs on a request that stands before it. -/
def State.hungRequest (s : State) : Bool := s.awaitsDevice && s.nextDraw.hang

/-- The reset event (R250): every piece of state of LM92TC takes its reset value; HMEM and the rest of the
environment are not touched. A request the device hangs on is abandoned with its answer (log 5). -/
def State.resetEvent (s : State) : State :=
  { State.reset with
    hmem := s.hmem
    inbox := s.inbox
    dev := if s.hungRequest then s.dev.tail else s.dev
    draws := if s.hungRequest then s.draws + 1 else s.draws
    frees := s.frees
    hostReads := s.hostReads }

/-- An input takes effect. -/
def State.deliver (s : State) (input : Input) : Outcome :=
  match input with
  | .read width off => .next (s.hostRead width off)
  | .write width off w => s.hostWrite width off w
  | .poke a b => .next (s.poke a b)
  | .wait => .next s.poll
  | .stopStep => .next s.stopStep
  | .reset => .next s.resetEvent

/-- With no input waiting: the pending stop is performed if it can be, else the engine goes on, else nothing
happens (R62, R251, R272; log 11). -/
def State.alone (s : State) : State :=
  if s.stopPending && !s.nextDraw.hang then s.stopStep else s.burst

/-- The machine moves: the next input lands if it is due, else the engine runs until it is. -/
def State.advance (s : State) : Outcome :=
  match s.inbox with
  | [] => .next s.alone
  | a :: rest => if a.after = 0 then State.deliver { s with inbox := rest } a.input else .next s.burst

/-- The host's next access is `Write32(0x00, w)`. -/
def State.withSubmission (s : State) (w : Word) : State :=
  { s with inbox := ⟨0, .write 32 (regOffset .cmd) w⟩ :: s.inbox }

end Sys2Proof.Machine
end

