-- ==== Sys2Proof/Machine/Step.lean ====
section
/-! DEFINITION. One step of the machine, and where it takes its next command from. -/

namespace Sys2Proof.Machine

/-- One step: an input lands, or the agents of LM92TC move until the next one does (log 2). -/
def step (s : State) : Host.Outcome State Fault Refusal := s.advance

/-- The host's next access, due now, writes the command word `w` of `nbits` table bits to CMD: LM92TC fetches
no instructions, its commands come from the host (R66; log 1). -/
def State.withFetchWord (s : State) (nbits w : Nat) : State := s.withSubmission (tableWord nbits w)

end Sys2Proof.Machine
end

