-- ==== Sys2Proof/Machine/Assembler.lean ====
section
/-! DEFINITION. Host programs (30_encoding.md R87 to R92, R95): their text, their lines, the inputs a line is, and the
source's operations as lines. A program is what the host puts into `inbox`; no part of LM92TC reads it. -/

namespace Sys2Proof.Machine

/-! ## Lines to inputs -/

/-- The command a command line assembles to; `none` for a host line (R88). The operands are taken modulo
their field's width; a line out of range does not assemble (`assembleLine`). -/
def lineCommand : Line → Option Instr
  | .busInit => some .busInit
  | .busStart => some .busStart
  | .busStop => some .busStop
  | .busSend b => some (.busSend (BitVec.ofInt 8 b))
  | .busRdack => some .busReadAck
  | .busRdnack => some .busReadNack
  | .lcdInit => some .dispInit
  | .lcdCmd b => some (.dispCmd (BitVec.ofInt 8 b))
  | .lcdChar b => some (.dispChar (BitVec.ofInt 8 b))
  | .lcdClear => some .dispClear
  | .lcdHome => some .dispHome
  | .lcdGoto col row => some (.dispGoto (BitVec.ofInt 8 col) (BitVec.ofInt 8 row))
  | .lcdText addr => some (.dispText (BitVec.ofInt 16 addr))
  | .lcdHex v => some (.dispHex (BitVec.ofInt 24 v))
  | .lcdInt v => some (.dispInt (BitVec.ofInt 24 v))
  | .tempRead => some .tempRead
  | .rd _ => none
  | .wr _ _ => none
  | .wait => none

/-- `Write32(0x00, w)` for the command word `w` (R87). -/
def submission (w : Word) : Input := .write 32 (regOffset .cmd) w

/-- The input a line is, with no look at its ranges. -/
def lineInput (l : Line) : Input :=
  match l with
  | .rd r => .read 32 (regOffset r)
  | .wr r v => .write 32 (regOffset r) (BitVec.ofInt 32 v)
  | .wait => .wait
  | l =>
    match lineCommand l with
    | some i => submission (encode i)
    | none => .wait

/-- The input a line assembles to; an operand outside its range does not assemble (R88). -/
def assembleLine (l : Line) : Option Input := if l.wf then some (lineInput l) else none

/-- The inputs of a program, if every line assembles. -/
def assemble : List Line → Option (List Input)
  | [] => some []
  | l :: ls =>
    match assembleLine l, assemble ls with
    | some i, some is => some (i :: is)
    | _, _ => none

/-- The host's accesses one after the other, each as soon as the one before it has taken effect. -/
def atOnce (is : List Input) : List Arrival := is.map (fun i => ⟨0, i⟩)

/-! ## The source's operations (R89 to R91) -/

/-- A public operation of the source. -/
inductive SourceOp where
  | busInitialize
  | waitForComplete
  | start
  | stop
  | send (byte : Byte)
  | readAck
  | readNoAck
  | displayInitialize
  | sendCommand (byte : Byte)
  | sendCharacter (byte : Byte)
  | clear
  | home
  | gotoPosition (column row : Byte)
  /-- `writeText(string)` with the string placed at HMEM address `a` (R90). -/
  | writeText (a : HAddr) (string : List Byte)
  | writeHex (v : Int)
  | writeInteger (v : Int)
  | readCelsius
  | readFahrenheit
deriving DecidableEq, Repr

/-- A command line and `wait`. -/
def andWait (l : Line) : List Line := [l, .wait]

/-- The host lines an operation expands to (R89, R90, R91). -/
def SourceOp.lines : SourceOp → List Line
  | .busInitialize => andWait .busInit
  | .waitForComplete => [.wait]
  | .start => andWait .busStart
  | .stop => [.busStop]
  | .send b => andWait (.busSend b.toNat)
  | .readAck => andWait .busRdack ++ [.rd .rxdata]
  | .readNoAck => andWait .busRdnack ++ [.rd .rxdata]
  | .displayInitialize => andWait .lcdInit
  | .sendCommand b => andWait (.lcdCmd b.toNat)
  | .sendCharacter b => andWait (.lcdChar b.toNat)
  | .clear => andWait .lcdClear
  | .home => andWait .lcdHome
  | .gotoPosition c r => andWait (.lcdGoto c.toNat r.toNat)
  | .writeText a _ => andWait (.lcdText a.toNat)
  | .writeHex v => andWait (.lcdHex v)
  | .writeInteger v => andWait (.lcdInt v)
  | .readCelsius => andWait .tempRead ++ [.rd .temp]
  | .readFahrenheit => andWait .tempRead ++ [.rd .temp]

/-- The host places a string and its terminator at an address of HMEM (R90). -/
def placeString (a : HAddr) : List Byte → List Input
  | [] => [.poke a 0#8]
  | c :: cs => .poke a c :: placeString (a + 1) cs

/-- The inputs of an operation; `none` where an operand does not assemble. -/
def SourceOp.inputs (op : SourceOp) : Option (List Input) :=
  match op with
  | .writeText a string => (assemble op.lines).map (fun is => placeString a string ++ is)
  | op => assemble op.lines

/-! ## Text (R87, R88). Blanks, and which characters a label may hold, are the model's choice (log 15). -/

/-- A blank between the parts of a line. -/
def isBlank (c : Char) : Bool := c == ' ' || c == '\t' || c == '\r'

/-- A character of a label or a mnemonic. -/
def isNameChar (c : Char) : Bool := c.isAlphanum || c == '.' || c == '_'

/-- The blanks at the start are left out. -/
def trimLeft (cs : List Char) : List Char := cs.dropWhile isBlank

/-- The blanks at both ends are left out. -/
def trimBlanks (cs : List Char) : List Char := (trimLeft (trimLeft cs).reverse).reverse

/-- The line without its comment; a `;` inside a character literal starts none. -/
def stripComment : List Char → List Char
  | '\'' :: c :: '\'' :: cs => '\'' :: c :: '\'' :: stripComment cs
  | ';' :: _ => []
  | c :: cs => c :: stripComment cs
  | [] => []

/-- The line without its label, if it has one. -/
def stripLabel (cs : List Char) : List Char :=
  match (trimLeft cs).takeWhile isNameChar, trimLeft ((trimLeft cs).dropWhile isNameChar) with
  | _ :: _, ':' :: rest => rest
  | _, _ => cs

/-- The operands of a line, cut at its commas; a comma inside a character literal cuts nothing. -/
def splitOperands : List Char → List (List Char)
  | '\'' :: c :: '\'' :: cs =>
    match splitOperands cs with
    | o :: os => ('\'' :: c :: '\'' :: o) :: os
    | [] => [['\'', c, '\'']]
  | ',' :: cs => [] :: splitOperands cs
  | c :: cs =>
    match splitOperands cs with
    | o :: os => (c :: o) :: os
    | [] => [[c]]
  | [] => [[]]

/-- The value of a digit character. -/
def digitValue (c : Char) : Option Nat :=
  if '0' ≤ c ∧ c ≤ '9' then some (c.toNat - '0'.toNat)
  else if 'a' ≤ c ∧ c ≤ 'f' then some (c.toNat - 'a'.toNat + 10)
  else if 'A' ≤ c ∧ c ≤ 'F' then some (c.toNat - 'A'.toNat + 10)
  else none

/-- A numeral in a base, after the value `acc` of its first digits. -/
def readDigits (base : Nat) : List Char → Nat → Option Nat
  | [], acc => some acc
  | c :: cs, acc =>
    match digitValue c with
    | some k => if k < base then readDigits base cs (acc * base + k) else none
    | none => none

/-- A numeral without sign: hexadecimal with `0x`, decimal, or a character literal (R87). -/
def readNatural : List Char → Option Nat
  | [] => none
  | ['0', 'x'] => none
  | '0' :: 'x' :: cs => readDigits 16 cs 0
  | ['\'', c, '\''] => if c.toNat < 128 then some c.toNat else none
  | cs => readDigits 10 cs 0

/-- An operand's number. -/
def readNumber (cs : List Char) : Option Int :=
  match trimBlanks cs with
  | '-' :: rest => (readNatural rest).map (fun n : Nat => -(n : Int))
  | rest => (readNatural rest).map (fun n : Nat => (n : Int))

/-- A register's name. -/
def readReg (cs : List Char) : Option Reg :=
  let name := String.ofList (trimBlanks cs)
  if name = "CMD" then some .cmd
  else if name = "STATUS" then some .status
  else if name = "RXDATA" then some .rxdata
  else if name = "TEMP" then some .temp
  else if name = "CFG" then some .cfg
  else none

/-- The lines without operands, by mnemonic (R87, R88). -/
def plainLine (name : String) : Option Line :=
  if name = "bus.init" then some .busInit
  else if name = "bus.start" then some .busStart
  else if name = "bus.stop" then some .busStop
  else if name = "bus.rdack" then some .busRdack
  else if name = "bus.rdnack" then some .busRdnack
  else if name = "lcd.init" then some .lcdInit
  else if name = "lcd.clear" then some .lcdClear
  else if name = "lcd.home" then some .lcdHome
  else if name = "temp.read" then some .tempRead
  else if name = "wait" then some .wait
  else none

/-- The lines with one number, by mnemonic (R88). -/
def numberLine (name : String) (v : Int) : Option Line :=
  if name = "bus.send" then some (.busSend v)
  else if name = "lcd.cmd" then some (.lcdCmd v)
  else if name = "lcd.char" then some (.lcdChar v)
  else if name = "lcd.text" then some (.lcdText v)
  else if name = "lcd.hex" then some (.lcdHex v)
  else if name = "lcd.int" then some (.lcdInt v)
  else none

/-- A line from its mnemonic and the text of its operands. -/
def lineOf (name : String) (operands : List (List Char)) : Option Line :=
  match operands with
  | [o] =>
    if trimBlanks o = [] then plainLine name
    else if name = "rd" then (readReg o).map Line.rd
    else (readNumber o).bind (numberLine name)
  | [o, p] =>
    if name = "lcd.goto" then
      (readNumber o).bind (fun c => (readNumber p).map (fun r => Line.lcdGoto c r))
    else if name = "wr" then
      (readReg o).bind (fun r => (readNumber p).map (fun v => Line.wr r v))
    else none
  | _ => none

/-- The line a text stands for: `some none` for one with neither a mnemonic nor anything else, `none` for
one that is no line (R87). -/
def parseLine (text : List Char) : Option (Option Line) :=
  let body := trimBlanks (stripLabel (stripComment text))
  if body = [] then some none
  else
    (lineOf (String.ofList (body.takeWhile isNameChar))
      (splitOperands (body.dropWhile isNameChar))).map some

/-- The lines of a program from the texts of its lines. -/
def parseProgram : List (List Char) → Option (List Line)
  | [] => some []
  | t :: ts =>
    match parseLine t, parseProgram ts with
    | some (some l), some ls => some (l :: ls)
    | some none, some ls => some ls
    | _, _ => none

end Sys2Proof.Machine
end

