-- ==== Sys2Proof/Machine/Temperature.lean ====
section
/-! DEFINITION. What the host computes from the word TEMP_READ leaves (43_trs.md R202 to R206): pure functions, no
input or output (R91). The values are exact rationals; TEMP_SIGNED and FLOAT_CONV are arguments (R7). -/

namespace Sys2Proof.Machine

/-- The code of a temperature word as a number, by the sign reading (R204): `T`, or `T - 8192` where the
reading is signed and `T[12] = 1`. -/
def codeValue (signed : Bool) (w : BitVec 16) : Int :=
  if signed = true ∧ (codeOf w).getLsbD 12 = true then (codeOf w).toNat - 8192
  else (codeOf w).toNat

/-- `celsius(W)` (R204). -/
def celsius (signed : Bool) (w : BitVec 16) : ℚ := (codeValue signed w : ℚ) / 16

/-- `fahrenheit(W)` (R205). -/
def fahrenheit (signed : Bool) (w : BitVec 16) : ℚ := celsius signed w * (9 / 5) + 32

/-- `TEMP[15:0]` of a word read from TEMP (R91). -/
def rawOf (temp : Word) : BitVec 16 := temp.extractLsb' 0 16

/-- The result of `readCelsius()` from the word read from TEMP (R91), with the machine's TEMP_SIGNED. -/
def readCelsiusResult (temp : Word) : ℚ := celsius Config.tempSigned (rawOf temp)

/-- The result of `readFahrenheit()` (R91). -/
def readFahrenheitResult (temp : Word) : ℚ := fahrenheit Config.tempSigned (rawOf temp)

/-- A floating-point implementation's Celsius value, FLOAT_CONV being its conversion (R206). -/
def celsiusFloat {F : Type} (floatConv : ℚ → F) (signed : Bool) (w : BitVec 16) : F :=
  floatConv (celsius signed w)

/-- A floating-point implementation's Fahrenheit value (R206). -/
def fahrenheitFloat {F : Type} (floatConv : ℚ → F) (signed : Bool) (w : BitVec 16) : F :=
  floatConv (fahrenheit signed w)

end Sys2Proof.Machine
end

