-- ==== Sys2Proof/Safety.lean ====
section
/-! DEFINITION. What counts as a safe state or run of LM92TC, in the terms claims use: no violation (60_exceptions.md R220),
the end of a run (70_reset_and_hazards.md R272), the invariant of the machine, and the least time a
display trace takes (R270). -/

namespace Sys2Proof.Machine

/-- No violation since reset: the premise R220 asks of a claim about a run. -/
def State.clean (s : State) : Bool := s.viol == .none

/-- `BUSY = 0 and STOP_PENDING = 0` (R272). -/
def State.quiescent (s : State) : Bool := !s.busy && !s.stopPending

/-- The command engine stands at a request to the device, its own or for the pending stop (R101, R104). -/
def State.engineAsks (s : State) : Bool :=
  match s.useq with
  | some u => u.timer.isNone && (u.todo.head?.map (Micro.asksDevice s.stopPending)).getD false
  | none => false

/-- The command engine or the pending stop is stuck on a bus `hang` with CFG.TIMEOUT = 0 (R101, R119, R272). -/
def State.stuck (s : State) : Bool :=
  (s.engineAsks || s.stopPending) && s.nextDraw.hang && s.cfgTimeout == 0#8

/-- No agent of LM92TC has a step enabled: neither the command engine with its delay timer (R34, R101, R236) nor
the pending stop (R119). -/
def State.settled (s : State) : Bool := s.engineStep.isNone && !(s.stopPending && !s.nextDraw.hang)

/-- The end of a run (R272): the host has made its last access and LM92TC has taken every step still enabled. The
state is then quiescent or stuck, or a stop hangs that no command waits for although CFG.TIMEOUT is not 0
(log 17). -/
def State.ended (s : State) : Bool := s.inbox.isEmpty && s.settled

/-- The least time an event takes, in microseconds: a nibble `T_E + T_EL`, a wait its own (R264, R270). -/
def DispEvent.minMicros : DispEvent → Nat
  | .nib _ _ => Config.tEnableHigh + Config.tEnableLow
  | .wait t => t

/-- The least time a display trace takes, in microseconds (R270). -/
def minMicros (tr : List DispEvent) : Nat := (tr.map DispEvent.minMicros).sum

/-- The device answers its request number `k` from here on, and no timeout is taken there: the completion step
of R101. -/
def State.answers (s : State) (k : Nat) : Prop :=
  (s.drawAt k).hang = false ∧ (s.cfgTimeout = 0#8 ∨ (s.drawAt k).early = false)

/-- The lines of the display commands (41_lcd.md, 42_text.md). -/
def Micro.ofDisplay : Micro → Bool
  | .driveLines => true
  | .nibRise _ _ => true
  | .nibFall => true
  | .wait _ => true
  | .text _ => true
  | .displayReady => true
  | _ => false

/-- The lines that only TEMP_READ has (R201). -/
def Micro.ofTemp : Micro → Bool
  | .keepHi => true
  | .keepLo => true
  | .assemble => true
  | _ => false

/-- The lines that the commands of a unit may have. -/
def Micro.ofUnit : FuncUnit → Micro → Bool
  | .lcd, m => m.ofDisplay
  | .twi, m => !m.ofDisplay && !m.ofTemp
  | .trs, m => !m.ofDisplay

/-- What is left of a command can be run from a state with these flags without breaking the invariant: BUS_INIT,
STOP_PENDING, the enable line, and whether the display lines are driven. -/
def planOk (busInit stopPending e driven : Bool) : List Micro → Bool
  | [] => !e
  | .drainStop :: r => !e && planOk busInit false e driven r
  | .enableBus :: r => !stopPending && planOk true stopPending e driven r
  | .startCond _ :: r => !e && busInit && !stopPending && planOk busInit stopPending e driven r
  | .transmit _ :: r => !e && planOk busInit stopPending e driven r
  | .receive _ :: r => !e && planOk busInit stopPending e driven r
  | .setPhase p :: r =>
    (decide (p = .idle) || (busInit && !stopPending)) && planOk busInit stopPending e driven r
  | .issueStop :: r => busInit && planOk busInit true e driven r
  | .driveLines :: r => planOk busInit stopPending false true r
  | .nibRise _ _ :: r => driven && planOk busInit stopPending true driven r
  | .nibFall :: r => planOk busInit stopPending false driven r
  | .text _ :: r => !e && driven && planOk busInit stopPending e driven r
  | .displayReady :: r => driven && planOk busInit stopPending e driven r
  | .clearDone :: r => planOk busInit stopPending e driven r
  | .loadTx _ :: r => planOk busInit stopPending e driven r
  | .addressPhase _ :: r => planOk busInit stopPending e driven r
  | .keepHi :: r => planOk busInit stopPending e driven r
  | .keepLo :: r => planOk busInit stopPending e driven r
  | .assemble :: r => planOk busInit stopPending e driven r
  | .wait _ :: r => planOk busInit stopPending e driven r

/-- The invariant of LM92TC. -/
structure State.Inv (s : State) : Prop where
  /-- HMEM is in canonical form. -/
  hmem_wf : s.hmem.wf = true
  /-- `S.cmd` is none exactly while BUSY = 0 (R34). -/
  cmd_iff_busy : s.cmd.isSome = s.busy
  /-- `S.useq` is none exactly while BUSY = 0 (R34). -/
  useq_iff_busy : s.useq.isSome = s.busy
  /-- `S.cmd` holds the word of a command (R34, R222). -/
  cmd_decodes : ∀ w, s.cmd = some w → (decode w).isSome = true
  /-- An uninitialized TWI unit has no transaction and no stop pending (R228, R251). -/
  no_bus_uninit : s.busInit = false → s.phase = .idle ∧ s.stopPending = false
  /-- Inside a transaction no stop is pending (R114). -/
  no_stop_in_transaction : s.phase ≠ .idle → s.stopPending = false
  /-- An initialized display's lines are driven (R36, R150). -/
  display_driven : s.dispInit = true → s.driven = true
  /-- With no command executing the enable line is low (R142). -/
  enable_low_idle : s.busy = false → s.e = false
  /-- The steps left keep all this. -/
  plan_ok : ∀ u, s.useq = some u → planOk s.busInit s.stopPending s.e s.driven u.todo = true
  /-- The steps left are lines of the unit of the command in `S.cmd` (R34, R83). -/
  plan_of_unit : ∀ w i u, s.cmd = some w → decode w = some i → s.useq = some u →
    u.todo.all (Micro.ofUnit i.unit) = true

end Sys2Proof.Machine
end

