-- ==== Sys2Proof/Certificates/Slice0/Obligations.lean ====
section
/-! DEFINITION. The statements about LM92TC, from the numbered rules of spec/. Each is about the machine; no program
and no particular device is assumed. Hypotheses speak of the state and the operands alone: `s.room` is how
many engine steps pass before the next input lands, and `s.answers k` says that the device answers its
request number `k` from here on. -/

open Sys2Proof Sys2Proof.Machine

/-! ## Reset and the shape of a step -/

/-- R40: what every piece of state holds after reset; CMD reads 0. HMEM is left open by the rule and so is it
here. -/
def Obligations.ResetStateHoldsTheStatedValues : Prop :=
  State.reset.readValue .cmd = 0#32 ∧
  State.reset.busy = false ∧ State.reset.done = false ∧ State.reset.ack = false ∧
  State.reset.busInit = false ∧ State.reset.stopPending = false ∧ State.reset.phase = .idle ∧
  State.reset.dispInit = false ∧ State.reset.rs = false ∧ State.reset.tempValid = false ∧
  State.reset.err = .ok ∧ State.reset.viol = .none ∧
  State.reset.readValue .status = 0x00000000#32 ∧
  State.reset.readValue .rxdata = 0x00000000#32 ∧ State.reset.readValue .temp = 0x00000000#32 ∧
  State.reset.cfgDiv = 0x20#8 ∧ State.reset.cfgSaddr = 0x48#7 ∧ State.reset.cfgSreg = 0x00#8 ∧
  State.reset.cfgTimeout = 0x00#8 ∧
  State.reset.cmd = none ∧ State.reset.useq = none ∧ State.reset.divActive = 0#8 ∧
  State.reset.pullup = false ∧ State.reset.txd = 0x00#8 ∧
  State.reset.driven = false ∧ State.reset.e = false ∧ State.reset.d = 0#4 ∧
  State.reset.btrace = [] ∧ State.reset.dtrace = []

/-- R250, what a model can show of it: in every state, whatever command executes, the reset input leaves the
reset value in every piece of LM92TC's state (so no result is written, no event is appended, and a
pending stop is discarded), and HMEM as it was. That the model's own record of what the host has read
(`hostReads`) and its count of free values (`frees`) stay too is the model's choice (log 5), and what
becomes of the inputs and of the device's answers, the model's choice as well, is not stated. -/
def Obligations.ResetEventRestoresAllButHostMemory : Prop :=
  ∀ (s : State) (rest : List Arrival), s.inbox = ⟨0, .reset⟩ :: rest →
    ∃ t, step s = .next t ∧
      { t with inbox := [], dev := [], draws := 0 } =
        { State.reset with hmem := s.hmem, frees := s.frees, hostReads := s.hostReads }

/-- A step runs the decoded command: when the host's next access writes a command word to CMD and no command
executes, the step is the meaning of the command, at the state in which that access is no longer
waiting. `withFetchWord` puts such an access first. -/
def Obligations.StepRunsTheSubmittedCommand : Prop :=
  (∀ (s : State) (w : Word) (i : Instr) (rest : List Arrival),
    s.inbox = ⟨0, .write 32 0x00#8 w⟩ :: rest → s.busy = false → decode w = some i →
      step s = exec i { s with inbox := rest }) ∧
  (∀ (s : State) (w : Word) (i : Instr), s.busy = false → decode w = some i →
      step (s.withFetchWord 32 w.toNat) = exec i s)

/-- R231 and 93_implementation_defined.md: no state and no input stops the machine; violations are recorded, and a
hang leaves a state in which nothing moves. That the machine then goes on stepping is the model's reading
(log 13). -/
def Obligations.EveryStepAnswersANextState : Prop :=
  ∀ s : State, ∃ t, step s = .next t

/-- R61, R62: an input that changes nothing in LM92TC may land between any two steps of an executing command,
also right after its acceptance, and the command goes on as if nothing had landed. The input is a read of
CMD (R21, R53), or a moment for the pending stop at which no stop is pending (R119); `x` is the input after
it. That an input says after how many engine steps it lands is the model's form (log 2). -/
def Obligations.InputWithoutEffectMayLandAnywhere : Prop :=
  let readsCmd (s : State) : State := { s with hostReads := s.hostReads ++ [⟨0x00#8, 0#32⟩] }
  (∀ (s : State) (i : Instr) (m n : Nat) (x : Input) (rest : List Arrival), s.busy = false →
    s.unitReady i = true → phaseTable s.phase i ≠ none → i ≠ .busStop → 0 < n →
    s.inbox = ⟨m, .read 32 0x00#8⟩ :: ⟨n, x⟩ :: rest →
    ∃ t t', exec i s = .next t ∧ exec i { s with inbox := ⟨m + n, x⟩ :: rest } = .next t' ∧
      Sys2Proof.core.run 2 t = .next (readsCmd t')) ∧
  (∀ (s : State) (m n : Nat) (x : Input) (rest : List Arrival), s.busy = true → 0 < m → 0 < n →
    (s.inbox = ⟨m, .read 32 0x00#8⟩ :: ⟨n, x⟩ :: rest →
      ∃ t', step { s with inbox := ⟨m + n, x⟩ :: rest } = .next t' ∧
        Sys2Proof.core.run 3 s = .next (readsCmd t')) ∧
    (s.inbox = ⟨m, .stopStep⟩ :: ⟨n, x⟩ :: rest → (∀ t, step s = .next t → t.stopPending = false) →
      Sys2Proof.core.run 3 s = step { s with inbox := ⟨m + n, x⟩ :: rest }))

/-! ## Encoding -/

/-- R85, with the rows of R83 and the operand fields of R81 written out. -/
def Obligations.DecodeFollowsTheOpcodeMap : Prop :=
  ∀ w : Word, decode w =
    if w &&& 0xFFFFFFFF#32 = 0x10000000#32 then some .busInit
    else if w &&& 0xFFFFFFFF#32 = 0x11000000#32 then some .busStart
    else if w &&& 0xFFFFFFFF#32 = 0x12000000#32 then some .busStop
    else if w &&& 0xFFFFFF00#32 = 0x13000000#32 then some (.busSend (w.extractLsb' 0 8))
    else if w &&& 0xFFFFFFFF#32 = 0x14000000#32 then some .busReadAck
    else if w &&& 0xFFFFFFFF#32 = 0x15000000#32 then some .busReadNack
    else if w &&& 0xFFFFFFFF#32 = 0x20000000#32 then some .dispInit
    else if w &&& 0xFFFFFF00#32 = 0x21000000#32 then some (.dispCmd (w.extractLsb' 0 8))
    else if w &&& 0xFFFFFF00#32 = 0x22000000#32 then some (.dispChar (w.extractLsb' 0 8))
    else if w &&& 0xFFFFFFFF#32 = 0x23000000#32 then some .dispClear
    else if w &&& 0xFFFFFFFF#32 = 0x24000000#32 then some .dispHome
    else if w &&& 0xFFFF0000#32 = 0x25000000#32 then
      some (.dispGoto (w.extractLsb' 0 8) (w.extractLsb' 8 8))
    else if w &&& 0xFFFF0000#32 = 0x30000000#32 then some (.dispText (w.extractLsb' 0 16))
    else if w &&& 0xFF000000#32 = 0x31000000#32 then some (.dispHex (w.extractLsb' 0 24))
    else if w &&& 0xFF000000#32 = 0x32000000#32 then some (.dispInt (w.extractLsb' 0 24))
    else if w &&& 0xFFFFFFFF#32 = 0x40000000#32 then some .tempRead
    else none

/-- R83: a word encodes a mnemonic exactly when it matches the mnemonic's row, and no two rows match one
word. -/
def Obligations.OneRowPerCommandWord : Prop :=
  (∀ (w : Word) (r : Row), r ∈ opcodeMap →
    ((decode w).map Instr.mnemonic = some r.mnemonic ↔ w &&& r.mask = r.value)) ∧
  (∀ (w : Word) (r q : Row), r ∈ opcodeMap → q ∈ opcodeMap →
    w &&& r.mask = r.value → w &&& q.mask = q.value → r.mnemonic = q.mnemonic)

/-- Decode and encode agree, for every command with every operand. -/
def Obligations.DecodeOfEncodeIsTheCommand : Prop :=
  ∀ i : Instr, decode (encode i) = some i

/-- A word that decodes is the word of the command it decodes to: no bit of it is dropped. -/
def Obligations.EncodeOfDecodeIsTheWord : Prop :=
  ∀ (w : Word) (i : Instr), decode w = some i → encode i = w

/-- A few words of 95_test_vectors.md section 2 decode to the commands they stand for. -/
def Obligations.WrittenOutWordsDecode : Prop :=
  decode 0x13000090#32 = some (.busSend 0x90#8) ∧ decode 0x25000205#32 = some (.dispGoto 5#8 2#8) ∧
  decode 0x3000FFFF#32 = some (.dispText 0xFFFF#16) ∧ decode 0x31FFFFFF#32 = some (.dispHex 0xFFFFFF#24) ∧
  decode 0x32800000#32 = some (.dispInt 0x800000#24) ∧ intOperand 0x800000#24 = -8388608 ∧
  decode 0x40000000#32 = some .tempRead ∧ decode 0x40800000#32 = none ∧ decode 0x16000000#32 = none

/-- R88: a command line assembles to `Write32(0x00, w)` exactly when its operands are in range, and `w` then
decodes to a command with those operands. -/
def Obligations.AssembledLinesCarryTheirOperands : Prop :=
  (∀ b : Int,
    (0 ≤ b ∧ b ≤ 255 →
      ∃ x : Byte, (x.toNat : Int) = b ∧
        assembleLine (.busSend b) = some (.write 32 0x00#8 (encode (.busSend x))) ∧
        assembleLine (.lcdCmd b) = some (.write 32 0x00#8 (encode (.dispCmd x))) ∧
        assembleLine (.lcdChar b) = some (.write 32 0x00#8 (encode (.dispChar x)))) ∧
    (¬(0 ≤ b ∧ b ≤ 255) →
      assembleLine (.busSend b) = none ∧ assembleLine (.lcdCmd b) = none ∧
        assembleLine (.lcdChar b) = none)) ∧
  (∀ c r : Int,
    (0 ≤ c ∧ c ≤ 255 ∧ 0 ≤ r ∧ r ≤ 255 →
      ∃ x y : Byte, (x.toNat : Int) = c ∧ (y.toNat : Int) = r ∧
        assembleLine (.lcdGoto c r) = some (.write 32 0x00#8 (encode (.dispGoto x y)))) ∧
    (¬(0 ≤ c ∧ c ≤ 255 ∧ 0 ≤ r ∧ r ≤ 255) → assembleLine (.lcdGoto c r) = none)) ∧
  (∀ a : Int,
    (0 ≤ a ∧ a ≤ 0xFFFF →
      ∃ x : HAddr, (x.toNat : Int) = a ∧
        assembleLine (.lcdText a) = some (.write 32 0x00#8 (encode (.dispText x)))) ∧
    (¬(0 ≤ a ∧ a ≤ 0xFFFF) → assembleLine (.lcdText a) = none)) ∧
  (∀ v : Int,
    (0 ≤ v ∧ v ≤ 0xFFFFFF →
      ∃ x : BitVec 24, (hexOperand x : Int) = v ∧
        assembleLine (.lcdHex v) = some (.write 32 0x00#8 (encode (.dispHex x)))) ∧
    (¬(0 ≤ v ∧ v ≤ 0xFFFFFF) → assembleLine (.lcdHex v) = none)) ∧
  (∀ v : Int,
    (-8388608 ≤ v ∧ v ≤ 8388607 →
      ∃ x : BitVec 24, intOperand x = v ∧
        assembleLine (.lcdInt v) = some (.write 32 0x00#8 (encode (.dispInt x)))) ∧
    (¬(-8388608 ≤ v ∧ v ≤ 8388607) → assembleLine (.lcdInt v) = none))

/-! ## Acceptance and violations -/

/-- R222: the checks of a write to CMD in their order, with R103's SEQ cells written out; a refused write changes
VIOL only, and that only where it is 0 (R220). -/
def Obligations.CommandAcceptanceChecksInOrder : Prop :=
  ∀ (s : State) (w : Word) (rest : List Arrival), s.inbox = ⟨0, .write 32 0x00#8 w⟩ :: rest →
    let refuse (v : Viol) : Outcome :=
      .next { s with inbox := rest, viol := if s.viol = .none then v else s.viol }
    (s.busy = true → step s = refuse .overrun) ∧
    (s.busy = false → decode w = none → step s = refuse .illegalCmd) ∧
    (∀ i, s.busy = false → decode w = some i →
      let notInit : Prop :=
        (i.unit ≠ .lcd ∧ i ≠ .busInit ∧ s.busInit = false) ∨
          (i.unit = .lcd ∧ i ≠ .dispInit ∧ s.dispInit = false)
      let outOfSequence : Prop :=
        (i = .busInit ∧ s.phase ≠ .idle) ∨ (i = .tempRead ∧ s.phase ≠ .idle) ∨
          (i = .busStart ∧ s.phase = .rx) ∨
          ((∃ b, i = .busSend b) ∧ s.phase ≠ .addr ∧ s.phase ≠ .tx) ∨
          (i = .busReadAck ∧ s.phase ≠ .rx) ∨ (i = .busReadNack ∧ s.phase ≠ .rx) ∨
          (i = .busStop ∧ (s.phase = .idle ∨ s.phase = .rx))
      (notInit → step s = refuse .notInit) ∧
      (¬notInit → outOfSequence → step s = refuse .sequence) ∧
      (¬notInit → ¬outOfSequence →
        step s = exec i { s with inbox := rest } ∧
          ∃ t, step s = .next t ∧ t.viol = s.viol))

/-- R52, R53: an access of another width, at an offset that is no multiple of 4, or at an unmapped offset, and a
write to STATUS, RXDATA or TEMP, changes VIOL only; a refused read returns 0. That this is so too for such a
write at CMD or CFG while BUSY = 1, which R54 could give OVERRUN, is the model's choice (log 18). -/
def Obligations.IllegalAccessesOnlyMarkViol : Prop :=
  ∀ (s : State) (rest : List Arrival) (width : Nat) (off : Byte),
    (width ≠ 32 ∨ off.toNat % 4 ≠ 0 ∨ 0x14 ≤ off.toNat →
      s.inbox = ⟨0, .read width off⟩ :: rest →
      step s = .next
        { s with
          inbox := rest
          viol := if s.viol = .none then .illegalAccess else s.viol
          hostReads := s.hostReads ++ [⟨off, 0#32⟩] }) ∧
    (width ≠ 32 ∨ off.toNat % 4 ≠ 0 ∨ 0x14 ≤ off.toNat ∨
        off = 0x04#8 ∨ off = 0x08#8 ∨ off = 0x0C#8 →
      ∀ w, s.inbox = ⟨0, .write width off w⟩ :: rest →
      step s = .next
        { s with
          inbox := rest
          viol := if s.viol = .none then .illegalAccess else s.viol })

/-- R54, R33: a write to CFG while a command executes is refused with OVERRUN; else it sets the four fields. -/
def Obligations.CfgWriteSetsFieldsUnlessBusy : Prop :=
  ∀ (s : State) (rest : List Arrival) (w : Word), s.inbox = ⟨0, .write 32 0x10#8 w⟩ :: rest →
    step s = .next (
      if s.busy = true then
        { s with inbox := rest, viol := if s.viol = .none then .overrun else s.viol }
      else
        { s with
          inbox := rest
          cfgDiv := w.extractLsb' 0 8
          cfgSaddr := w.extractLsb' 8 7
          cfgSreg := w.extractLsb' 16 8
          cfgTimeout := w.extractLsb' 24 8 })

/-- R29, R220: once set, VIOL keeps its code until reset. -/
def Obligations.ViolIsStickyUntilReset : Prop :=
  ∀ s t : State, step s = .next t → s.viol ≠ .none →
    (∀ rest, s.inbox ≠ ⟨0, .reset⟩ :: rest) → t.viol = s.viol

/-! ## Reading the registers -/

/-- R22, R31, R32, R33: what the registers read as while no command executes, bit by bit, with the numbers of the
phases (R27), the result codes (R225) and the violation codes (R221). -/
def Obligations.IdleReadsShowTheExactState : Prop :=
  (Phase.code .idle = 0 ∧ Phase.code .addr = 1 ∧ Phase.code .tx = 2 ∧ Phase.code .rx = 3 ∧
    Phase.code .rxEnd = 4) ∧
  (Result.code .ok = 0 ∧ Result.code .busNack = 1 ∧ Result.code .busTimeout = 2 ∧
    Result.code .dispRange = 3 ∧ Result.code .fmtOverflow = 4) ∧
  (Viol.code .none = 0 ∧ Viol.code .overrun = 1 ∧ Viol.code .illegalCmd = 2 ∧
    Viol.code .illegalAccess = 3 ∧ Viol.code .notInit = 4 ∧ Viol.code .sequence = 5) ∧
  ∀ s : State, s.busy = false →
    (s.readValue .cmd = 0#32) ∧
    (let w := s.readValue .status
     w.getLsbD 0 = false ∧ w.getLsbD 1 = s.done ∧ w.getLsbD 2 = s.ack ∧ w.getLsbD 3 = s.busInit ∧
     w.getLsbD 4 = s.stopPending ∧ w.extractLsb' 5 3 = s.phase.code ∧ w.getLsbD 8 = s.dispInit ∧
     w.getLsbD 9 = s.rs ∧ w.getLsbD 10 = s.tempValid ∧ w.getLsbD 11 = false ∧
     w.extractLsb' 12 4 = s.err.code ∧ w.extractLsb' 16 4 = s.viol.code ∧ w.extractLsb' 20 12 = 0#12) ∧
    (let w := s.readValue .rxdata
     w.extractLsb' 0 8 = s.rxdata ∧ w.extractLsb' 8 24 = 0#24) ∧
    (let w := s.readValue .temp
     w.extractLsb' 0 16 = s.tempRaw ∧ w.extractLsb' 16 13 = s.tempRaw.extractLsb' 3 13 ∧
       w.extractLsb' 29 3 = 0#3) ∧
    (let w := s.readValue .cfg
     w.extractLsb' 0 8 = s.cfgDiv ∧ w.extractLsb' 8 7 = s.cfgSaddr ∧ w.getLsbD 15 = false ∧
       w.extractLsb' 16 8 = s.cfgSreg ∧ w.extractLsb' 24 8 = s.cfgTimeout)

/-- R21, R53, R55: a read of CMD at any time, and a read of any mapped register while no command executes, has no
side effect on LM92TC; the host gets 0 from CMD and the register's value from the others. -/
def Obligations.CmdAndIdleReadsHaveNoSideEffect : Prop :=
  (∀ (s : State) (rest : List Arrival), s.inbox = ⟨0, .read 32 0x00#8⟩ :: rest →
    step s = .next { s with inbox := rest, hostReads := s.hostReads ++ [⟨0x00#8, 0#32⟩] }) ∧
  (∀ (s : State) (rest : List Arrival) (r : Reg), s.busy = false →
    s.inbox = ⟨0, .read 32 (regOffset r)⟩ :: rest →
    step s = .next
      { s with
        inbox := rest
        hostReads := s.hostReads ++ [⟨regOffset r, s.readValue r⟩] })

/-- R30, R55, R260: while a command executes a read of STATUS, RXDATA, TEMP or CFG changes nothing in LM92TC, only
the host's record and the model's count of free values. A read of STATUS shows BUSY = 1, the exact VIOL and
the reserved bits 0, in every state and so for every value the other fields may read as. The number of each
violation code stands in `Obligations.IdleReadsShowTheExactState`. -/
def Obligations.BusyReadsChangeNothingAndShowBusyAndViol : Prop :=
  ∀ (s : State) (rest : List Arrival) (off : Byte), s.busy = true →
    (off = 0x04#8 ∨ off = 0x08#8 ∨ off = 0x0C#8 ∨ off = 0x10#8) → s.inbox = ⟨0, .read 32 off⟩ :: rest →
    ∃ w : Word, step s = .next
        { s with inbox := rest, frees := s.frees + 1, hostReads := s.hostReads ++ [⟨off, w⟩] } ∧
      (off = 0x04#8 → w.getLsbD 0 = true ∧ w.extractLsb' 16 4 = s.viol.code ∧ w.getLsbD 11 = false ∧
        w.extractLsb' 20 12 = 0#12)

/-- R33: a read of CFG returns the word last written, with bit 15 read as 0. -/
def Obligations.CfgReadsBackWithReservedBitClear : Prop :=
  ∀ (s : State) (w : Word), s.busy = false →
    (s.withCfg w).readValue .cfg = w &&& 0xFFFF7FFF#32

/-- R95: `wait` ends at the first read of STATUS with BUSY = 0 and polls again otherwise. -/
def Obligations.WaitPollsUntilNotBusy : Prop :=
  ∀ (s : State) (rest : List Arrival), s.inbox = ⟨0, .wait⟩ :: rest →
    (s.busy = false →
      step s = .next
        { s with
          inbox := rest
          hostReads := s.hostReads ++ [⟨0x04#8, s.statusWord⟩] }) ∧
    (s.busy = true → ∃ t n v, step s = .next t ∧ t.inbox = ⟨n, .wait⟩ :: rest ∧ t.busy = true ∧
      t.hostReads = s.hostReads ++ [⟨0x04#8, v⟩] ∧ v.getLsbD 0 = true)

/-! ## The TWI unit -/

/-- R110: BUS_INIT with no stop pending. -/
def Obligations.BusInitEnablesTheBus : Prop :=
  ∀ s : State, s.busy = false → s.phase = .idle → s.stopPending = false → 3 ≤ s.room →
    exec .busInit s = .next
      { s.inputDue with
        done := false, pullup := true, divActive := s.cfgDiv, busInit := true, phase := .idle,
        err := .ok, cmd := none, useq := none }

/-- R111, R112: BUS_START with no stop pending, in every phase that admits it; a start inside a transaction is a
repeated start with no stop before it. -/
def Obligations.BusStartIssuesAStart : Prop :=
  ∀ s : State, s.busy = false → s.busInit = true → s.phase ≠ .rx → s.stopPending = false →
    s.answers 0 → 3 ≤ s.room →
    exec .busStart s = .next
      { s.inputDue with
        btrace := s.btrace ++ [.start (decide (s.phase ≠ .idle))],
        phase := .addr, done := true, err := .ok, cmd := none, useq := none,
        dev := s.dev.tail, draws := s.draws + 1 }

/-- R113: BUS_STOP finishes at acceptance, with the stop pending and no event appended. -/
def Obligations.BusStopReturnsAtOnce : Prop :=
  ∀ s : State, s.busy = false → s.busInit = true →
    (s.phase = .addr ∨ s.phase = .tx ∨ s.phase = .rxEnd) →
    exec .busStop s = .next
      { s with
        done := false, phase := .idle, stopPending := true, err := .ok, cmd := none, useq := none }

/-- R114, R118: BUS_SEND with no stop pending, acknowledged or not. -/
def Obligations.BusSendTransmitsOneByte : Prop :=
  ∀ (s : State) (b : Byte), s.busy = false → s.busInit = true → (s.phase = .addr ∨ s.phase = .tx) →
    s.stopPending = false → s.answers 0 → 5 ≤ s.room →
    exec (.busSend b) s = .next
      { s.inputDue with
        btrace := s.btrace ++ [.tx b (s.drawAt 0).ack],
        txd := b, ack := (s.drawAt 0).ack, done := true,
        phase := if s.phase = .addr then (if b.getLsbD 0 = false then .tx else .rx) else s.phase,
        err := if (s.drawAt 0).ack = true then .ok else .busNack,
        cmd := none, useq := none, dev := s.dev.tail, draws := s.draws + 1 }

/-- R116: BUS_READ_ACK with no stop pending. -/
def Obligations.BusReadAckReceivesAndGoesOn : Prop :=
  ∀ s : State, s.busy = false → s.busInit = true → s.phase = .rx →
    s.stopPending = false → s.answers 0 → 3 ≤ s.room →
    exec .busReadAck s = .next
      { s.inputDue with
        btrace := s.btrace ++ [.rx (s.drawAt 0).data true],
        rxdata := (s.drawAt 0).data, done := true, err := .ok, cmd := none, useq := none,
        dev := s.dev.tail, draws := s.draws + 1 }

/-- R117: BUS_READ_NACK with no stop pending. -/
def Obligations.BusReadNackReceivesAndEnds : Prop :=
  ∀ s : State, s.busy = false → s.busInit = true → s.phase = .rx →
    s.stopPending = false → s.answers 0 → 4 ≤ s.room →
    exec .busReadNack s = .next
      { s.inputDue with
        btrace := s.btrace ++ [.rx (s.drawAt 0).data false],
        rxdata := (s.drawAt 0).data, done := true, phase := .rxEnd, err := .ok,
        cmd := none, useq := none, dev := s.dev.tail, draws := s.draws + 1 }

/-- R104: every TWI command except BUS_STOP, and TEMP_READ, performs a pending stop first and then does what it
does with none pending. -/
def Obligations.PendingStopIsPerformedFirst : Prop :=
  ∀ (s : State) (i : Instr), i.unit ≠ .lcd → i ≠ .busStop →
    s.busy = false → s.unitReady i = true → phaseTable s.phase i ≠ none → s.stopPending = true →
    s.answers 0 → 1 ≤ s.room →
    exec i s =
      exec i
        { s with
          btrace := s.btrace ++ [.stop], stopPending := false,
          dev := s.dev.tail, draws := s.draws + 1 }

/-- R119: the step that performs a pending stop, whether or not a command is executing; on a hang, or with no stop
pending, it is not enabled. When it is taken is the model's reading (log 11): where an entry of the inputs says
so, and with no input waiting, before anything else. With no command executing either, nothing else moves;
and while an input has yet to land, a stop pending stays so. -/
def Obligations.StopStepPerformsThePendingStop : Prop :=
  let performed (s : State) (rest : List Arrival) : State :=
    { s with
      inbox := rest, btrace := s.btrace ++ [.stop], stopPending := false,
      dev := s.dev.tail, draws := s.draws + 1 }
  ∀ s : State,
    (∀ rest, s.inbox = ⟨0, .stopStep⟩ :: rest →
      (s.stopPending = true → (s.drawAt 0).hang = false → step s = .next (performed s rest)) ∧
      (s.stopPending = false ∨ (s.drawAt 0).hang = true → step s = .next { s with inbox := rest })) ∧
    (s.inbox = [] →
      (s.stopPending = true → (s.drawAt 0).hang = false → step s = .next (performed s [])) ∧
      (s.useq = none → s.stopPending = false ∨ (s.drawAt 0).hang = true → step s = .next s)) ∧
    (∀ n x rest, s.inbox = ⟨n + 1, x⟩ :: rest → s.useq = none →
      step s = .next { s with inbox := ⟨0, x⟩ :: rest })

/-- R228: the timeout step of every bus wait. -/
def Obligations.TimeoutAbandonsTheCommand : Prop :=
  ∀ (s : State) (u : Useq) (m : Micro) (rest : List Micro),
    s.useq = some u → u.timer = none → u.todo = m :: rest → m.asksDevice s.stopPending = true →
    s.cfgTimeout ≠ 0#8 → ((s.drawAt 0).hang = true ∨ (s.drawAt 0).early = true) →
    s.engineStep = some
      { s with
        btrace := s.btrace ++ [.timeout],
        busInit := false, phase := .idle, stopPending := false, done := false,
        tempValid := if s.cmd = some 0x40000000#32 then false else s.tempValid,
        err := .busTimeout, cmd := none, useq := none, busy := false,
        dev := s.dev.tail, draws := s.draws + 1 }

/-- R101: where the device hangs and CFG.TIMEOUT = 0, the engine is stuck: whatever the host does but reset, BUSY
stays 1, the device is still waited for, and nothing more appears on the bus. -/
def Obligations.HangWithoutTimeoutIsPermanent : Prop :=
  let held (s : State) : Prop :=
    s.busy = true ∧ s.cfgTimeout = 0#8 ∧ (s.drawAt 0).hang = true ∧
      ∃ u m rest, s.useq = some u ∧ u.timer = none ∧ u.todo = m :: rest ∧
        m.asksDevice s.stopPending = true
  ∀ s t : State, held s → step s = .next t → (∀ rest, s.inbox ≠ ⟨0, .reset⟩ :: rest) →
    held t ∧ t.btrace = s.btrace ∧ t.dtrace = s.dtrace

/-- R103: the phase table, its cells written out. A SEQ cell refuses the command; otherwise the phase after the
command has completed, unless by a timeout, is the cell's. Display commands do not change PHASE. -/
def Obligations.CommandsFollowThePhaseTable : Prop :=
  let cell (p : Phase) (i : Instr) : Option Phase :=
    match p, i with
    | .idle, .busInit => some .idle
    | .idle, .busStart => some .addr
    | .idle, .tempRead => some .idle
    | .addr, .busStart => some .addr
    | .addr, .busSend b => if b.getLsbD 0 = false then some .tx else some .rx
    | .addr, .busStop => some .idle
    | .tx, .busStart => some .addr
    | .tx, .busSend _ => some .tx
    | .tx, .busStop => some .idle
    | .rx, .busReadAck => some .rx
    | .rx, .busReadNack => some .rxEnd
    | .rxEnd, .busStart => some .addr
    | .rxEnd, .busStop => some .idle
    | _, _ => none
  ∀ (s t : State) (i : Instr), s.busy = false → exec i s = .next t →
    (i.unit = .lcd → t.phase = s.phase) ∧
    (i.unit ≠ .lcd → (i = .busInit ∨ s.busInit = true) → cell s.phase i = none →
      t = { s with viol := if s.viol = .none then .sequence else s.viol }) ∧
    (∀ p, i.unit ≠ .lcd → (i = .busInit ∨ s.busInit = true) → cell s.phase i = some p →
      t.busy = false → t.err ≠ .busTimeout → t.phase = p)

/-! ## The LCD unit -/

/-- R150: DISP_INIT appends exactly the seventeen events of the power-on sequence. -/
def Obligations.DispInitRunsThePowerOnSequence : Prop :=
  ∀ s : State, s.busy = false → 37 ≤ s.room →
    exec .dispInit s = .next
      { s.inputDue with
        driven := true, e := false, rs := false, d := 0x1#4,
        dtrace := s.dtrace ++
          [.wait 15000, .nib false 0x3#4, .wait 5000, .nib false 0x3#4, .wait 150, .nib false 0x3#4,
           .wait 50, .nib false 0x2#4, .nib false 0x2#4, .nib false 0x8#4, .nib false 0x0#4,
           .nib false 0xE#4, .nib false 0x0#4, .nib false 0x6#4, .nib false 0x0#4, .nib false 0x1#4,
           .wait 3000],
        dispInit := true, err := .ok, cmd := none, useq := none }

/-- R151, R152, R143: DISP_CMD and DISP_CHAR send their byte, high nibble first, and add no wait. -/
def Obligations.RawBytesAreSentAsTwoNibbles : Prop :=
  ∀ (s : State) (b : Byte), s.busy = false → s.dispInit = true → 5 ≤ s.room →
    (exec (.dispCmd b) s = .next
      { s.inputDue with
        dtrace := s.dtrace ++ [.nib false (b.extractLsb' 4 4), .nib false (b.extractLsb' 0 4)],
        rs := false, d := b.extractLsb' 0 4, e := false, err := .ok, cmd := none, useq := none }) ∧
    (exec (.dispChar b) s = .next
      { s.inputDue with
        dtrace := s.dtrace ++ [.nib true (b.extractLsb' 4 4), .nib true (b.extractLsb' 0 4)],
        rs := true, d := b.extractLsb' 0 4, e := false, err := .ok, cmd := none, useq := none })

/-- R153, R154: DISP_CLEAR waits after its byte, DISP_HOME does not. -/
def Obligations.ClearWaitsAndHomeDoesNot : Prop :=
  ∀ s : State, s.busy = false → s.dispInit = true → 7 ≤ s.room →
    (exec .dispClear s = .next
      { s.inputDue with
        dtrace := s.dtrace ++ [.nib false 0x0#4, .nib false 0x1#4, .wait 3000],
        rs := false, d := 0x1#4, e := false, err := .ok, cmd := none, useq := none }) ∧
    (exec .dispHome s = .next
      { s.inputDue with
        dtrace := s.dtrace ++ [.nib false 0x0#4, .nib false 0x2#4],
        rs := false, d := 0x2#4, e := false, err := .ok, cmd := none, useq := none })

/-- R155: DISP_GOTO sends the set-cursor byte of a position on the display and nothing for one off it. -/
def Obligations.GotoSetsTheCursorOrReportsRange : Prop :=
  ∀ (s : State) (col row : Byte), s.busy = false → s.dispInit = true → 5 ≤ s.room →
    exec (.dispGoto col row) s = .next (
      if 3 < row.toNat ∨ 20 ≤ col.toNat then
        { s.inputDue with err := .dispRange, cmd := none, useq := none }
      else
        let base : Byte :=
          if row = 0#8 then 0x00#8 else if row = 1#8 then 0x40#8 else if row = 2#8 then 0x14#8 else 0x54#8
        let x : Byte := 0x80#8 ||| (base + col)
        { s.inputDue with
          dtrace := s.dtrace ++ [.nib false (x.extractLsb' 4 4), .nib false (x.extractLsb' 0 4)],
          rs := false, d := x.extractLsb' 0 4, e := false, err := .ok, cmd := none, useq := none })

/-- R156, R59: the cursor addresses of the 80 positions are `ROW_BASE[row] + col`. That they are at most 0x67 is the
spec's own inference (R155, R156), and that they are all different follows from the formula and stands in
no sentence of the rules. -/
def Obligations.CursorAddressesCoverTheRows : Prop :=
  (∀ col row : Byte, row.toNat ≤ 3 → col.toNat < 20 →
    (rowAddr col row).toNat = [0x00, 0x40, 0x14, 0x54].getD row.toNat 0 + col.toNat ∧
      (rowAddr col row).toNat ≤ 0x67) ∧
  (∀ c r c' r' : Byte, r.toNat ≤ 3 → c.toNat < 20 → r'.toNat ≤ 3 → c'.toNat < 20 →
    rowAddr c r = rowAddr c' r' → c = c' ∧ r = r')

/-! ## Text and numbers -/

/-- R180: DISP_TEXT sends the characters before the first 0x00, wherever the string lies, also across the top of
HMEM. -/
def Obligations.TextSendsTheStringUpToItsTerminator : Prop :=
  ∀ (s : State) (addr : HAddr) (cs : List Byte), s.busy = false → s.dispInit = true →
    (∀ c ∈ cs, c ≠ 0#8) →
    (∀ k (h : k < cs.length), s.hmem.read (addr + BitVec.ofNat 16 k) = cs[k]) →
    s.hmem.read (addr + BitVec.ofNat 16 cs.length) = 0#8 →
    5 * cs.length + 1 ≤ s.room →
    exec (.dispText addr) s = .next
      { s.inputDue with
        dtrace := s.dtrace ++
          cs.flatMap (fun c => [.nib true (c.extractLsb' 4 4), .nib true (c.extractLsb' 0 4)]),
        rs := if cs = [] then s.rs else true,
        d := match cs.getLast? with
          | some c => c.extractLsb' 0 4
          | none => s.d,
        e := if cs = [] then s.e else false,
        err := .ok, cmd := none, useq := none }

/-- R180: a string with no 0x00 byte in all of HMEM is sent for ever: the command never finishes, and the events it
appends, without end, are the nibbles of the bytes of HMEM from `addr` on, in order, addresses modulo 2^16.
That `n` steps of the machine give at least `n` events rests on how many engine steps the model takes in
one (log 2). -/
def Obligations.EndlessTextNeverFinishes : Prop :=
  ∀ (s t : State) (addr : HAddr), s.busy = false → s.dispInit = true → s.inbox = [] →
    (∀ a : HAddr, s.hmem.read a ≠ 0#8) → exec (.dispText addr) s = .next t →
    let sent (m : Nat) : List DispEvent :=
      (List.range m).flatMap (fun j =>
        let c := s.hmem.read (addr + BitVec.ofNat 16 j)
        [.nib true (c.extractLsb' 4 4), .nib true (c.extractLsb' 0 4)])
    ∀ n : Nat, ∃ t', Sys2Proof.core.run n t = .next t' ∧ State.busy t' = true ∧
      ∃ m k, n ≤ k ∧ k ≤ 2 * m ∧ State.dtrace t' = s.dtrace ++ (sent m).take k

/-- R65: the byte DISP_TEXT reads where the host has written meanwhile is the one there now or one the host has
overwritten; where the host has not written there, it is the one there. The list of overwritten bytes
(log 7) is empty at acceptance, gains at each host write of HMEM while DISP_TEXT executes that address with
the byte that stood there, and is changed by no other step. -/
def Obligations.RacingTextReadGivesOldOrNewByte : Prop :=
  (∀ (s : State) (u : Useq) (a : HAddr) (rest : List Micro),
    s.useq = some u → u.timer = none → u.todo = .text a :: rest →
    ∃ c : Byte, (c = s.hmem.read a ∨ (a.toNat, c) ∈ u.stale) ∧
      ((∀ x : Byte, (a.toNat, x) ∉ u.stale) → c = s.hmem.read a) ∧
      ∃ t, s.engineStep = some t ∧ t.hmem = s.hmem ∧
        (c = 0#8 → t.busy = false ∧ t.err = .ok ∧ t.dtrace = s.dtrace) ∧
        (c ≠ 0#8 →
          t.useq = some
            { u with
              todo := [.nibRise true (c.extractLsb' 4 4), .nibFall, .nibRise true (c.extractLsb' 0 4),
                .nibFall, .text (a + 1)] ++ rest })) ∧
  (∀ (s t : State) (addr : HAddr) (u : Useq), s.busy = false → s.dispInit = true →
    exec (.dispText addr) s = .next t → t.useq = some u → u.stale = []) ∧
  (∀ (s : State) (u : Useq) (addr a : HAddr) (b : Byte) (rest : List Arrival),
    s.cmd = some (encode (.dispText addr)) → s.useq = some u → s.inbox = ⟨0, .poke a b⟩ :: rest →
    step s = .next
      { s with
        inbox := rest, hmem := s.hmem.write a b,
        useq := some { u with stale := (a.toNat, s.hmem.read a) :: u.stale } }) ∧
  (∀ (s t : State) (u' : Useq), step s = .next t →
    ((∀ a b rest, s.inbox ≠ ⟨0, .poke a b⟩ :: rest) ∨ ∀ addr, s.cmd ≠ some (encode (.dispText addr))) →
    t.useq = some u' →
    (s.busy = false ∧ u'.stale = []) ∨ ∃ u, s.useq = some u ∧ u'.stale = u.stale)

/-- R181, R183: DISP_HEX sends `hexstr` of its unsigned operand. -/
def Obligations.HexOperandIsSentInBaseSixteen : Prop :=
  ∀ (s : State) (imm : BitVec 24), s.busy = false → s.dispInit = true → 25 ≤ s.room →
    ∃ (cs : List Byte) (last : Byte), cs = hexstr imm.toNat ∧ cs.getLast? = some last ∧
      exec (.dispHex imm) s = .next
        { s.inputDue with
          dtrace := s.dtrace ++
            cs.flatMap (fun c => [.nib true (c.extractLsb' 4 4), .nib true (c.extractLsb' 0 4)]),
          rs := true, d := last.extractLsb' 0 4, e := false, err := .ok, cmd := none, useq := none }

/-- R182, R185: DISP_INT sends `decstr` of its signed operand, or nothing and FMT_OVERFLOW from -1000000 down. -/
def Obligations.IntOperandIsSentInBaseTenOrRejected : Prop :=
  ∀ (s : State) (imm : BitVec 24), s.busy = false → s.dispInit = true → 29 ≤ s.room →
    (imm.toInt ≤ -1000000 →
      exec (.dispInt imm) s = .next
        { s.inputDue with err := .fmtOverflow, cmd := none, useq := none }) ∧
    (-1000000 < imm.toInt →
      ∃ (cs : List Byte) (last : Byte), cs = decstr imm.toInt ∧ cs.getLast? = some last ∧
        exec (.dispInt imm) s = .next
          { s.inputDue with
            dtrace := s.dtrace ++
              cs.flatMap (fun c => [.nib true (c.extractLsb' 4 4), .nib true (c.extractLsb' 0 4)]),
            rs := true, d := last.extractLsb' 0 4, e := false, err := .ok, cmd := none, useq := none })

/-- R183, R184: the characters of a number: no leading zero, only the digits of the base (lowercase in base 16),
a minus sign for a negative number and no plus sign. That there are at most six in base 16 is the spec's own
inference in R183. -/
def Obligations.NumberStringsAreInPlainForm : Prop :=
  (∀ v : Nat, v < 16777216 →
    (hexstr v).length ≤ 6 ∧ hexstr v ≠ [] ∧ (0 < v → (hexstr v).head? ≠ some 0x30#8) ∧
      (v = 0 → hexstr v = [0x30#8]) ∧
      ∀ c ∈ hexstr v, (0x30 ≤ c.toNat ∧ c.toNat ≤ 0x39) ∨ (0x61 ≤ c.toNat ∧ c.toNat ≤ 0x66)) ∧
  (∀ v : Int, -8388608 ≤ v → v < 8388608 →
    (v = 0 → decstr v = [0x30#8]) ∧
    (0 ≤ v → decstr v ≠ [] ∧ (0 < v → (decstr v).head? ≠ some 0x30#8) ∧
      ∀ c ∈ decstr v, 0x30 ≤ c.toNat ∧ c.toNat ≤ 0x39) ∧
    (v < 0 → decstr v = 0x2D#8 :: decstr (-v)))

/-- With the operands of DISP_INT the buffer overflows exactly from -1000000 down: the spec's own inference in R185,
from R184 and R86. -/
def Obligations.BufferOverflowsExactlyBelowTheBound : Prop :=
  ∀ v : Int, -8388608 ≤ v → v < 8388608 → (7 < (decstr v).length ↔ v ≤ -1000000)

/-- R183, R184, R185, and so R186, which is the spec's own inference from them: parsing the sent characters back in
the same base gives the operand. -/
def Obligations.FormattedNumbersParseBack : Prop :=
  (∀ imm : BitVec 24, parseHex (hexstr (hexOperand imm)) = some (hexOperand imm)) ∧
  (∀ imm : BitVec 24, -1000000 < intOperand imm →
    parseDec (decstr (intOperand imm)) = some (intOperand imm))

/-! ## The TRS unit -/

/-- R200, R201, R202: TEMP_READ with no stop pending, whatever the device acknowledges and sends. -/
def Obligations.TempReadRunsTheTransaction : Prop :=
  ∀ s : State, s.busy = false → s.busInit = true → s.phase = .idle → s.stopPending = false →
    (∀ k < 7, s.answers k) → 25 ≤ s.room →
    exec .tempRead s = .next
      { s.inputDue with
        btrace := s.btrace ++
          [.start false, .tx (s.cfgSaddr ++ 0#1) (s.drawAt 1).ack, .tx s.cfgSreg (s.drawAt 2).ack,
           .start true, .tx (s.cfgSaddr ++ 1#1) (s.drawAt 4).ack,
           .rx (s.drawAt 5).data true, .rx (s.drawAt 6).data false],
        done := false, ack := (s.drawAt 4).ack, txd := s.cfgSaddr ++ 1#1,
        phase := .idle, stopPending := true, rxdata := (s.drawAt 6).data,
        tempRaw := (s.drawAt 5).data ++ (s.drawAt 6).data,
        tempValid := (s.drawAt 1).ack && (s.drawAt 2).ack && (s.drawAt 4).ack,
        err := if (s.drawAt 1).ack && (s.drawAt 2).ack && (s.drawAt 4).ack then .ok else .busNack,
        cmd := none, useq := none, dev := s.dev.drop 7, draws := s.draws + 7 }

/-- The transaction of R92 written with the TWI commands and one TEMP_READ give the same bus trace for the same
answers of the device, acknowledged or not, with or without a stop pending before: the spec's own inference in
R92, from R111, R113, R114, R116, R117 and R201. -/
def Obligations.TransactionByHandEqualsTempRead : Prop :=
  let andThen (o : Outcome) (i : Instr) : Outcome :=
    match o with
    | .next s => exec i s
    | o => o
  ∀ s : State, s.busy = false → s.busInit = true → s.phase = .idle → s.inbox = [] →
    (∀ k < 8, s.answers k) →
    let byHand :=
      [.busStart, .busSend (s.cfgSaddr ++ 0#1), .busSend s.cfgSreg, .busStart,
        .busSend (s.cfgSaddr ++ 1#1), .busReadAck, .busReadNack, .busStop].foldl andThen (.next s)
    ∃ a b, byHand = .next a ∧ exec .tempRead s = .next b ∧ a.btrace = b.btrace ∧
      a.phase = b.phase ∧ a.stopPending = b.stopPending ∧ a.rxdata = b.rxdata ∧ a.dev = b.dev

/-- R203: the code is `W >> 3`, whatever the low three bits hold, and TEMP.CODE shows it. -/
def Obligations.TemperatureCodeDropsTheLowBits : Prop :=
  (∀ w : BitVec 16, (codeOf w).toNat = w.toNat / 8) ∧
  (∀ (t : BitVec 13) (low low' : BitVec 3), codeOf (t ++ low) = codeOf (t ++ low')) ∧
  (∀ s : State, s.busy = false → (s.readValue .temp).extractLsb' 16 13 = codeOf s.tempRaw)

/-- R204: both sign readings of the code, exactly, and their ranges. That they agree where `W[15] = 0` is the
spec's own inference in that rule. -/
def Obligations.CelsiusIsTheCodeOverSixteen : Prop :=
  (∀ w : BitVec 16, celsius false w = ((w >>> 3).toNat : ℚ) / 16) ∧
  (∀ w : BitVec 16, celsius true w =
    (if w.getLsbD 15 then ((w >>> 3).toNat : ℚ) - 8192 else ((w >>> 3).toNat : ℚ)) / 16) ∧
  (∀ w : BitVec 16, w.getLsbD 15 = false → celsius true w = celsius false w) ∧
  (∀ w : BitVec 16, 0 ≤ celsius false w ∧ celsius false w ≤ 8191 / 16 ∧
    -256 ≤ celsius true w ∧ celsius true w ≤ 4095 / 16)

/-- R205: the Fahrenheit value is the affine image of the Celsius value; two words give the same one exactly when
they give the same Celsius value. -/
def Obligations.FahrenheitIsAffineInCelsius : Prop :=
  (∀ (signed : Bool) (w : BitVec 16), fahrenheit signed w = celsius signed w * 9 / 5 + 32) ∧
  (∀ (signed : Bool) (v w : BitVec 16),
    fahrenheit signed v = fahrenheit signed w ↔ celsius signed v = celsius signed w)

/-! ## Frames and rules about every step -/

/-- R146: a display command, in every state and phase, completed or cut short, leaves the TWI unit's state and
TEMP alone; so does every step while it executes that is no reset, but for the pending stop, which may be
performed meanwhile (R119). -/
def Obligations.DisplayCommandsLeaveTheBusAlone : Prop :=
  let sameBus (s t : State) : Prop :=
    t.btrace = s.btrace ∧ t.done = s.done ∧ t.ack = s.ack ∧ t.busInit = s.busInit ∧
    t.stopPending = s.stopPending ∧ t.phase = s.phase ∧ t.rxdata = s.rxdata ∧ t.txd = s.txd ∧
    t.divActive = s.divActive ∧ t.pullup = s.pullup ∧ t.dev = s.dev ∧ t.draws = s.draws ∧
    t.tempRaw = s.tempRaw ∧ t.tempValid = s.tempValid
  (∀ (i : Instr) (s t : State), i.unit = .lcd → exec i s = .next t → sameBus s t) ∧
  (∀ (i : Instr) (w : Word) (s t : State), s.Inv → s.cmd = some w → decode w = some i → i.unit = .lcd →
    step s = .next t → (∀ rest, s.inbox ≠ ⟨0, .reset⟩ :: rest) →
    sameBus s t ∨
      (s.stopPending = true ∧ (s.drawAt 0).hang = false ∧
        sameBus
          { s with
            btrace := s.btrace ++ [.stop], stopPending := false,
            dev := s.dev.tail, draws := s.draws + 1 } t))

/-- D45: a TWI command or TEMP_READ, completed, timed out or cut short, leaves the LCD unit's state alone; so does
every step while it executes that is no reset. -/
def Obligations.BusCommandsLeaveTheDisplayAlone : Prop :=
  let sameDisplay (s t : State) : Prop :=
    t.dtrace = s.dtrace ∧ t.rs = s.rs ∧ t.d = s.d ∧ t.e = s.e ∧ t.driven = s.driven ∧
    t.dispInit = s.dispInit
  (∀ (i : Instr) (s t : State), i.unit ≠ .lcd → exec i s = .next t → sameDisplay s t) ∧
  (∀ (i : Instr) (w : Word) (s t : State), s.Inv → s.cmd = some w → decode w = some i → i.unit ≠ .lcd →
    step s = .next t → (∀ rest, s.inbox ≠ ⟨0, .reset⟩ :: rest) → sameDisplay s t)

/-- R32, R28: no command but TEMP_READ writes TEMP or TEMP_VALID; nor does any step, but a reset, in which
TEMP_READ neither executes nor is submitted. -/
def Obligations.OnlyTempReadWritesTemp : Prop :=
  (∀ (i : Instr) (s t : State), i ≠ .tempRead → exec i s = .next t →
    t.tempRaw = s.tempRaw ∧ t.tempValid = s.tempValid) ∧
  (∀ s t : State, s.Inv → s.cmd ≠ some 0x40000000#32 → step s = .next t →
    (s.busy = true ∨ ∀ rest, s.inbox ≠ ⟨0, .write 32 0x00#8 0x40000000#32⟩ :: rest) →
    (∀ rest, s.inbox ≠ ⟨0, .reset⟩ :: rest) →
    t.tempRaw = s.tempRaw ∧ t.tempValid = s.tempValid)

/-- R33, R56, R220: no command writes CFG, HMEM or the host's record, or changes VIOL unless it is refused. No step
but a write to CFG or a reset changes CFG; and where no input lands, a step leaves VIOL, HMEM and the
host's record too. -/
def Obligations.CommandsLeaveHostStateAlone : Prop :=
  let sameCfg (s t : State) : Prop :=
    t.cfgDiv = s.cfgDiv ∧ t.cfgSaddr = s.cfgSaddr ∧ t.cfgSreg = s.cfgSreg ∧ t.cfgTimeout = s.cfgTimeout
  (∀ (i : Instr) (s t : State), exec i s = .next t →
    sameCfg s t ∧ t.hmem = s.hmem ∧ t.hostReads = s.hostReads ∧
    (s.busy = false → s.unitReady i = true → phaseTable s.phase i ≠ none → t.viol = s.viol)) ∧
  (∀ s t : State, step s = .next t → (∀ rest, s.inbox ≠ ⟨0, .reset⟩ :: rest) →
    (∀ w rest, s.inbox ≠ ⟨0, .write 32 0x10#8 w⟩ :: rest) → sameCfg s t) ∧
  (∀ s t : State, step s = .next t → (s.inbox = [] ∨ ∃ n x rest, s.inbox = ⟨n + 1, x⟩ :: rest) →
    t.viol = s.viol ∧ t.hmem = s.hmem ∧ t.hostReads = s.hostReads)

/-- R56: LM92TC never writes HMEM. A step changes HMEM only where the host writes a byte, and then that byte
alone. -/
def Obligations.OnlyTheHostWritesHostMemory : Prop :=
  (∀ s t : State, step s = .next t → (∀ a b rest, s.inbox ≠ ⟨0, .poke a b⟩ :: rest) →
    t.hmem = s.hmem) ∧
  (∀ (s : State) (a : HAddr) (b : Byte) (rest : List Arrival), s.hmem.wf = true →
    s.inbox = ⟨0, .poke a b⟩ :: rest →
    ∃ t, step s = .next t ∧
      ∀ x : HAddr, t.hmem.read x = if x = a then b else s.hmem.read x)

/-- R37: the traces only grow, except at reset. -/
def Obligations.TracesOnlyGrow : Prop :=
  ∀ s t : State, step s = .next t → (∀ rest, s.inbox ≠ ⟨0, .reset⟩ :: rest) →
    (∃ evs, t.btrace = s.btrace ++ evs) ∧ (∃ evs, t.dtrace = s.dtrace ++ evs)

/-- R28: DISP_INIT, once set, is cleared by reset only. -/
def Obligations.DisplayStaysInitializedUntilReset : Prop :=
  ∀ s t : State, step s = .next t → s.dispInit = true →
    (∀ rest, s.inbox ≠ ⟨0, .reset⟩ :: rest) → t.dispInit = true

/-- The reset state has the invariant of the machine. -/
def Obligations.InvariantHoldsAtReset : Prop := State.reset.Inv

/-- Every step keeps the invariant: HMEM in canonical form, S.cmd and S.useq none exactly while BUSY = 0, S.cmd a
command's word, no transaction and no pending stop without BUS_INIT, no pending stop inside a
transaction, an initialized display driven, the enable line low between commands, and of the command that
executes only lines of its own unit left. That no stop is pending inside a transaction is the spec's own
inference in R114. -/
def Obligations.EveryStepKeepsTheInvariant : Prop :=
  ∀ s t : State, s.Inv → step s = .next t → t.Inv

/-- R270, informative and the spec's own inference from the display commands' rules: the least times its own waits
give the nine of them, from the events each has appended when it has finished; DISP_INIT also before the
display is initialized. -/
def Obligations.DisplayCommandsTakeTheirLeastTimes : Prop :=
  let takes (i : Instr) (s : State) (us : Nat) : Prop :=
    ∃ t, exec i s = .next t ∧ t.busy = false ∧ minMicros t.dtrace = minMicros s.dtrace + us
  (∀ s : State, s.busy = false → 37 ≤ s.room → takes .dispInit s 23692) ∧
  (∀ s : State, s.busy = false → s.dispInit = true → 7 ≤ s.room →
    takes .dispClear s 3082 ∧ takes .dispHome s 82 ∧
    (∀ b, takes (.dispCmd b) s 82 ∧ takes (.dispChar b) s 82) ∧
    (∀ col row : Byte, takes (.dispGoto col row) s (if 3 < row.toNat ∨ 20 ≤ col.toNat then 0 else 82))) ∧
  (∀ (s : State) (addr : HAddr) (n : Nat), s.busy = false → s.dispInit = true →
    (∀ k < n, s.hmem.read (addr + BitVec.ofNat 16 k) ≠ 0#8) →
    s.hmem.read (addr + BitVec.ofNat 16 n) = 0#8 → 5 * n + 1 ≤ s.room →
    takes (.dispText addr) s (82 * n)) ∧
  (∀ (s : State) (imm : BitVec 24), s.busy = false → s.dispInit = true → 29 ≤ s.room →
    takes (.dispHex imm) s (82 * (hexstr imm.toNat).length) ∧
    takes (.dispInt imm) s (if imm.toInt ≤ -1000000 then 0 else 82 * (decstr imm.toInt).length))

/-- R272: where the host has made its last access, the run has ended exactly where the machine stands still, and
that is where it is quiescent, or stuck on a hang with CFG.TIMEOUT = 0 (the engine, or the pending stop
while no command executes), or, with CFG.TIMEOUT not 0, a stop hangs that no command waits for. The rule
does not name this last end, which is neither quiescent nor stuck: that a pending stop has no timeout of
its own is read from R119 and R104 (log 17). -/
def Obligations.RunEndsExactlyWhereNothingMoves : Prop :=
  ∀ s : State, s.Inv →
    (s.ended = true ↔ s.inbox = [] ∧ step s = .next s) ∧
    (s.ended = true ↔ s.inbox = [] ∧
      ((s.busy = false ∧ s.stopPending = false) ∨
        (s.busy = true ∧ s.cfgTimeout = 0#8 ∧ (s.drawAt 0).hang = true ∧
          ∃ u m rest, s.useq = some u ∧ u.timer = none ∧ u.todo = m :: rest ∧
            m.asksDevice s.stopPending = true) ∨
        (s.busy = false ∧ s.stopPending = true ∧ s.cfgTimeout = 0#8 ∧ (s.drawAt 0).hang = true) ∨
        (s.busy = false ∧ s.stopPending = true ∧ s.cfgTimeout ≠ 0#8 ∧ (s.drawAt 0).hang = true))) ∧
    (s.ended = true → s.cfgTimeout = 0#8 → s.quiescent = true ∨ s.stuck = true)
end

