-- ==== Sys2Proof/Laws/State.lean ====
section
/-! SUPPORT. The fields of State after each of the plain updates, one lemma per field and update. -/

namespace Sys2Proof.Machine

variable (s : State)

/-! ## State.raise (R220) -/

@[simp] theorem raise_busy (v : Viol) : (s.raise v).busy = s.busy := rfl
@[simp] theorem raise_done (v : Viol) : (s.raise v).done = s.done := rfl
@[simp] theorem raise_ack (v : Viol) : (s.raise v).ack = s.ack := rfl
@[simp] theorem raise_busInit (v : Viol) : (s.raise v).busInit = s.busInit := rfl
@[simp] theorem raise_stopPending (v : Viol) : (s.raise v).stopPending = s.stopPending := rfl
@[simp] theorem raise_phase (v : Viol) : (s.raise v).phase = s.phase := rfl
@[simp] theorem raise_dispInit (v : Viol) : (s.raise v).dispInit = s.dispInit := rfl
@[simp] theorem raise_rs (v : Viol) : (s.raise v).rs = s.rs := rfl
@[simp] theorem raise_tempValid (v : Viol) : (s.raise v).tempValid = s.tempValid := rfl
@[simp] theorem raise_err (v : Viol) : (s.raise v).err = s.err := rfl
@[simp] theorem raise_viol (v : Viol) : (s.raise v).viol = (if s.viol = .none then v else s.viol) := rfl
@[simp] theorem raise_rxdata (v : Viol) : (s.raise v).rxdata = s.rxdata := rfl
@[simp] theorem raise_tempRaw (v : Viol) : (s.raise v).tempRaw = s.tempRaw := rfl
@[simp] theorem raise_cfgDiv (v : Viol) : (s.raise v).cfgDiv = s.cfgDiv := rfl
@[simp] theorem raise_cfgSaddr (v : Viol) : (s.raise v).cfgSaddr = s.cfgSaddr := rfl
@[simp] theorem raise_cfgSreg (v : Viol) : (s.raise v).cfgSreg = s.cfgSreg := rfl
@[simp] theorem raise_cfgTimeout (v : Viol) : (s.raise v).cfgTimeout = s.cfgTimeout := rfl
@[simp] theorem raise_cmd (v : Viol) : (s.raise v).cmd = s.cmd := rfl
@[simp] theorem raise_useq (v : Viol) : (s.raise v).useq = s.useq := rfl
@[simp] theorem raise_divActive (v : Viol) : (s.raise v).divActive = s.divActive := rfl
@[simp] theorem raise_pullup (v : Viol) : (s.raise v).pullup = s.pullup := rfl
@[simp] theorem raise_txd (v : Viol) : (s.raise v).txd = s.txd := rfl
@[simp] theorem raise_driven (v : Viol) : (s.raise v).driven = s.driven := rfl
@[simp] theorem raise_e (v : Viol) : (s.raise v).e = s.e := rfl
@[simp] theorem raise_d (v : Viol) : (s.raise v).d = s.d := rfl
@[simp] theorem raise_btrace (v : Viol) : (s.raise v).btrace = s.btrace := rfl
@[simp] theorem raise_dtrace (v : Viol) : (s.raise v).dtrace = s.dtrace := rfl
@[simp] theorem raise_hmem (v : Viol) : (s.raise v).hmem = s.hmem := rfl
@[simp] theorem raise_inbox (v : Viol) : (s.raise v).inbox = s.inbox := rfl
@[simp] theorem raise_dev (v : Viol) : (s.raise v).dev = s.dev := rfl
@[simp] theorem raise_draws (v : Viol) : (s.raise v).draws = s.draws := rfl
@[simp] theorem raise_frees (v : Viol) : (s.raise v).frees = s.frees := rfl
@[simp] theorem raise_hostReads (v : Viol) : (s.raise v).hostReads = s.hostReads := rfl

/-! ## State.finish (R226) -/

@[simp] theorem finish_busy (r : Result) : (s.finish r).busy = false := rfl
@[simp] theorem finish_done (r : Result) : (s.finish r).done = s.done := rfl
@[simp] theorem finish_ack (r : Result) : (s.finish r).ack = s.ack := rfl
@[simp] theorem finish_busInit (r : Result) : (s.finish r).busInit = s.busInit := rfl
@[simp] theorem finish_stopPending (r : Result) : (s.finish r).stopPending = s.stopPending := rfl
@[simp] theorem finish_phase (r : Result) : (s.finish r).phase = s.phase := rfl
@[simp] theorem finish_dispInit (r : Result) : (s.finish r).dispInit = s.dispInit := rfl
@[simp] theorem finish_rs (r : Result) : (s.finish r).rs = s.rs := rfl
@[simp] theorem finish_tempValid (r : Result) : (s.finish r).tempValid = s.tempValid := rfl
@[simp] theorem finish_err (r : Result) : (s.finish r).err = r := rfl
@[simp] theorem finish_viol (r : Result) : (s.finish r).viol = s.viol := rfl
@[simp] theorem finish_rxdata (r : Result) : (s.finish r).rxdata = s.rxdata := rfl
@[simp] theorem finish_tempRaw (r : Result) : (s.finish r).tempRaw = s.tempRaw := rfl
@[simp] theorem finish_cfgDiv (r : Result) : (s.finish r).cfgDiv = s.cfgDiv := rfl
@[simp] theorem finish_cfgSaddr (r : Result) : (s.finish r).cfgSaddr = s.cfgSaddr := rfl
@[simp] theorem finish_cfgSreg (r : Result) : (s.finish r).cfgSreg = s.cfgSreg := rfl
@[simp] theorem finish_cfgTimeout (r : Result) : (s.finish r).cfgTimeout = s.cfgTimeout := rfl
@[simp] theorem finish_cmd (r : Result) : (s.finish r).cmd = none := rfl
@[simp] theorem finish_useq (r : Result) : (s.finish r).useq = none := rfl
@[simp] theorem finish_divActive (r : Result) : (s.finish r).divActive = s.divActive := rfl
@[simp] theorem finish_pullup (r : Result) : (s.finish r).pullup = s.pullup := rfl
@[simp] theorem finish_txd (r : Result) : (s.finish r).txd = s.txd := rfl
@[simp] theorem finish_driven (r : Result) : (s.finish r).driven = s.driven := rfl
@[simp] theorem finish_e (r : Result) : (s.finish r).e = s.e := rfl
@[simp] theorem finish_d (r : Result) : (s.finish r).d = s.d := rfl
@[simp] theorem finish_btrace (r : Result) : (s.finish r).btrace = s.btrace := rfl
@[simp] theorem finish_dtrace (r : Result) : (s.finish r).dtrace = s.dtrace := rfl
@[simp] theorem finish_hmem (r : Result) : (s.finish r).hmem = s.hmem := rfl
@[simp] theorem finish_inbox (r : Result) : (s.finish r).inbox = s.inbox := rfl
@[simp] theorem finish_dev (r : Result) : (s.finish r).dev = s.dev := rfl
@[simp] theorem finish_draws (r : Result) : (s.finish r).draws = s.draws := rfl
@[simp] theorem finish_frees (r : Result) : (s.finish r).frees = s.frees := rfl
@[simp] theorem finish_hostReads (r : Result) : (s.finish r).hostReads = s.hostReads := rfl

/-! ## State.popDraw -/

@[simp] theorem popDraw_busy : (s.popDraw).busy = s.busy := rfl
@[simp] theorem popDraw_done : (s.popDraw).done = s.done := rfl
@[simp] theorem popDraw_ack : (s.popDraw).ack = s.ack := rfl
@[simp] theorem popDraw_busInit : (s.popDraw).busInit = s.busInit := rfl
@[simp] theorem popDraw_stopPending : (s.popDraw).stopPending = s.stopPending := rfl
@[simp] theorem popDraw_phase : (s.popDraw).phase = s.phase := rfl
@[simp] theorem popDraw_dispInit : (s.popDraw).dispInit = s.dispInit := rfl
@[simp] theorem popDraw_rs : (s.popDraw).rs = s.rs := rfl
@[simp] theorem popDraw_tempValid : (s.popDraw).tempValid = s.tempValid := rfl
@[simp] theorem popDraw_err : (s.popDraw).err = s.err := rfl
@[simp] theorem popDraw_viol : (s.popDraw).viol = s.viol := rfl
@[simp] theorem popDraw_rxdata : (s.popDraw).rxdata = s.rxdata := rfl
@[simp] theorem popDraw_tempRaw : (s.popDraw).tempRaw = s.tempRaw := rfl
@[simp] theorem popDraw_cfgDiv : (s.popDraw).cfgDiv = s.cfgDiv := rfl
@[simp] theorem popDraw_cfgSaddr : (s.popDraw).cfgSaddr = s.cfgSaddr := rfl
@[simp] theorem popDraw_cfgSreg : (s.popDraw).cfgSreg = s.cfgSreg := rfl
@[simp] theorem popDraw_cfgTimeout : (s.popDraw).cfgTimeout = s.cfgTimeout := rfl
@[simp] theorem popDraw_cmd : (s.popDraw).cmd = s.cmd := rfl
@[simp] theorem popDraw_useq : (s.popDraw).useq = s.useq := rfl
@[simp] theorem popDraw_divActive : (s.popDraw).divActive = s.divActive := rfl
@[simp] theorem popDraw_pullup : (s.popDraw).pullup = s.pullup := rfl
@[simp] theorem popDraw_txd : (s.popDraw).txd = s.txd := rfl
@[simp] theorem popDraw_driven : (s.popDraw).driven = s.driven := rfl
@[simp] theorem popDraw_e : (s.popDraw).e = s.e := rfl
@[simp] theorem popDraw_d : (s.popDraw).d = s.d := rfl
@[simp] theorem popDraw_btrace : (s.popDraw).btrace = s.btrace := rfl
@[simp] theorem popDraw_dtrace : (s.popDraw).dtrace = s.dtrace := rfl
@[simp] theorem popDraw_hmem : (s.popDraw).hmem = s.hmem := rfl
@[simp] theorem popDraw_inbox : (s.popDraw).inbox = s.inbox := rfl
@[simp] theorem popDraw_dev : (s.popDraw).dev = s.dev.tail := rfl
@[simp] theorem popDraw_draws : (s.popDraw).draws = (s.draws + 1) := rfl
@[simp] theorem popDraw_frees : (s.popDraw).frees = s.frees := rfl
@[simp] theorem popDraw_hostReads : (s.popDraw).hostReads = s.hostReads := rfl

/-! ## State.popFree -/

@[simp] theorem popFree_busy : (s.popFree).busy = s.busy := rfl
@[simp] theorem popFree_done : (s.popFree).done = s.done := rfl
@[simp] theorem popFree_ack : (s.popFree).ack = s.ack := rfl
@[simp] theorem popFree_busInit : (s.popFree).busInit = s.busInit := rfl
@[simp] theorem popFree_stopPending : (s.popFree).stopPending = s.stopPending := rfl
@[simp] theorem popFree_phase : (s.popFree).phase = s.phase := rfl
@[simp] theorem popFree_dispInit : (s.popFree).dispInit = s.dispInit := rfl
@[simp] theorem popFree_rs : (s.popFree).rs = s.rs := rfl
@[simp] theorem popFree_tempValid : (s.popFree).tempValid = s.tempValid := rfl
@[simp] theorem popFree_err : (s.popFree).err = s.err := rfl
@[simp] theorem popFree_viol : (s.popFree).viol = s.viol := rfl
@[simp] theorem popFree_rxdata : (s.popFree).rxdata = s.rxdata := rfl
@[simp] theorem popFree_tempRaw : (s.popFree).tempRaw = s.tempRaw := rfl
@[simp] theorem popFree_cfgDiv : (s.popFree).cfgDiv = s.cfgDiv := rfl
@[simp] theorem popFree_cfgSaddr : (s.popFree).cfgSaddr = s.cfgSaddr := rfl
@[simp] theorem popFree_cfgSreg : (s.popFree).cfgSreg = s.cfgSreg := rfl
@[simp] theorem popFree_cfgTimeout : (s.popFree).cfgTimeout = s.cfgTimeout := rfl
@[simp] theorem popFree_cmd : (s.popFree).cmd = s.cmd := rfl
@[simp] theorem popFree_useq : (s.popFree).useq = s.useq := rfl
@[simp] theorem popFree_divActive : (s.popFree).divActive = s.divActive := rfl
@[simp] theorem popFree_pullup : (s.popFree).pullup = s.pullup := rfl
@[simp] theorem popFree_txd : (s.popFree).txd = s.txd := rfl
@[simp] theorem popFree_driven : (s.popFree).driven = s.driven := rfl
@[simp] theorem popFree_e : (s.popFree).e = s.e := rfl
@[simp] theorem popFree_d : (s.popFree).d = s.d := rfl
@[simp] theorem popFree_btrace : (s.popFree).btrace = s.btrace := rfl
@[simp] theorem popFree_dtrace : (s.popFree).dtrace = s.dtrace := rfl
@[simp] theorem popFree_hmem : (s.popFree).hmem = s.hmem := rfl
@[simp] theorem popFree_inbox : (s.popFree).inbox = s.inbox := rfl
@[simp] theorem popFree_dev : (s.popFree).dev = s.dev := rfl
@[simp] theorem popFree_draws : (s.popFree).draws = s.draws := rfl
@[simp] theorem popFree_frees : (s.popFree).frees = (s.frees + 1) := rfl
@[simp] theorem popFree_hostReads : (s.popFree).hostReads = s.hostReads := rfl

/-! ## State.emitBus -/

@[simp] theorem emitBus_busy (ev : BusEvent) : (s.emitBus ev).busy = s.busy := rfl
@[simp] theorem emitBus_done (ev : BusEvent) : (s.emitBus ev).done = s.done := rfl
@[simp] theorem emitBus_ack (ev : BusEvent) : (s.emitBus ev).ack = s.ack := rfl
@[simp] theorem emitBus_busInit (ev : BusEvent) : (s.emitBus ev).busInit = s.busInit := rfl
@[simp] theorem emitBus_stopPending (ev : BusEvent) : (s.emitBus ev).stopPending = s.stopPending := rfl
@[simp] theorem emitBus_phase (ev : BusEvent) : (s.emitBus ev).phase = s.phase := rfl
@[simp] theorem emitBus_dispInit (ev : BusEvent) : (s.emitBus ev).dispInit = s.dispInit := rfl
@[simp] theorem emitBus_rs (ev : BusEvent) : (s.emitBus ev).rs = s.rs := rfl
@[simp] theorem emitBus_tempValid (ev : BusEvent) : (s.emitBus ev).tempValid = s.tempValid := rfl
@[simp] theorem emitBus_err (ev : BusEvent) : (s.emitBus ev).err = s.err := rfl
@[simp] theorem emitBus_viol (ev : BusEvent) : (s.emitBus ev).viol = s.viol := rfl
@[simp] theorem emitBus_rxdata (ev : BusEvent) : (s.emitBus ev).rxdata = s.rxdata := rfl
@[simp] theorem emitBus_tempRaw (ev : BusEvent) : (s.emitBus ev).tempRaw = s.tempRaw := rfl
@[simp] theorem emitBus_cfgDiv (ev : BusEvent) : (s.emitBus ev).cfgDiv = s.cfgDiv := rfl
@[simp] theorem emitBus_cfgSaddr (ev : BusEvent) : (s.emitBus ev).cfgSaddr = s.cfgSaddr := rfl
@[simp] theorem emitBus_cfgSreg (ev : BusEvent) : (s.emitBus ev).cfgSreg = s.cfgSreg := rfl
@[simp] theorem emitBus_cfgTimeout (ev : BusEvent) : (s.emitBus ev).cfgTimeout = s.cfgTimeout := rfl
@[simp] theorem emitBus_cmd (ev : BusEvent) : (s.emitBus ev).cmd = s.cmd := rfl
@[simp] theorem emitBus_useq (ev : BusEvent) : (s.emitBus ev).useq = s.useq := rfl
@[simp] theorem emitBus_divActive (ev : BusEvent) : (s.emitBus ev).divActive = s.divActive := rfl
@[simp] theorem emitBus_pullup (ev : BusEvent) : (s.emitBus ev).pullup = s.pullup := rfl
@[simp] theorem emitBus_txd (ev : BusEvent) : (s.emitBus ev).txd = s.txd := rfl
@[simp] theorem emitBus_driven (ev : BusEvent) : (s.emitBus ev).driven = s.driven := rfl
@[simp] theorem emitBus_e (ev : BusEvent) : (s.emitBus ev).e = s.e := rfl
@[simp] theorem emitBus_d (ev : BusEvent) : (s.emitBus ev).d = s.d := rfl
@[simp] theorem emitBus_btrace (ev : BusEvent) : (s.emitBus ev).btrace = (s.btrace ++ [ev]) := rfl
@[simp] theorem emitBus_dtrace (ev : BusEvent) : (s.emitBus ev).dtrace = s.dtrace := rfl
@[simp] theorem emitBus_hmem (ev : BusEvent) : (s.emitBus ev).hmem = s.hmem := rfl
@[simp] theorem emitBus_inbox (ev : BusEvent) : (s.emitBus ev).inbox = s.inbox := rfl
@[simp] theorem emitBus_dev (ev : BusEvent) : (s.emitBus ev).dev = s.dev := rfl
@[simp] theorem emitBus_draws (ev : BusEvent) : (s.emitBus ev).draws = s.draws := rfl
@[simp] theorem emitBus_frees (ev : BusEvent) : (s.emitBus ev).frees = s.frees := rfl
@[simp] theorem emitBus_hostReads (ev : BusEvent) : (s.emitBus ev).hostReads = s.hostReads := rfl

/-! ## State.emitDisp -/

@[simp] theorem emitDisp_busy (ev : DispEvent) : (s.emitDisp ev).busy = s.busy := rfl
@[simp] theorem emitDisp_done (ev : DispEvent) : (s.emitDisp ev).done = s.done := rfl
@[simp] theorem emitDisp_ack (ev : DispEvent) : (s.emitDisp ev).ack = s.ack := rfl
@[simp] theorem emitDisp_busInit (ev : DispEvent) : (s.emitDisp ev).busInit = s.busInit := rfl
@[simp] theorem emitDisp_stopPending (ev : DispEvent) : (s.emitDisp ev).stopPending = s.stopPending := rfl
@[simp] theorem emitDisp_phase (ev : DispEvent) : (s.emitDisp ev).phase = s.phase := rfl
@[simp] theorem emitDisp_dispInit (ev : DispEvent) : (s.emitDisp ev).dispInit = s.dispInit := rfl
@[simp] theorem emitDisp_rs (ev : DispEvent) : (s.emitDisp ev).rs = s.rs := rfl
@[simp] theorem emitDisp_tempValid (ev : DispEvent) : (s.emitDisp ev).tempValid = s.tempValid := rfl
@[simp] theorem emitDisp_err (ev : DispEvent) : (s.emitDisp ev).err = s.err := rfl
@[simp] theorem emitDisp_viol (ev : DispEvent) : (s.emitDisp ev).viol = s.viol := rfl
@[simp] theorem emitDisp_rxdata (ev : DispEvent) : (s.emitDisp ev).rxdata = s.rxdata := rfl
@[simp] theorem emitDisp_tempRaw (ev : DispEvent) : (s.emitDisp ev).tempRaw = s.tempRaw := rfl
@[simp] theorem emitDisp_cfgDiv (ev : DispEvent) : (s.emitDisp ev).cfgDiv = s.cfgDiv := rfl
@[simp] theorem emitDisp_cfgSaddr (ev : DispEvent) : (s.emitDisp ev).cfgSaddr = s.cfgSaddr := rfl
@[simp] theorem emitDisp_cfgSreg (ev : DispEvent) : (s.emitDisp ev).cfgSreg = s.cfgSreg := rfl
@[simp] theorem emitDisp_cfgTimeout (ev : DispEvent) : (s.emitDisp ev).cfgTimeout = s.cfgTimeout := rfl
@[simp] theorem emitDisp_cmd (ev : DispEvent) : (s.emitDisp ev).cmd = s.cmd := rfl
@[simp] theorem emitDisp_useq (ev : DispEvent) : (s.emitDisp ev).useq = s.useq := rfl
@[simp] theorem emitDisp_divActive (ev : DispEvent) : (s.emitDisp ev).divActive = s.divActive := rfl
@[simp] theorem emitDisp_pullup (ev : DispEvent) : (s.emitDisp ev).pullup = s.pullup := rfl
@[simp] theorem emitDisp_txd (ev : DispEvent) : (s.emitDisp ev).txd = s.txd := rfl
@[simp] theorem emitDisp_driven (ev : DispEvent) : (s.emitDisp ev).driven = s.driven := rfl
@[simp] theorem emitDisp_e (ev : DispEvent) : (s.emitDisp ev).e = s.e := rfl
@[simp] theorem emitDisp_d (ev : DispEvent) : (s.emitDisp ev).d = s.d := rfl
@[simp] theorem emitDisp_btrace (ev : DispEvent) : (s.emitDisp ev).btrace = s.btrace := rfl
@[simp] theorem emitDisp_dtrace (ev : DispEvent) : (s.emitDisp ev).dtrace = (s.dtrace ++ [ev]) := rfl
@[simp] theorem emitDisp_hmem (ev : DispEvent) : (s.emitDisp ev).hmem = s.hmem := rfl
@[simp] theorem emitDisp_inbox (ev : DispEvent) : (s.emitDisp ev).inbox = s.inbox := rfl
@[simp] theorem emitDisp_dev (ev : DispEvent) : (s.emitDisp ev).dev = s.dev := rfl
@[simp] theorem emitDisp_draws (ev : DispEvent) : (s.emitDisp ev).draws = s.draws := rfl
@[simp] theorem emitDisp_frees (ev : DispEvent) : (s.emitDisp ev).frees = s.frees := rfl
@[simp] theorem emitDisp_hostReads (ev : DispEvent) : (s.emitDisp ev).hostReads = s.hostReads := rfl

/-! ## State.timeout (R228) -/

@[simp] theorem timeout_busy : (s.timeout).busy = false := rfl
@[simp] theorem timeout_done : (s.timeout).done = false := rfl
@[simp] theorem timeout_ack : (s.timeout).ack = s.ack := rfl
@[simp] theorem timeout_busInit : (s.timeout).busInit = false := rfl
@[simp] theorem timeout_stopPending : (s.timeout).stopPending = false := rfl
@[simp] theorem timeout_phase : (s.timeout).phase = .idle := rfl
@[simp] theorem timeout_dispInit : (s.timeout).dispInit = s.dispInit := rfl
@[simp] theorem timeout_rs : (s.timeout).rs = s.rs := rfl
@[simp] theorem timeout_tempValid : (s.timeout).tempValid = (if s.runsTempRead then false else s.tempValid) := rfl
@[simp] theorem timeout_err : (s.timeout).err = .busTimeout := rfl
@[simp] theorem timeout_viol : (s.timeout).viol = s.viol := rfl
@[simp] theorem timeout_rxdata : (s.timeout).rxdata = s.rxdata := rfl
@[simp] theorem timeout_tempRaw : (s.timeout).tempRaw = s.tempRaw := rfl
@[simp] theorem timeout_cfgDiv : (s.timeout).cfgDiv = s.cfgDiv := rfl
@[simp] theorem timeout_cfgSaddr : (s.timeout).cfgSaddr = s.cfgSaddr := rfl
@[simp] theorem timeout_cfgSreg : (s.timeout).cfgSreg = s.cfgSreg := rfl
@[simp] theorem timeout_cfgTimeout : (s.timeout).cfgTimeout = s.cfgTimeout := rfl
@[simp] theorem timeout_cmd : (s.timeout).cmd = none := rfl
@[simp] theorem timeout_useq : (s.timeout).useq = none := rfl
@[simp] theorem timeout_divActive : (s.timeout).divActive = s.divActive := rfl
@[simp] theorem timeout_pullup : (s.timeout).pullup = s.pullup := rfl
@[simp] theorem timeout_txd : (s.timeout).txd = s.txd := rfl
@[simp] theorem timeout_driven : (s.timeout).driven = s.driven := rfl
@[simp] theorem timeout_e : (s.timeout).e = s.e := rfl
@[simp] theorem timeout_d : (s.timeout).d = s.d := rfl
@[simp] theorem timeout_btrace : (s.timeout).btrace = (s.btrace ++ [.timeout]) := rfl
@[simp] theorem timeout_dtrace : (s.timeout).dtrace = s.dtrace := rfl
@[simp] theorem timeout_hmem : (s.timeout).hmem = s.hmem := rfl
@[simp] theorem timeout_inbox : (s.timeout).inbox = s.inbox := rfl
@[simp] theorem timeout_dev : (s.timeout).dev = s.dev := rfl
@[simp] theorem timeout_draws : (s.timeout).draws = s.draws := rfl
@[simp] theorem timeout_frees : (s.timeout).frees = s.frees := rfl
@[simp] theorem timeout_hostReads : (s.timeout).hostReads = s.hostReads := rfl

/-! ## State.stopPerformed (R119) -/

@[simp] theorem stopPerformed_busy : (s.stopPerformed).busy = s.busy := rfl
@[simp] theorem stopPerformed_done : (s.stopPerformed).done = s.done := rfl
@[simp] theorem stopPerformed_ack : (s.stopPerformed).ack = s.ack := rfl
@[simp] theorem stopPerformed_busInit : (s.stopPerformed).busInit = s.busInit := rfl
@[simp] theorem stopPerformed_stopPending : (s.stopPerformed).stopPending = false := rfl
@[simp] theorem stopPerformed_phase : (s.stopPerformed).phase = s.phase := rfl
@[simp] theorem stopPerformed_dispInit : (s.stopPerformed).dispInit = s.dispInit := rfl
@[simp] theorem stopPerformed_rs : (s.stopPerformed).rs = s.rs := rfl
@[simp] theorem stopPerformed_tempValid : (s.stopPerformed).tempValid = s.tempValid := rfl
@[simp] theorem stopPerformed_err : (s.stopPerformed).err = s.err := rfl
@[simp] theorem stopPerformed_viol : (s.stopPerformed).viol = s.viol := rfl
@[simp] theorem stopPerformed_rxdata : (s.stopPerformed).rxdata = s.rxdata := rfl
@[simp] theorem stopPerformed_tempRaw : (s.stopPerformed).tempRaw = s.tempRaw := rfl
@[simp] theorem stopPerformed_cfgDiv : (s.stopPerformed).cfgDiv = s.cfgDiv := rfl
@[simp] theorem stopPerformed_cfgSaddr : (s.stopPerformed).cfgSaddr = s.cfgSaddr := rfl
@[simp] theorem stopPerformed_cfgSreg : (s.stopPerformed).cfgSreg = s.cfgSreg := rfl
@[simp] theorem stopPerformed_cfgTimeout : (s.stopPerformed).cfgTimeout = s.cfgTimeout := rfl
@[simp] theorem stopPerformed_cmd : (s.stopPerformed).cmd = s.cmd := rfl
@[simp] theorem stopPerformed_useq : (s.stopPerformed).useq = s.useq := rfl
@[simp] theorem stopPerformed_divActive : (s.stopPerformed).divActive = s.divActive := rfl
@[simp] theorem stopPerformed_pullup : (s.stopPerformed).pullup = s.pullup := rfl
@[simp] theorem stopPerformed_txd : (s.stopPerformed).txd = s.txd := rfl
@[simp] theorem stopPerformed_driven : (s.stopPerformed).driven = s.driven := rfl
@[simp] theorem stopPerformed_e : (s.stopPerformed).e = s.e := rfl
@[simp] theorem stopPerformed_d : (s.stopPerformed).d = s.d := rfl
@[simp] theorem stopPerformed_btrace : (s.stopPerformed).btrace = (s.btrace ++ [.stop]) := rfl
@[simp] theorem stopPerformed_dtrace : (s.stopPerformed).dtrace = s.dtrace := rfl
@[simp] theorem stopPerformed_hmem : (s.stopPerformed).hmem = s.hmem := rfl
@[simp] theorem stopPerformed_inbox : (s.stopPerformed).inbox = s.inbox := rfl
@[simp] theorem stopPerformed_dev : (s.stopPerformed).dev = s.dev.tail := rfl
@[simp] theorem stopPerformed_draws : (s.stopPerformed).draws = (s.draws + 1) := rfl
@[simp] theorem stopPerformed_frees : (s.stopPerformed).frees = s.frees := rfl
@[simp] theorem stopPerformed_hostReads : (s.stopPerformed).hostReads = s.hostReads := rfl

/-! ## State.inputDue -/

@[simp] theorem inputDue_busy : (s.inputDue).busy = s.busy := rfl
@[simp] theorem inputDue_done : (s.inputDue).done = s.done := rfl
@[simp] theorem inputDue_ack : (s.inputDue).ack = s.ack := rfl
@[simp] theorem inputDue_busInit : (s.inputDue).busInit = s.busInit := rfl
@[simp] theorem inputDue_stopPending : (s.inputDue).stopPending = s.stopPending := rfl
@[simp] theorem inputDue_phase : (s.inputDue).phase = s.phase := rfl
@[simp] theorem inputDue_dispInit : (s.inputDue).dispInit = s.dispInit := rfl
@[simp] theorem inputDue_rs : (s.inputDue).rs = s.rs := rfl
@[simp] theorem inputDue_tempValid : (s.inputDue).tempValid = s.tempValid := rfl
@[simp] theorem inputDue_err : (s.inputDue).err = s.err := rfl
@[simp] theorem inputDue_viol : (s.inputDue).viol = s.viol := rfl
@[simp] theorem inputDue_rxdata : (s.inputDue).rxdata = s.rxdata := rfl
@[simp] theorem inputDue_tempRaw : (s.inputDue).tempRaw = s.tempRaw := rfl
@[simp] theorem inputDue_cfgDiv : (s.inputDue).cfgDiv = s.cfgDiv := rfl
@[simp] theorem inputDue_cfgSaddr : (s.inputDue).cfgSaddr = s.cfgSaddr := rfl
@[simp] theorem inputDue_cfgSreg : (s.inputDue).cfgSreg = s.cfgSreg := rfl
@[simp] theorem inputDue_cfgTimeout : (s.inputDue).cfgTimeout = s.cfgTimeout := rfl
@[simp] theorem inputDue_cmd : (s.inputDue).cmd = s.cmd := rfl
@[simp] theorem inputDue_useq : (s.inputDue).useq = s.useq := rfl
@[simp] theorem inputDue_divActive : (s.inputDue).divActive = s.divActive := rfl
@[simp] theorem inputDue_pullup : (s.inputDue).pullup = s.pullup := rfl
@[simp] theorem inputDue_txd : (s.inputDue).txd = s.txd := rfl
@[simp] theorem inputDue_driven : (s.inputDue).driven = s.driven := rfl
@[simp] theorem inputDue_e : (s.inputDue).e = s.e := rfl
@[simp] theorem inputDue_d : (s.inputDue).d = s.d := rfl
@[simp] theorem inputDue_btrace : (s.inputDue).btrace = s.btrace := rfl
@[simp] theorem inputDue_dtrace : (s.inputDue).dtrace = s.dtrace := rfl
@[simp] theorem inputDue_hmem : (s.inputDue).hmem = s.hmem := rfl
@[simp] theorem inputDue_dev : (s.inputDue).dev = s.dev := rfl
@[simp] theorem inputDue_draws : (s.inputDue).draws = s.draws := rfl
@[simp] theorem inputDue_frees : (s.inputDue).frees = s.frees := rfl
@[simp] theorem inputDue_hostReads : (s.inputDue).hostReads = s.hostReads := rfl

/-! ## State.logRead -/

@[simp] theorem logRead_busy (off : Byte) (v : Word) : (s.logRead off v).busy = s.busy := rfl
@[simp] theorem logRead_done (off : Byte) (v : Word) : (s.logRead off v).done = s.done := rfl
@[simp] theorem logRead_ack (off : Byte) (v : Word) : (s.logRead off v).ack = s.ack := rfl
@[simp] theorem logRead_busInit (off : Byte) (v : Word) : (s.logRead off v).busInit = s.busInit := rfl
@[simp] theorem logRead_stopPending (off : Byte) (v : Word) : (s.logRead off v).stopPending = s.stopPending := rfl
@[simp] theorem logRead_phase (off : Byte) (v : Word) : (s.logRead off v).phase = s.phase := rfl
@[simp] theorem logRead_dispInit (off : Byte) (v : Word) : (s.logRead off v).dispInit = s.dispInit := rfl
@[simp] theorem logRead_rs (off : Byte) (v : Word) : (s.logRead off v).rs = s.rs := rfl
@[simp] theorem logRead_tempValid (off : Byte) (v : Word) : (s.logRead off v).tempValid = s.tempValid := rfl
@[simp] theorem logRead_err (off : Byte) (v : Word) : (s.logRead off v).err = s.err := rfl
@[simp] theorem logRead_viol (off : Byte) (v : Word) : (s.logRead off v).viol = s.viol := rfl
@[simp] theorem logRead_rxdata (off : Byte) (v : Word) : (s.logRead off v).rxdata = s.rxdata := rfl
@[simp] theorem logRead_tempRaw (off : Byte) (v : Word) : (s.logRead off v).tempRaw = s.tempRaw := rfl
@[simp] theorem logRead_cfgDiv (off : Byte) (v : Word) : (s.logRead off v).cfgDiv = s.cfgDiv := rfl
@[simp] theorem logRead_cfgSaddr (off : Byte) (v : Word) : (s.logRead off v).cfgSaddr = s.cfgSaddr := rfl
@[simp] theorem logRead_cfgSreg (off : Byte) (v : Word) : (s.logRead off v).cfgSreg = s.cfgSreg := rfl
@[simp] theorem logRead_cfgTimeout (off : Byte) (v : Word) : (s.logRead off v).cfgTimeout = s.cfgTimeout := rfl
@[simp] theorem logRead_cmd (off : Byte) (v : Word) : (s.logRead off v).cmd = s.cmd := rfl
@[simp] theorem logRead_useq (off : Byte) (v : Word) : (s.logRead off v).useq = s.useq := rfl
@[simp] theorem logRead_divActive (off : Byte) (v : Word) : (s.logRead off v).divActive = s.divActive := rfl
@[simp] theorem logRead_pullup (off : Byte) (v : Word) : (s.logRead off v).pullup = s.pullup := rfl
@[simp] theorem logRead_txd (off : Byte) (v : Word) : (s.logRead off v).txd = s.txd := rfl
@[simp] theorem logRead_driven (off : Byte) (v : Word) : (s.logRead off v).driven = s.driven := rfl
@[simp] theorem logRead_e (off : Byte) (v : Word) : (s.logRead off v).e = s.e := rfl
@[simp] theorem logRead_d (off : Byte) (v : Word) : (s.logRead off v).d = s.d := rfl
@[simp] theorem logRead_btrace (off : Byte) (v : Word) : (s.logRead off v).btrace = s.btrace := rfl
@[simp] theorem logRead_dtrace (off : Byte) (v : Word) : (s.logRead off v).dtrace = s.dtrace := rfl
@[simp] theorem logRead_hmem (off : Byte) (v : Word) : (s.logRead off v).hmem = s.hmem := rfl
@[simp] theorem logRead_inbox (off : Byte) (v : Word) : (s.logRead off v).inbox = s.inbox := rfl
@[simp] theorem logRead_dev (off : Byte) (v : Word) : (s.logRead off v).dev = s.dev := rfl
@[simp] theorem logRead_draws (off : Byte) (v : Word) : (s.logRead off v).draws = s.draws := rfl
@[simp] theorem logRead_frees (off : Byte) (v : Word) : (s.logRead off v).frees = s.frees := rfl
@[simp] theorem logRead_hostReads (off : Byte) (v : Word) : (s.logRead off v).hostReads = (s.hostReads ++ [⟨off, v⟩]) := rfl

/-! ## State.begin -/

@[simp] theorem begin_busy (todo : List Micro) (r : Result) : (s.begin todo r).busy = true := rfl
@[simp] theorem begin_done (todo : List Micro) (r : Result) : (s.begin todo r).done = s.done := rfl
@[simp] theorem begin_ack (todo : List Micro) (r : Result) : (s.begin todo r).ack = s.ack := rfl
@[simp] theorem begin_busInit (todo : List Micro) (r : Result) : (s.begin todo r).busInit = s.busInit := rfl
@[simp] theorem begin_stopPending (todo : List Micro) (r : Result) : (s.begin todo r).stopPending = s.stopPending := rfl
@[simp] theorem begin_phase (todo : List Micro) (r : Result) : (s.begin todo r).phase = s.phase := rfl
@[simp] theorem begin_dispInit (todo : List Micro) (r : Result) : (s.begin todo r).dispInit = s.dispInit := rfl
@[simp] theorem begin_rs (todo : List Micro) (r : Result) : (s.begin todo r).rs = s.rs := rfl
@[simp] theorem begin_tempValid (todo : List Micro) (r : Result) : (s.begin todo r).tempValid = s.tempValid := rfl
@[simp] theorem begin_err (todo : List Micro) (r : Result) : (s.begin todo r).err = s.err := rfl
@[simp] theorem begin_viol (todo : List Micro) (r : Result) : (s.begin todo r).viol = s.viol := rfl
@[simp] theorem begin_rxdata (todo : List Micro) (r : Result) : (s.begin todo r).rxdata = s.rxdata := rfl
@[simp] theorem begin_tempRaw (todo : List Micro) (r : Result) : (s.begin todo r).tempRaw = s.tempRaw := rfl
@[simp] theorem begin_cfgDiv (todo : List Micro) (r : Result) : (s.begin todo r).cfgDiv = s.cfgDiv := rfl
@[simp] theorem begin_cfgSaddr (todo : List Micro) (r : Result) : (s.begin todo r).cfgSaddr = s.cfgSaddr := rfl
@[simp] theorem begin_cfgSreg (todo : List Micro) (r : Result) : (s.begin todo r).cfgSreg = s.cfgSreg := rfl
@[simp] theorem begin_cfgTimeout (todo : List Micro) (r : Result) : (s.begin todo r).cfgTimeout = s.cfgTimeout := rfl
@[simp] theorem begin_cmd (todo : List Micro) (r : Result) : (s.begin todo r).cmd = s.cmd := rfl
@[simp] theorem begin_useq (todo : List Micro) (r : Result) : (s.begin todo r).useq = (some ⟨todo, r, 0#8, 0#8, none, []⟩) := rfl
@[simp] theorem begin_divActive (todo : List Micro) (r : Result) : (s.begin todo r).divActive = s.divActive := rfl
@[simp] theorem begin_pullup (todo : List Micro) (r : Result) : (s.begin todo r).pullup = s.pullup := rfl
@[simp] theorem begin_txd (todo : List Micro) (r : Result) : (s.begin todo r).txd = s.txd := rfl
@[simp] theorem begin_driven (todo : List Micro) (r : Result) : (s.begin todo r).driven = s.driven := rfl
@[simp] theorem begin_e (todo : List Micro) (r : Result) : (s.begin todo r).e = s.e := rfl
@[simp] theorem begin_d (todo : List Micro) (r : Result) : (s.begin todo r).d = s.d := rfl
@[simp] theorem begin_btrace (todo : List Micro) (r : Result) : (s.begin todo r).btrace = s.btrace := rfl
@[simp] theorem begin_dtrace (todo : List Micro) (r : Result) : (s.begin todo r).dtrace = s.dtrace := rfl
@[simp] theorem begin_hmem (todo : List Micro) (r : Result) : (s.begin todo r).hmem = s.hmem := rfl
@[simp] theorem begin_inbox (todo : List Micro) (r : Result) : (s.begin todo r).inbox = s.inbox := rfl
@[simp] theorem begin_dev (todo : List Micro) (r : Result) : (s.begin todo r).dev = s.dev := rfl
@[simp] theorem begin_draws (todo : List Micro) (r : Result) : (s.begin todo r).draws = s.draws := rfl
@[simp] theorem begin_frees (todo : List Micro) (r : Result) : (s.begin todo r).frees = s.frees := rfl
@[simp] theorem begin_hostReads (todo : List Micro) (r : Result) : (s.begin todo r).hostReads = s.hostReads := rfl

/-! ## State.withCfg (R33) -/

@[simp] theorem withCfg_busy (w : Word) : (s.withCfg w).busy = s.busy := rfl
@[simp] theorem withCfg_done (w : Word) : (s.withCfg w).done = s.done := rfl
@[simp] theorem withCfg_ack (w : Word) : (s.withCfg w).ack = s.ack := rfl
@[simp] theorem withCfg_busInit (w : Word) : (s.withCfg w).busInit = s.busInit := rfl
@[simp] theorem withCfg_stopPending (w : Word) : (s.withCfg w).stopPending = s.stopPending := rfl
@[simp] theorem withCfg_phase (w : Word) : (s.withCfg w).phase = s.phase := rfl
@[simp] theorem withCfg_dispInit (w : Word) : (s.withCfg w).dispInit = s.dispInit := rfl
@[simp] theorem withCfg_rs (w : Word) : (s.withCfg w).rs = s.rs := rfl
@[simp] theorem withCfg_tempValid (w : Word) : (s.withCfg w).tempValid = s.tempValid := rfl
@[simp] theorem withCfg_err (w : Word) : (s.withCfg w).err = s.err := rfl
@[simp] theorem withCfg_viol (w : Word) : (s.withCfg w).viol = s.viol := rfl
@[simp] theorem withCfg_rxdata (w : Word) : (s.withCfg w).rxdata = s.rxdata := rfl
@[simp] theorem withCfg_tempRaw (w : Word) : (s.withCfg w).tempRaw = s.tempRaw := rfl
@[simp] theorem withCfg_cfgDiv (w : Word) : (s.withCfg w).cfgDiv = (w.extractLsb' 0 8) := rfl
@[simp] theorem withCfg_cfgSaddr (w : Word) : (s.withCfg w).cfgSaddr = (w.extractLsb' 8 7) := rfl
@[simp] theorem withCfg_cfgSreg (w : Word) : (s.withCfg w).cfgSreg = (w.extractLsb' 16 8) := rfl
@[simp] theorem withCfg_cfgTimeout (w : Word) : (s.withCfg w).cfgTimeout = (w.extractLsb' 24 8) := rfl
@[simp] theorem withCfg_cmd (w : Word) : (s.withCfg w).cmd = s.cmd := rfl
@[simp] theorem withCfg_useq (w : Word) : (s.withCfg w).useq = s.useq := rfl
@[simp] theorem withCfg_divActive (w : Word) : (s.withCfg w).divActive = s.divActive := rfl
@[simp] theorem withCfg_pullup (w : Word) : (s.withCfg w).pullup = s.pullup := rfl
@[simp] theorem withCfg_txd (w : Word) : (s.withCfg w).txd = s.txd := rfl
@[simp] theorem withCfg_driven (w : Word) : (s.withCfg w).driven = s.driven := rfl
@[simp] theorem withCfg_e (w : Word) : (s.withCfg w).e = s.e := rfl
@[simp] theorem withCfg_d (w : Word) : (s.withCfg w).d = s.d := rfl
@[simp] theorem withCfg_btrace (w : Word) : (s.withCfg w).btrace = s.btrace := rfl
@[simp] theorem withCfg_dtrace (w : Word) : (s.withCfg w).dtrace = s.dtrace := rfl
@[simp] theorem withCfg_hmem (w : Word) : (s.withCfg w).hmem = s.hmem := rfl
@[simp] theorem withCfg_inbox (w : Word) : (s.withCfg w).inbox = s.inbox := rfl
@[simp] theorem withCfg_dev (w : Word) : (s.withCfg w).dev = s.dev := rfl
@[simp] theorem withCfg_draws (w : Word) : (s.withCfg w).draws = s.draws := rfl
@[simp] theorem withCfg_frees (w : Word) : (s.withCfg w).frees = s.frees := rfl
@[simp] theorem withCfg_hostReads (w : Word) : (s.withCfg w).hostReads = s.hostReads := rfl

end Sys2Proof.Machine
end

