-- ==== Sys2Proof/Laws/Engine.lean ====
section
/-! SUPPORT. What the shared operations can do, said once: the environment's draws, a bus wait, one engine step, a run
of the engine. The proofs about commands cite these instead of unfolding the operations. -/

namespace Sys2Proof.Machine

/-! ## Draws and waits -/

/-- A draw depends on the device's list and the counter alone. -/
theorem drawAt_congr {s t : State} (k : Nat) (hd : s.dev = t.dev) (hn : s.draws = t.draws) :
    s.drawAt k = t.drawAt k := by
  simp [State.drawAt, hd, hn]

/-- After one answer is used up the others move up. -/
@[simp] theorem drawAt_popDraw (s : State) (k : Nat) : s.popDraw.drawAt k = s.drawAt (k + 1) := by
  simp [State.drawAt, State.popDraw, Nat.add_assoc, Nat.add_comm 1 k]

/-- A bus wait that the device answers goes on with the answer. -/
theorem busWait_of_answers {s : State} (f : BusDraw → State → State) (h : s.answers 0) :
    s.busWait f = some (f (s.drawAt 0) s.popDraw) := by
  obtain ⟨h1, h2⟩ := h
  have hc : ¬(s.cfgTimeout ≠ 0#8 ∧ (s.nextDraw.hang = true ∨ s.nextDraw.early = true)) := by
    rintro ⟨ht, hh | he⟩
    · simp [State.nextDraw, h1] at hh
    · rcases h2 with h2 | h2
      · exact ht h2
      · simp [State.nextDraw, h2] at he
  simp only [State.busWait, if_neg hc]
  simp [State.nextDraw, h1]

/-- A bus wait with the timeout enabled and due is abandoned. -/
theorem busWait_of_timeout {s : State} (f : BusDraw → State → State) (ht : s.cfgTimeout ≠ 0#8)
    (h : (s.drawAt 0).hang = true ∨ (s.drawAt 0).early = true) :
    s.busWait f = some s.popDraw.timeout := by
  simp [State.busWait, State.nextDraw, ht, h]

/-- A hang with no timeout enables no step. -/
theorem busWait_of_hang {s : State} (f : BusDraw → State → State) (ht : s.cfgTimeout = 0#8)
    (h : (s.drawAt 0).hang = true) : s.busWait f = none := by
  simp [State.busWait, State.nextDraw, ht, h]

/-- All that a bus wait can do. -/
theorem busWait_cases {s t : State} {f : BusDraw → State → State} (h : s.busWait f = some t) :
    t = s.popDraw.timeout ∨ t = f (s.drawAt 0) s.popDraw := by
  unfold State.busWait at h
  split at h
  · exact .inl (Option.some.inj h).symm
  · split at h
    · cases h
    · exact .inr (Option.some.inj h).symm

/-- The step of R119 where it is enabled. -/
theorem stopStep_performs {s : State} (hp : s.stopPending = true) (hd : (s.drawAt 0).hang = false) :
    s.stopStep = s.stopPerformed := by
  simp [State.stopStep, State.nextDraw, hp, hd]

/-- The step of R119 where it is not enabled. -/
theorem stopStep_waits {s : State} (h : s.stopPending = false ∨ (s.drawAt 0).hang = true) :
    s.stopStep = s := by
  rcases h with h | h <;> simp [State.stopStep, State.nextDraw, h]

/-- All that the step of R119 can do. -/
theorem stopStep_cases (s : State) :
    s.stopStep = s ∨ (s.stopPending = true ∧ (s.drawAt 0).hang = false ∧ s.stopStep = s.stopPerformed) := by
  by_cases h : s.stopPending = true ∧ (s.drawAt 0).hang = false
  · exact .inr ⟨h.1, h.2, stopStep_performs h.1 h.2⟩
  · refine .inl (stopStep_waits ?_)
    rcases hp : s.stopPending
    · exact .inl rfl
    · rcases hd : (s.drawAt 0).hang
      · exact absurd ⟨hp, hd⟩ h
      · exact .inr rfl

/-! ## Runs of the engine -/

@[simp] theorem engineRun_zero (s : State) : State.engineRun 0 s = s := rfl

theorem engineRun_of_none {s : State} (h : s.engineStep = none) (n : Nat) :
    State.engineRun n s = s := by
  cases n <;> simp [State.engineRun, h]

theorem engineRun_of_some {s t : State} (h : s.engineStep = some t) (n : Nat) :
    State.engineRun (n + 1) s = State.engineRun n t := by
  simp [State.engineRun, h]

/-- With no command executing the engine has no step. -/
theorem engineStep_idle {s : State} (h : s.useq = none) : s.engineStep = none := by
  simp [State.engineStep, h]

theorem engineRun_idle {s : State} (h : s.useq = none) (n : Nat) : State.engineRun n s = s :=
  engineRun_of_none (engineStep_idle h) n

/-- What every engine step keeps, a run keeps. -/
theorem engineRun_induct {P : State → Prop} (hs : ∀ s t, P s → s.engineStep = some t → P t) :
    ∀ (n : Nat) (s : State), P s → P (State.engineRun n s)
  | 0, _, h => h
  | n + 1, s, h => by
    cases he : s.engineStep with
    | none => rw [engineRun_of_none he]; exact h
    | some t => rw [engineRun_of_some he]; exact engineRun_induct hs n t (hs s t h he)

/-- A step with the engine at the head of its list. -/
theorem engineStep_perform {s : State} {u : Useq} {m : Micro} {rest : List Micro}
    (hu : s.useq = some u) (ht : u.timer = none) (hm : u.todo = m :: rest) :
    s.engineStep = s.perform m { u with todo := rest } := by
  simp [State.engineStep, hu, ht, hm]

/-- A step with nothing left to do finishes. -/
theorem engineStep_finish {s : State} {u : Useq} (hu : s.useq = some u) (ht : u.timer = none)
    (hm : u.todo = []) : s.engineStep = some (s.finish u.result) := by
  simp [State.engineStep, hu, ht, hm]

/-- All that an engine step can do. -/
theorem engineStep_cases {s t : State} (h : s.engineStep = some t) :
    ∃ u, s.useq = some u ∧
      ((∃ w, u.timer = some w ∧ t = { s with useq := some { u with timer := none } }) ∨
        (u.timer = none ∧ u.todo = [] ∧ t = s.finish u.result) ∨
        (u.timer = none ∧ ∃ m rest, u.todo = m :: rest ∧
          s.perform m { u with todo := rest } = some t)) := by
  cases hu : s.useq with
  | none => simp [State.engineStep, hu] at h
  | some u =>
    refine ⟨u, rfl, ?_⟩
    rcases Option.eq_none_or_eq_some u.timer with ht | ⟨w, ht⟩
    · rcases hm : u.todo with _ | ⟨m, rest⟩
      · rw [engineStep_finish hu ht hm] at h
        exact .inr (.inl ⟨ht, rfl, (Option.some.inj h).symm⟩)
      · rw [engineStep_perform hu ht hm] at h
        exact .inr (.inr ⟨ht, m, rest, rfl, h⟩)
    · simp only [State.engineStep, hu, ht, Option.some.injEq] at h
      exact .inl ⟨w, ht, h.symm⟩

/-! ## Steps that ask nobody -/

/-- The steps whose effect depends on the state alone: no answer of the device, no text, no local variable. -/
def Micro.isPlain : Micro → Bool
  | .enableBus => true
  | .clearDone => true
  | .loadTx _ => true
  | .addressPhase _ => true
  | .setPhase _ => true
  | .issueStop => true
  | .driveLines => true
  | .nibRise _ _ => true
  | .nibFall => true
  | .wait _ => true
  | .displayReady => true
  | _ => false

/-- The engine steps a plain step takes: a wait also takes the delay timer's. -/
def Micro.cost : Micro → Nat
  | .wait _ => 2
  | _ => 1

/-- The effect of a plain step, but for the engine's position. -/
def State.applyPlain (s : State) : Micro → State
  | .enableBus => { s with pullup := true, divActive := s.cfgDiv, busInit := true, phase := .idle }
  | .clearDone => { s with done := false }
  | .loadTx b => { s with txd := b }
  | .addressPhase b => { s with phase := if s.phase = .addr then phaseOfAddress b else s.phase }
  | .setPhase p => { s with phase := p }
  | .issueStop => { s with done := false, phase := .idle, stopPending := true }
  | .driveLines => { s with driven := true, e := false, rs := false, d := 0#4 }
  | .nibRise rs n => { s with rs := rs, d := n, e := true }
  | .nibFall => { s with dtrace := s.dtrace ++ [.nib s.rs s.d], e := false }
  | .wait t => { s with dtrace := s.dtrace ++ [.wait t] }
  | .displayReady => { s with dispInit := true }
  | _ => s

/-- A list of plain steps is run by applying them in order. -/
theorem engineRun_plain (rest : List Micro) (r : Result) (hi lo : Byte) (st : List Host.Cell) (n : Nat) :
    ∀ (l : List Micro) (s : State), l.all Micro.isPlain = true →
      State.engineRun ((l.map Micro.cost).sum + n)
          { s with useq := some ⟨l ++ rest, r, hi, lo, none, st⟩ } =
        State.engineRun n
          { l.foldl State.applyPlain s with useq := some ⟨rest, r, hi, lo, none, st⟩ }
  | [], s, _ => by simp
  | m :: l, s, h => by
    simp only [List.all_cons, Bool.and_eq_true] at h
    have ih := engineRun_plain rest r hi lo st n l (s.applyPlain m) h.2
    rw [List.foldl_cons, ← ih]
    cases m <;> simp [Micro.isPlain] at h <;>
      simp [Micro.cost, Nat.add_comm, State.engineRun,
        State.engineStep, State.perform, State.applyPlain, State.emitDisp]

/-- A command made of plain steps, with time to complete. -/
theorem engineRun_plain_finish {l : List Micro} {s : State} {r : Result} {hi lo : Byte}
    {st : List Host.Cell} {n : Nat} (hl : l.all Micro.isPlain = true)
    (hn : (l.map Micro.cost).sum + 1 ≤ n) :
    State.engineRun n { s with useq := some ⟨l, r, hi, lo, none, st⟩ } =
      (l.foldl State.applyPlain s).finish r := by
  obtain ⟨k, rfl⟩ := Nat.exists_eq_add_of_le hn
  have h := engineRun_plain [] r hi lo st (1 + k) l s hl
  rw [List.append_nil] at h
  rw [Nat.add_assoc, h, Nat.add_comm 1 k,
    engineRun_of_some (engineStep_finish (u := ⟨[], r, hi, lo, none, st⟩) rfl rfl rfl),
    engineRun_idle (by rfl)]
  rfl

/-! ## Acceptance and start -/

/-- An accepted command goes on with its word in `S.cmd`. -/
theorem accept_ok {s : State} {i : Instr} {go : State → State} (hb : s.busy = false)
    (hu : s.unitReady i = true) (hp : phaseTable s.phase i ≠ none) :
    s.accept i go = .next (go { s with cmd := some (encode i) }) := by
  simp [State.accept, hb, hu, hp]

/-- All that acceptance can do. -/
theorem accept_cases {s t : State} {i : Instr} {go : State → State} (h : s.accept i go = .next t) :
    (s.busy = true ∧ t = s.raise .overrun) ∨
    (s.busy = false ∧ s.unitReady i = false ∧ t = s.raise .notInit) ∨
    (s.busy = false ∧ s.unitReady i = true ∧ phaseTable s.phase i = none ∧ t = s.raise .sequence) ∨
    (s.busy = false ∧ s.unitReady i = true ∧ phaseTable s.phase i ≠ none ∧
      t = go { s with cmd := some (encode i) }) := by
  unfold State.accept at h
  split at h
  · next hb => exact .inl ⟨hb, (Host.Outcome.next.inj h).symm⟩
  · next hb =>
    have hb : s.busy = false := by simpa using hb
    split at h
    · next hu => exact .inr (.inl ⟨hb, hu, (Host.Outcome.next.inj h).symm⟩)
    · next hu =>
      have hu : s.unitReady i = true := by simpa using hu
      split at h
      · next hp => exact .inr (.inr (.inl ⟨hb, hu, hp, (Host.Outcome.next.inj h).symm⟩))
      · next hp => exact .inr (.inr (.inr ⟨hb, hu, hp, (Host.Outcome.next.inj h).symm⟩))

/-- The time a command has depends on the inputs alone. -/
theorem room_congr {s t : State} (h : s.inbox = t.inbox) : s.room = t.room := by
  simp [State.room, h]

/-- Starting a command is running the engine from the head of its steps. -/
theorem launch_eq (s : State) (todo : List Micro) (r : Result) :
    s.launch todo r = (State.engineRun s.room (s.begin todo r)).inputDue := rfl

theorem launchBus_eq (s : State) (todo : List Micro) :
    s.launchBus todo =
      (State.engineRun s.room (State.begin { s with done := false } todo .ok)).inputDue := rfl

/-- A command made of plain steps, started with time to complete. -/
theorem launch_plain {l : List Micro} {s : State} {r : Result} (hl : l.all Micro.isPlain = true)
    (hn : (l.map Micro.cost).sum + 1 ≤ s.room) :
    s.launch l r = ((l.foldl State.applyPlain { s with busy := true }).finish r).inputDue := by
  rw [launch_eq, ← engineRun_plain_finish (hi := 0#8) (lo := 0#8) (st := []) hl hn]
  rfl

end Sys2Proof.Machine
end

