-- ==== Sys2Proof/Laws/Exec.lean ====
section
/-! SUPPORT. One view of all commands: acceptance, then a list of engine steps (or, for BUS_STOP, its whole effect). And
what a step of the machine does with the input that is due. -/

namespace Sys2Proof.Machine

/-- The transaction of TEMP_READ, step by step (R201). -/
theorem readSteps_flat (saddr : BitVec 7) (sreg : Byte) :
    readSteps saddr sreg =
      [.drainStop, .startCond false,
        .clearDone, .loadTx (addressByte saddr false), .transmit (addressByte saddr false), .setPhase .tx,
        .clearDone, .loadTx sreg, .transmit sreg,
        .clearDone, .startCond true,
        .clearDone, .loadTx (addressByte saddr true), .transmit (addressByte saddr true), .setPhase .rx,
        .clearDone, .receive true, .keepHi,
        .clearDone, .receive false, .keepLo, .setPhase .rxEnd,
        .issueStop, .assemble] := rfl

/-- The engine steps of a command, from the state it was accepted in; BUS_STOP has none. -/
def planOf (i : Instr) (s : State) : List Micro :=
  match i with
  | .busInit => [.drainStop, .enableBus]
  | .busStart => [.drainStop, .startCond (decide (s.phase ≠ .idle))]
  | .busStop => []
  | .busSend b => [.drainStop, .loadTx b, .transmit b, .addressPhase b]
  | .busReadAck => [.drainStop, .receive true]
  | .busReadNack => [.drainStop, .receive false, .setPhase .rxEnd]
  | .dispInit => powerOnSteps
  | .dispCmd b => xferSteps false b
  | .dispChar b => xferSteps true b
  | .dispClear => xferSteps false cmdClear ++ [.wait Config.tClear]
  | .dispHome => xferSteps false cmdHome
  | .dispGoto col row =>
    if offDisplay col row then [] else xferSteps false (setCursor (rowAddr col row))
  | .dispText addr => [.text addr]
  | .dispHex imm =>
    if overflowsBuffer (hexstr (hexOperand imm)) then []
    else (hexstr (hexOperand imm)).flatMap (xferSteps true)
  | .dispInt imm =>
    if overflowsBuffer (decstr (intOperand imm)) then []
    else (decstr (intOperand imm)).flatMap (xferSteps true)
  | .tempRead => readSteps s.cfgSaddr s.cfgSreg

/-- The result a command starts with. -/
def resultOf (i : Instr) : Result :=
  match i with
  | .dispGoto col row => if offDisplay col row then .dispRange else .ok
  | .dispHex imm => if overflowsBuffer (hexstr (hexOperand imm)) then .fmtOverflow else .ok
  | .dispInt imm => if overflowsBuffer (decstr (intOperand imm)) then .fmtOverflow else .ok
  | _ => .ok

/-- The state an accepted command starts in: its word in `S.cmd`, and DONE cleared for the commands that use the
bus (R24). -/
def State.accepted (s : State) (i : Instr) : State :=
  { s with
    cmd := some (encode i)
    done := if i.unit = .lcd then s.done else false }

@[simp] theorem accepted_room (s : State) (i : Instr) : (s.accepted i).room = s.room := rfl

/-- What an accepted command does. -/
def bodyOf (i : Instr) (s : State) : State :=
  match i with
  | .busStop =>
    State.finish
      { s.accepted .busStop with phase := .idle, stopPending := true } .ok
  | i => (s.accepted i).launch (planOf i s) (resultOf i)

/-- An accepted command, other than BUS_STOP, is a run of the engine over its steps. -/
theorem bodyOf_eq_run {i : Instr} (h : i ≠ .busStop) (s : State) :
    bodyOf i s =
      (State.engineRun s.room ((s.accepted i).begin (planOf i s) (resultOf i))).inputDue := by
  cases i <;> first | exact absurd rfl h | rfl

/-- Every meaning is acceptance and then what its body does to the state with the word in `S.cmd`. -/
theorem exec_eq_accept (i : Instr) (s : State) :
    ∃ go : State → State, exec i s = s.accept i go ∧
      go { s with cmd := some (encode i) } = bodyOf i s := by
  cases i with
  | busInit => exact ⟨_, by unfold exec execBusInit; rfl, rfl⟩
  | busStart => exact ⟨_, by unfold exec execBusStart; rfl, rfl⟩
  | busStop => exact ⟨_, by unfold exec execBusStop; rfl, rfl⟩
  | busSend b => exact ⟨_, by unfold exec execBusSend; rfl, rfl⟩
  | busReadAck => exact ⟨_, by unfold exec execBusReadAck; rfl, rfl⟩
  | busReadNack => exact ⟨_, by unfold exec execBusReadNack; rfl, rfl⟩
  | dispInit => exact ⟨_, by unfold exec execDispInit; rfl, rfl⟩
  | dispCmd b => exact ⟨_, by unfold exec execDispCmd; rfl, rfl⟩
  | dispChar b => exact ⟨_, by unfold exec execDispChar; rfl, rfl⟩
  | dispClear => exact ⟨_, by unfold exec execDispClear; rfl, rfl⟩
  | dispHome => exact ⟨_, by unfold exec execDispHome; rfl, rfl⟩
  | dispGoto col row =>
    refine ⟨_, by unfold exec execDispGoto; rfl, ?_⟩
    by_cases h : offDisplay col row = true <;> simp only [bodyOf, planOf, resultOf, h] <;> rfl
  | dispText addr => exact ⟨_, by unfold exec execDispText; rfl, rfl⟩
  | dispHex imm =>
    refine ⟨_, by unfold exec execDispHex; rfl, ?_⟩
    by_cases h : overflowsBuffer (hexstr (hexOperand imm)) = true <;>
      simp only [bodyOf, planOf, resultOf, State.launchFormatted, h] <;> rfl
  | dispInt imm =>
    refine ⟨_, by unfold exec execDispInt; rfl, ?_⟩
    by_cases h : overflowsBuffer (decstr (intOperand imm)) = true <;>
      simp only [bodyOf, planOf, resultOf, State.launchFormatted, h] <;> rfl
  | tempRead => exact ⟨_, by unfold exec execTempRead; rfl, rfl⟩

/-- A refused command changes VIOL only; an accepted one does what its body does (R222). -/
theorem exec_cases {i : Instr} {s t : State} (h : exec i s = .next t) :
    (s.busy = true ∧ t = s.raise .overrun) ∨
    (s.busy = false ∧ s.unitReady i = false ∧ t = s.raise .notInit) ∨
    (s.busy = false ∧ s.unitReady i = true ∧ phaseTable s.phase i = none ∧ t = s.raise .sequence) ∨
    (s.busy = false ∧ s.unitReady i = true ∧ phaseTable s.phase i ≠ none ∧ t = bodyOf i s) := by
  obtain ⟨go, he, hg⟩ := exec_eq_accept i s
  rw [← hg]
  exact accept_cases (he ▸ h)

/-- Every command answers a next state. -/
theorem exec_next (i : Instr) (s : State) : ∃ t, exec i s = .next t := by
  obtain ⟨go, he, -⟩ := exec_eq_accept i s
  rw [he]
  unfold State.accept
  split
  · exact ⟨_, rfl⟩
  · split
    · exact ⟨_, rfl⟩
    · split <;> exact ⟨_, rfl⟩

/-- A command whose checks pass does what its body does. -/
theorem exec_accepted {i : Instr} {s : State} (hb : s.busy = false) (hu : s.unitReady i = true)
    (hp : phaseTable s.phase i ≠ none) : exec i s = .next (bodyOf i s) := by
  obtain ⟨t, ht⟩ := exec_next i s
  rcases exec_cases ht with h | h | h | h
  · simp [hb] at h
  · simp [hu] at h
  · exact absurd h.2.2.1 hp
  · rw [ht, h.2.2.2]

/-- A command that uses the bus needs BUS_INIT only (R222). -/
theorem unitReady_bus {s : State} {i : Instr} (h : s.busInit = true) (hi : i.unit ≠ .lcd) :
    s.unitReady i = true := by
  cases i <;> simp_all [State.unitReady, Instr.unit]

/-- A display command needs DISP_INIT only (R222). -/
theorem unitReady_lcd {s : State} {i : Instr} (h : s.dispInit = true) (hi : i.unit = .lcd) :
    s.unitReady i = true := by
  cases i <;> simp_all [State.unitReady, Instr.unit]

/-- Display commands are accepted in every phase (R103, R146). -/
theorem phaseTable_lcd {i : Instr} (p : Phase) (hi : i.unit = .lcd) : phaseTable p i = some p := by
  cases i <;> simp_all [phaseTable, Instr.unit]

/-- The step in which an input is due delivers it. -/
theorem step_due {s : State} {i : Input} {rest : List Arrival} (h : s.inbox = ⟨0, i⟩ :: rest) :
    step s = State.deliver { s with inbox := rest } i := by
  simp [step, State.advance, h]

/-- The step in which no input is due moves the agents of LM92TC. -/
theorem step_alone {s : State} (h : s.inbox = []) : step s = .next s.alone := by
  simp [step, State.advance, h]

/-- The moves with no input waiting, where a pending stop comes first (R119; log 11). -/
theorem alone_performs {s : State} (hp : s.stopPending = true) (hd : (s.drawAt 0).hang = false) :
    s.alone = s.stopPerformed := by
  simp [State.alone, State.nextDraw, hp, hd, stopStep_performs]

/-- With no stop to perform the engine goes on. -/
theorem alone_waits {s : State} (h : s.stopPending = false ∨ (s.drawAt 0).hang = true) :
    s.alone = s.burst := by
  rcases h with h | h <;> simp [State.alone, State.nextDraw, h]

/-- With no command executing the engine does nothing until the next input is due. -/
theorem burst_idle {s : State} (h : s.useq = none) : s.burst = s.inputDue := by
  rw [State.burst, engineRun_idle h]

theorem step_early {s : State} {n : Nat} {i : Input} {rest : List Arrival}
    (h : s.inbox = ⟨n + 1, i⟩ :: rest) : step s = .next s.burst := by
  simp [step, State.advance, h]

/-- All that a step of the machine can do. -/
theorem step_cases {s t : State} (h : step s = .next t) :
    (s.inbox = [] ∧ t = s.alone) ∨
    (∃ n i rest, s.inbox = ⟨n + 1, i⟩ :: rest ∧ t = s.burst) ∨
    (∃ i rest, s.inbox = ⟨0, i⟩ :: rest ∧ State.deliver { s with inbox := rest } i = .next t) := by
  rcases hi : s.inbox with _ | ⟨⟨_ | n, i⟩, rest⟩
  · rw [step_alone hi] at h
    exact .inl ⟨rfl, (Host.Outcome.next.inj h).symm⟩
  · rw [step_due hi] at h
    exact .inr (.inr ⟨i, rest, rfl, h⟩)
  · rw [step_early hi] at h
    exact .inr (.inl ⟨n, i, rest, rfl, (Host.Outcome.next.inj h).symm⟩)

/-- All that a submitted word can do (R222). -/
theorem submit_cases {s t : State} {w : Word} (h : s.submit w = .next t) :
    (s.busy = true ∧ t = s.raise .overrun) ∨
    (s.busy = false ∧ decode w = none ∧ t = s.raise .illegalCmd) ∨
    (s.busy = false ∧ ∃ i, decode w = some i ∧ exec i s = .next t) := by
  unfold State.submit at h
  split at h
  · next hb => exact .inl ⟨hb, (Host.Outcome.next.inj h).symm⟩
  · next hb =>
    have hb : s.busy = false := by simpa using hb
    split at h
    · next hd => exact .inr (.inl ⟨hb, hd, (Host.Outcome.next.inj h).symm⟩)
    · next i hd => exact .inr (.inr ⟨hb, i, hd, h⟩)

/-- All that a host write can do: a submission at the offset of CMD, a change of CFG at its offset, or a refusal
(R50 to R54). -/
theorem hostWrite_cases {s t : State} {width : Nat} {off : Byte} {w : Word}
    (h : s.hostWrite width off w = .next t) :
    (width = 32 ∧ off = 0x00#8 ∧ s.submit w = .next t) ∨
    (width = 32 ∧ off = 0x10#8 ∧ s.busy = false ∧ t = s.withCfg w) ∨ (∃ v, t = s.raise v) := by
  have reg : ∀ r, regAt width off = some r → width = 32 ∧ off = regOffset r := fun r hr => by
    unfold regAt at hr
    repeat' split at hr
    all_goals cases hr
    all_goals exact ⟨‹_›, ‹_›⟩
  unfold State.hostWrite at h
  split at h
  · next hr => exact .inl ⟨(reg _ hr).1, (reg _ hr).2, h⟩
  · next hr =>
    unfold State.writeCfg at h
    split at h
    · exact .inr (.inr ⟨_, (Host.Outcome.next.inj h).symm⟩)
    · next hb =>
      exact .inr (.inl ⟨(reg _ hr).1, (reg _ hr).2, by simpa using hb, (Host.Outcome.next.inj h).symm⟩)
  all_goals exact .inr (.inr ⟨_, (Host.Outcome.next.inj h).symm⟩)

/-- All that an input can do. -/
theorem deliver_cases {s t : State} {i : Input} (h : s.deliver i = .next t) :
    (∃ width off, i = .read width off ∧ t = s.hostRead width off) ∨
    (∃ width off w, i = .write width off w ∧ s.hostWrite width off w = .next t) ∨
    (∃ a b, i = .poke a b ∧ t = s.poke a b) ∨
    (i = .wait ∧ t = s.poll) ∨
    (i = .stopStep ∧ t = s.stopStep) ∨
    (i = .reset ∧ t = s.resetEvent) := by
  cases i with
  | read width off => exact .inl ⟨width, off, rfl, (Host.Outcome.next.inj h).symm⟩
  | write width off w => exact .inr (.inl ⟨width, off, w, rfl, h⟩)
  | poke a b => exact .inr (.inr (.inl ⟨a, b, rfl, (Host.Outcome.next.inj h).symm⟩))
  | wait => exact .inr (.inr (.inr (.inl ⟨rfl, (Host.Outcome.next.inj h).symm⟩)))
  | stopStep => exact .inr (.inr (.inr (.inr (.inl ⟨rfl, (Host.Outcome.next.inj h).symm⟩))))
  | reset => exact .inr (.inr (.inr (.inr (.inr ⟨rfl, (Host.Outcome.next.inj h).symm⟩))))

end Sys2Proof.Machine
end

