-- ==== Sys2Proof/Laws/Answered.lean ====
section
/-! SUPPORT. The runs in which the device answers every request: the engine's steps applied in order, with the local
variables of the pseudocode beside the state. -/

namespace Sys2Proof.Machine

/-- The pseudocode's local variables (R201). -/
structure Locals where
  result : Result
  hi : Byte
  lo : Byte

/-- The effect of a step whose request, if it makes one, the device answers; DISP_TEXT's loop is not among them. -/
def applyStep (p : State × Locals) (m : Micro) : State × Locals :=
  let (s, l) := p
  match m with
  | .drainStop => (if s.stopPending then s.stopPerformed else s, l)
  | .startCond rep =>
    ({ s.popDraw with btrace := s.btrace ++ [.start rep], phase := .addr, done := true }, l)
  | .transmit b =>
    ({ s.popDraw with
        btrace := s.btrace ++ [.tx b (s.drawAt 0).ack], ack := (s.drawAt 0).ack, done := true },
      { l with result := resultAfter l.result (s.drawAt 0).ack })
  | .receive mack =>
    ({ s.popDraw with
        btrace := s.btrace ++ [.rx (s.drawAt 0).data mack], rxdata := (s.drawAt 0).data, done := true }, l)
  | .keepHi => (s, { l with hi := s.rxdata })
  | .keepLo => (s, { l with lo := s.rxdata })
  | .assemble =>
    ({ s with tempRaw := assembleWord l.hi l.lo, tempValid := decide (l.result = .ok) }, l)
  | m => (s.applyPlain m, l)

/-- How many requests a list of steps makes, a pending stop among them. -/
def asks : Bool → List Micro → Nat
  | _, [] => 0
  | sp, .drainStop :: r => (if sp then 1 else 0) + asks false r
  | _, .issueStop :: r => asks true r
  | sp, .startCond _ :: r => 1 + asks sp r
  | sp, .transmit _ :: r => 1 + asks sp r
  | sp, .receive _ :: r => 1 + asks sp r
  | sp, _ :: r => asks sp r

/-- The steps other than DISP_TEXT's loop. -/
def Micro.noText : Micro → Bool
  | .text _ => false
  | _ => true

/-- The engine at a position given by its steps and local variables. -/
def State.at (s : State) (todo : List Micro) (l : Locals) (st : List Host.Cell) : State :=
  { s with useq := some ⟨todo, l.result, l.hi, l.lo, none, st⟩ }

theorem answers_congr {s t : State} (k : Nat) (hd : s.dev = t.dev) (hn : s.draws = t.draws)
    (hc : s.cfgTimeout = t.cfgTimeout) : s.answers k ↔ t.answers k := by
  simp [State.answers, drawAt_congr k hd hn, hc]

theorem answers_popDraw (s : State) (k : Nat) : s.popDraw.answers k ↔ s.answers (k + 1) := by
  simp [State.answers]

/-- A step that asks the device something, and is answered. -/
theorem engineStep_asks {s : State} {m : Micro} {rest : List Micro} {l : Locals} {st : List Host.Cell}
    (hm : m.isPlain = false) (ht : m.noText = true) (ha : m.asksDevice s.stopPending = true → s.answers 0) :
    (s.at (m :: rest) l st).engineStep =
      some ((applyStep (s, l) m).1.at rest (applyStep (s, l) m).2 st) := by
  rw [engineStep_perform (u := ⟨m :: rest, l.result, l.hi, l.lo, none, st⟩) rfl rfl rfl]
  have hb : ∀ (f : BusDraw → State → State), s.answers 0 →
      State.busWait { s with useq := some ⟨rest, l.result, l.hi, l.lo, none, st⟩ } f =
        some (f (s.drawAt 0) (State.popDraw { s with useq := some ⟨rest, l.result, l.hi, l.lo, none, st⟩ })) :=
    fun f h => busWait_of_answers f ((answers_congr 0 rfl rfl rfl).mp h)
  cases m with
  | drainStop =>
    by_cases hs : s.stopPending = true
    · have := hb (fun _ t => { t.emitBus .stop with stopPending := false }) (ha (by simp [Micro.asksDevice, hs]))
      simp only [State.perform, State.at, hs, if_true, applyStep]
      exact this
    · have hs : s.stopPending = false := by simpa using hs
      simp [State.perform, State.at, applyStep, hs]
  | startCond rep =>
    simp only [State.perform, State.at]
    rw [hb _ (ha rfl)]
    rfl
  | transmit b =>
    simp only [State.perform, State.at]
    rw [hb _ (ha rfl)]
    rfl
  | receive mack =>
    simp only [State.perform, State.at]
    rw [hb _ (ha rfl)]
    rfl
  | keepHi => rfl
  | keepLo => rfl
  | assemble => rfl
  | text a => cases ht
  | _ => cases hm

theorem applyStep_asks (s : State) (l : Locals) (m : Micro) (r : List Micro)
    (h : ∀ k < asks s.stopPending (m :: r), s.answers k) :
    (m.asksDevice s.stopPending = true → s.answers 0) ∧
      ∀ k < asks (applyStep (s, l) m).1.stopPending r, (applyStep (s, l) m).1.answers k := by
  have pop : ∀ t : State, t.dev = s.dev.tail → t.draws = s.draws + 1 → t.cfgTimeout = s.cfgTimeout →
      ∀ k, s.answers (k + 1) → t.answers k := fun t h1 h2 h3 k hk =>
    (answers_congr (s := s.popDraw) k h1.symm h2.symm h3.symm).mp ((answers_popDraw s k).mpr hk)
  have keep : ∀ t : State, t.dev = s.dev → t.draws = s.draws → t.cfgTimeout = s.cfgTimeout →
      ∀ k, s.answers k → t.answers k := fun t h1 h2 h3 k hk =>
    (answers_congr k h1.symm h2.symm h3.symm).mp hk
  cases m
  case drainStop =>
    by_cases hs : s.stopPending = true
    · simp only [asks, hs, if_true] at h
      refine ⟨fun _ => h 0 (by omega), fun k hk => ?_⟩
      simp only [applyStep, hs, if_true, stopPerformed_stopPending] at hk ⊢
      exact pop s.stopPerformed rfl rfl rfl k (h (k + 1) (by omega))
    · simp only [asks, hs, if_false, Bool.false_eq_true] at h
      refine ⟨fun h' => absurd h' hs, fun k hk => ?_⟩
      simp only [applyStep, hs, if_false, Bool.false_eq_true] at hk ⊢
      exact h k (by omega)
  case startCond rep =>
    exact ⟨fun _ => h 0 (by simp only [asks]; omega),
      fun k hk => pop (applyStep (s, l) (.startCond rep)).1 rfl rfl rfl k (h (k + 1) (by simp only [asks, applyStep, popDraw_stopPending] at hk ⊢; omega))⟩
  case transmit b =>
    exact ⟨fun _ => h 0 (by simp only [asks]; omega),
      fun k hk => pop (applyStep (s, l) (.transmit b)).1 rfl rfl rfl k (h (k + 1) (by simp only [asks, applyStep, popDraw_stopPending] at hk ⊢; omega))⟩
  case receive mack =>
    exact ⟨fun _ => h 0 (by simp only [asks]; omega),
      fun k hk => pop (applyStep (s, l) (.receive mack)).1 rfl rfl rfl k (h (k + 1) (by simp only [asks, applyStep, popDraw_stopPending] at hk ⊢; omega))⟩
  all_goals exact ⟨fun h' => (by cases h'), fun k hk => keep _ rfl rfl rfl k (h k hk)⟩

/-- A list of steps whose requests the device answers is run by applying them in order. -/
theorem engineRun_answered (rest : List Micro) (st : List Host.Cell) (n : Nat) :
    ∀ (l : List Micro) (s : State) (v : Locals), l.all Micro.noText = true →
      (∀ k < asks s.stopPending l, s.answers k) →
      State.engineRun ((l.map Micro.cost).sum + n) (s.at (l ++ rest) v st) =
        State.engineRun n ((l.foldl applyStep (s, v)).1.at rest (l.foldl applyStep (s, v)).2 st)
  | [], s, v, _, _ => by simp
  | m :: l, s, v, ht, ha => by
    simp only [List.all_cons, Bool.and_eq_true] at ht
    obtain ⟨h0, h1⟩ := applyStep_asks s v m l ha
    have ih := engineRun_answered rest st n l (applyStep (s, v) m).1 (applyStep (s, v) m).2 ht.2 h1
    rw [List.foldl_cons, ← ih]
    by_cases hp : m.isPlain = true
    · have := engineRun_plain (l ++ rest) v.result v.hi v.lo st ((l.map Micro.cost).sum + n) [m] s
        (by simp [hp])
      have he : applyStep (s, v) m = (s.applyPlain m, v) := by
        cases m <;> first | rfl | cases hp
      rw [he]
      rw [List.map_cons, List.map_nil, List.sum_cons, List.sum_nil, Nat.add_zero] at this
      rw [List.map_cons, List.sum_cons, Nat.add_assoc]
      exact this
    · have hp : m.isPlain = false := by simpa using hp
      have hc : m.cost = 1 := by cases m <;> first | rfl | cases hp
      rw [List.map_cons, List.sum_cons, hc, Nat.add_assoc, Nat.add_comm 1, List.cons_append,
        engineRun_of_some (engineStep_asks hp ht.1 h0)]

/-- A command whose requests the device answers, with time to complete. -/
theorem launch_answered {l : List Micro} {s : State} {r : Result} (ht : l.all Micro.noText = true)
    (ha : ∀ k < asks s.stopPending l, s.answers k) (hn : (l.map Micro.cost).sum + 1 ≤ s.room) :
    s.launch l r =
      ((l.foldl applyStep ({ s with busy := true }, ⟨r, 0#8, 0#8⟩)).1.finish
        (l.foldl applyStep ({ s with busy := true }, ⟨r, 0#8, 0#8⟩)).2.result).inputDue := by
  obtain ⟨k, hk⟩ := Nat.exists_eq_add_of_le hn
  have h := engineRun_answered [] [] (1 + k) l { s with busy := true } ⟨r, 0#8, 0#8⟩ ht
    (fun k hk => (answers_congr k rfl rfl rfl).mp (ha k hk))
  rw [launch_eq, hk, Nat.add_assoc]
  rw [List.append_nil] at h
  have hb : s.begin l r = State.at { s with busy := true } l ⟨r, 0#8, 0#8⟩ [] := rfl
  rw [hb, h, Nat.add_comm 1 k,
    engineRun_of_some (engineStep_finish (u := ⟨[], _, _, _, none, []⟩) rfl rfl rfl),
    engineRun_idle (by rfl)]
  rfl

end Sys2Proof.Machine
end

