-- ==== Sys2Proof/Laws/Decode.lean ====
section
/-! SUPPORT. The opcode map: every row fixes bits 31:24, no two rows alike, so a word is covered by one row at most,
and what decodes is what the row that covers it builds. -/

namespace Sys2Proof

theorem covers_iff (r : Row) (w : Word) : r.covers w = true ↔ w &&& r.mask = r.value := by
  simp [Row.covers]

/-- The decoding loop, one row at a time (R85). -/
theorem find_row (rs : List Row) (r : Row) (w : Word) :
    ((r :: rs).find? (fun q => q.covers w)).map (fun q => q.build w) =
      if w &&& r.mask = r.value then some (r.build w)
      else (rs.find? (fun q => q.covers w)).map (fun q => q.build w) := by
  rw [List.find?_cons]
  by_cases h : w &&& r.mask = r.value
  · simp [(covers_iff r w).mpr h, h]
  · have : r.covers w = false := Bool.eq_false_iff.mpr (fun hc => h ((covers_iff r w).mp hc))
    simp [this, h]

/-- Every row's mask has bits 31:24 set. -/
theorem rows_mask_opcode : ∀ r ∈ opcodeMap, r.mask.extractLsb' 24 8 = 0xFF#8 := by
  simp [opcodeMap]

/-- The opcodes of the rows are all different. -/
theorem rows_opcodes_nodup : (opcodeMap.map (fun r => r.value.extractLsb' 24 8)).Nodup := by decide

/-- The mnemonics of the rows are all different. -/
theorem rows_mnemonics_nodup : (opcodeMap.map (fun r => r.mnemonic)).Nodup := by decide

/-- A word has the opcode of the row that covers it. -/
theorem covers_opcode {r : Row} (hr : r ∈ opcodeMap) {w : Word} (h : w &&& r.mask = r.value) :
    w.extractLsb' 24 8 = r.value.extractLsb' 24 8 := by
  rw [← h, BitVec.extractLsb'_and, rows_mask_opcode r hr]
  have ones : ∀ x : BitVec 8, x = x &&& 0xFF#8 := by decide
  exact ones _

/-- At most one row covers a word (R83). -/
theorem covers_unique {r q : Row} (hr : r ∈ opcodeMap) (hq : q ∈ opcodeMap) {w : Word}
    (h : w &&& r.mask = r.value) (h' : w &&& q.mask = q.value) : r = q :=
  List.inj_on_of_nodup_map rows_opcodes_nodup hr hq
    ((covers_opcode hr h).symm.trans (covers_opcode hq h'))

/-- A word decodes to what the row that covers it builds. -/
theorem decode_of_row {r : Row} (hr : r ∈ opcodeMap) {w : Word} (h : w &&& r.mask = r.value) :
    decode w = some (r.build w) := by
  cases hf : opcodeMap.find? (fun q => q.covers w) with
  | none => exact absurd ((covers_iff r w).mpr h) (List.find?_eq_none.mp hf r hr)
  | some q =>
    have hq := (covers_iff q w).mp (List.find?_some (p := fun q : Row => q.covers w) hf)
    simp [decode, hf, covers_unique (List.mem_of_find?_eq_some hf) hr hq h]

/-- A word that decodes is covered by a row. -/
theorem row_of_decode {w : Word} {i : Instr} (h : decode w = some i) :
    ∃ r ∈ opcodeMap, w &&& r.mask = r.value ∧ r.build w = i := by
  simp only [decode, Option.map_eq_some_iff] at h
  obtain ⟨r, hf, hb⟩ := h
  exact ⟨r, List.mem_of_find?_eq_some hf,
    (covers_iff r w).mp (List.find?_some (p := fun q : Row => q.covers w) hf), hb⟩

/-- A row builds a command with the row's mnemonic. -/
theorem build_mnemonic {r : Row} (hr : r ∈ opcodeMap) (w : Word) : (r.build w).mnemonic = r.mnemonic := by
  simp only [opcodeMap, List.mem_cons, List.not_mem_nil, or_false] at hr
  rcases hr with h | h | h | h | h | h | h | h | h | h | h | h | h | h | h | h <;> rw [h] <;> rfl

/-! ## Masks and fields as arithmetic -/

/-- The number of two fields laid side by side. -/
theorem toNat_fields {n m : Nat} (x : BitVec n) (y : BitVec m) :
    (x ++ y).toNat = x.toNat * 2 ^ m + y.toNat := by
  rw [BitVec.toNat_append, Nat.shiftLeft_eq, Nat.mul_comm, Nat.two_pow_add_eq_or_of_lt y.isLt]

/-- A field of a word, as a number. -/
theorem toNat_field {m : Nat} (w : BitVec m) (i n : Nat) :
    (w.extractLsb' i n).toNat = w.toNat / 2 ^ i % 2 ^ n := by
  simp [Nat.shiftRight_eq_div_pow]

/-- A bit of a word, as a number. -/
theorem getLsbD_arith {n : Nat} (w : BitVec n) (i : Nat) :
    w.getLsbD i = decide (w.toNat / 2 ^ i % 2 = 1) := by
  simp [BitVec.getLsbD, Nat.testBit_eq_decide_div_mod_eq]

/-- The number of a command's word: the opcode above the operand fields (R81). -/
theorem encode_toNat (i : Instr) :
    (encode i).toNat =
      match i with
      | .busInit => 0x10000000
      | .busStart => 0x11000000
      | .busStop => 0x12000000
      | .busSend b => 0x13000000 + b.toNat
      | .busReadAck => 0x14000000
      | .busReadNack => 0x15000000
      | .dispInit => 0x20000000
      | .dispCmd b => 0x21000000 + b.toNat
      | .dispChar b => 0x22000000 + b.toNat
      | .dispClear => 0x23000000
      | .dispHome => 0x24000000
      | .dispGoto col row => 0x25000000 + row.toNat * 256 + col.toNat
      | .dispText addr => 0x30000000 + addr.toNat
      | .dispHex imm => 0x31000000 + imm.toNat
      | .dispInt imm => 0x32000000 + imm.toNat
      | .tempRead => 0x40000000 := by
  cases i <;> simp only [encode] <;> repeat rw [toNat_fields]
  all_goals simp
  all_goals omega

/-- The mask of format B. -/
theorem mask_formatB (w v : Word) : w &&& 0xFFFFFF00#32 = v ↔ w.toNat / 256 * 256 = v.toNat := by
  have : w &&& 0xFFFFFF00#32 = (w >>> 8) <<< 8 := by
    apply BitVec.eq_of_getLsbD_eq; intro i hi; interval_cases i <;> simp
  rw [this, ← BitVec.toNat_inj]
  simp [Nat.shiftRight_eq_div_pow, Nat.shiftLeft_eq]
  omega

/-- The mask of formats P and A. -/
theorem mask_formatPA (w v : Word) :
    w &&& 0xFFFF0000#32 = v ↔ w.toNat / 65536 * 65536 = v.toNat := by
  have : w &&& 0xFFFF0000#32 = (w >>> 16) <<< 16 := by
    apply BitVec.eq_of_getLsbD_eq; intro i hi; interval_cases i <;> simp
  rw [this, ← BitVec.toNat_inj]
  simp [Nat.shiftRight_eq_div_pow, Nat.shiftLeft_eq]
  omega

/-- The mask of format I. -/
theorem mask_formatI (w v : Word) :
    w &&& 0xFF000000#32 = v ↔ w.toNat / 16777216 * 16777216 = v.toNat := by
  have : w &&& 0xFF000000#32 = (w >>> 24) <<< 24 := by
    apply BitVec.eq_of_getLsbD_eq; intro i hi; interval_cases i <;> simp
  rw [this, ← BitVec.toNat_inj]
  simp [Nat.shiftRight_eq_div_pow, Nat.shiftLeft_eq]
  omega

/-- The mask of format N. -/
theorem mask_formatN (w v : Word) : w &&& 0xFFFFFFFF#32 = v ↔ w = v := by
  have : w &&& 0xFFFFFFFF#32 = w := by
    apply BitVec.eq_of_getLsbD_eq; intro i hi; interval_cases i <;> simp
  rw [this]

end Sys2Proof
end

