-- ==== Sys2Proof/Laws/Frames.lean ====
section
/-! SUPPORT. Everything a line of the pseudocode can do, said once; and from it what no step of the engine touches, what
only the steps of the bus touch, and what only the steps of the display touch. -/

namespace Sys2Proof.Machine

/-! ## Every line of the pseudocode -/

/-- The states a line of the pseudocode can leave, from the position `u` that comes after it. -/
inductive Performed (s : State) (u : Useq) : Micro → State → Prop where
  | timeout {m : Micro} (asks : m.asksDevice s.stopPending = true) :
      Performed s u m (State.timeout (State.popDraw { s with useq := some u }))
  | noStop (idle : s.stopPending = false) : Performed s u .drainStop { s with useq := some u }
  | stop (pending : s.stopPending = true) :
      Performed s u .drainStop
        { s.popDraw with useq := some u, btrace := s.btrace ++ [.stop], stopPending := false }
  | start (rep : Bool) :
      Performed s u (.startCond rep)
        { s.popDraw with
          useq := some u, btrace := s.btrace ++ [.start rep], phase := .addr, done := true }
  | sent (b : Byte) :
      Performed s u (.transmit b)
        { s.popDraw with
          btrace := s.btrace ++ [.tx b (s.drawAt 0).ack], ack := (s.drawAt 0).ack, done := true,
          useq := some { u with result := resultAfter u.result (s.drawAt 0).ack } }
  | received (mack : Bool) :
      Performed s u (.receive mack)
        { s.popDraw with
          useq := some u, btrace := s.btrace ++ [.rx (s.drawAt 0).data mack],
          rxdata := (s.drawAt 0).data, done := true }
  | keepHi : Performed s u .keepHi { s with useq := some { u with hi := s.rxdata } }
  | keepLo : Performed s u .keepLo { s with useq := some { u with lo := s.rxdata } }
  | assemble :
      Performed s u .assemble
        { s with
          useq := some u, tempRaw := assembleWord u.hi u.lo, tempValid := decide (u.result = .ok) }
  | terminator (a : HAddr) (zero : s.textByte u.stale a = 0#8) :
      Performed s u (.text a) ((State.afterTextByte { s with useq := some u } u.stale a).finish .ok)
  | character (a : HAddr) (more : s.textByte u.stale a ≠ 0#8) :
      Performed s u (.text a)
        { State.afterTextByte { s with useq := some u } u.stale a with
          useq := some
            { u with todo := xferSteps true (s.textByte u.stale a) ++ .text (a + 1) :: u.todo } }
  | wait (w : Nat) :
      Performed s u (.wait w)
        { s with dtrace := s.dtrace ++ [.wait w], useq := some { u with timer := some w } }
  | plain {m : Micro} (isPlain : m.isPlain = true) (noWait : ∀ w, m ≠ .wait w) :
      Performed s u m { s.applyPlain m with useq := some u }

/-- All that a line of the pseudocode can do. -/
theorem performed {s t : State} {m : Micro} {u : Useq} (h : s.perform m u = some t) :
    Performed s u m t := by
  cases m
  case drainStop =>
    simp only [State.perform] at h
    split at h
    · next hp =>
      rcases busWait_cases h with rfl | rfl
      · exact .timeout hp
      · exact .stop hp
    · next hp => exact Option.some.inj h ▸ .noStop (by simpa using hp)
  case startCond rep =>
    simp only [State.perform] at h
    rcases busWait_cases h with rfl | rfl
    · exact .timeout rfl
    · exact .start rep
  case transmit b =>
    simp only [State.perform] at h
    rcases busWait_cases h with rfl | rfl
    · exact .timeout rfl
    · exact .sent b
  case receive mack =>
    simp only [State.perform] at h
    rcases busWait_cases h with rfl | rfl
    · exact .timeout rfl
    · exact .received mack
  case text a =>
    simp only [State.perform] at h
    split at h
    · next hc => exact Option.some.inj h ▸ .terminator a hc
    · next hc => exact Option.some.inj h ▸ .character a hc
  case keepHi => exact Option.some.inj h ▸ .keepHi
  case keepLo => exact Option.some.inj h ▸ .keepLo
  case assemble => exact Option.some.inj h ▸ .assemble
  case wait w => exact Option.some.inj h ▸ .wait w
  all_goals exact Option.some.inj h ▸ .plain rfl (by simp)

/-- What an engine step keeps, provided its position's lines do. -/
theorem engineStep_keeps {P : State → Prop}
    (line : ∀ s u m rest t, P s → s.useq = some u → u.timer = none → u.todo = m :: rest →
      Performed s { u with todo := rest } m t → P t)
    (timer : ∀ s u, P s → s.useq = some u → P { s with useq := some { u with timer := none } })
    (finish : ∀ s u, P s → s.useq = some u → u.timer = none → u.todo = [] → P (s.finish u.result))
    {s t : State} (hs : P s) (h : s.engineStep = some t) : P t := by
  obtain ⟨u, hu, ⟨w, -, rfl⟩ | ⟨ht, hm, rfl⟩ | ⟨ht, m, rest, hm, hp⟩⟩ := engineStep_cases h
  · exact timer s u hs hu
  · exact finish s u hs hu ht hm
  · exact line s u m rest t hs hu ht hm (performed hp)

/-! ## What no step of the engine touches -/

/-- CFG, HMEM, VIOL, the waiting inputs and the host's record. -/
structure SameHost (s t : State) : Prop where
  viol : t.viol = s.viol
  cfgDiv : t.cfgDiv = s.cfgDiv
  cfgSaddr : t.cfgSaddr = s.cfgSaddr
  cfgSreg : t.cfgSreg = s.cfgSreg
  cfgTimeout : t.cfgTimeout = s.cfgTimeout
  hmem : t.hmem = s.hmem
  inbox : t.inbox = s.inbox
  hostReads : t.hostReads = s.hostReads

theorem SameHost.refl (s : State) : SameHost s s := by constructor <;> rfl

theorem SameHost.trans {s t u : State} (h : SameHost s t) (h' : SameHost t u) : SameHost s u :=
  ⟨h'.viol.trans h.viol, h'.cfgDiv.trans h.cfgDiv, h'.cfgSaddr.trans h.cfgSaddr,
    h'.cfgSreg.trans h.cfgSreg, h'.cfgTimeout.trans h.cfgTimeout, h'.hmem.trans h.hmem,
    h'.inbox.trans h.inbox, h'.hostReads.trans h.hostReads⟩

theorem Performed.sameHost {s t : State} {u : Useq} {m : Micro} (h : Performed s u m t) :
    SameHost s t := by
  cases h
  case plain hm _ => cases m <;> first | (cases hm; done) | (constructor <;> rfl)
  case terminator a hc => unfold State.afterTextByte; split <;> constructor <;> rfl
  case character a hc => unfold State.afterTextByte; split <;> constructor <;> rfl
  all_goals constructor <;> rfl

theorem engineRun_sameHost (n : Nat) (s : State) : SameHost s (State.engineRun n s) :=
  engineRun_induct (P := SameHost s)
    (fun _ _ h h' => engineStep_keeps (P := SameHost s)
      (fun _ _ _ _ _ hs _ _ _ hp => hs.trans hp.sameHost)
      (fun _ _ hs _ => hs.trans (by constructor <;> rfl))
      (fun _ _ hs _ _ _ => hs.trans (by constructor <;> rfl)) h h') n s (SameHost.refl s)

/-! ## What only the steps of the bus touch -/

/-- The state of the TWI unit and of TRS, and the device's answers. -/
structure SameBus (s t : State) : Prop where
  btrace : t.btrace = s.btrace
  done : t.done = s.done
  ack : t.ack = s.ack
  busInit : t.busInit = s.busInit
  stopPending : t.stopPending = s.stopPending
  phase : t.phase = s.phase
  rxdata : t.rxdata = s.rxdata
  txd : t.txd = s.txd
  divActive : t.divActive = s.divActive
  pullup : t.pullup = s.pullup
  dev : t.dev = s.dev
  draws : t.draws = s.draws
  tempRaw : t.tempRaw = s.tempRaw
  tempValid : t.tempValid = s.tempValid

theorem SameBus.refl (s : State) : SameBus s s := by constructor <;> rfl

theorem SameBus.trans {s t u : State} (h : SameBus s t) (h' : SameBus t u) : SameBus s u :=
  ⟨h'.btrace.trans h.btrace, h'.done.trans h.done, h'.ack.trans h.ack,
    h'.busInit.trans h.busInit, h'.stopPending.trans h.stopPending, h'.phase.trans h.phase,
    h'.rxdata.trans h.rxdata, h'.txd.trans h.txd, h'.divActive.trans h.divActive,
    h'.pullup.trans h.pullup, h'.dev.trans h.dev, h'.draws.trans h.draws,
    h'.tempRaw.trans h.tempRaw, h'.tempValid.trans h.tempValid⟩

/-- The engine stands in a display command, or in none. -/
def State.inDisplay (s : State) : Prop := ∀ u, s.useq = some u → u.todo.all Micro.ofDisplay = true

theorem xferSteps_ofDisplay (rs : Bool) (x : Byte) : (xferSteps rs x).all Micro.ofDisplay = true := rfl

theorem Performed.sameBus {s t : State} {u : Useq} {m : Micro} (h : Performed s u m t)
    (hm : m.ofDisplay = true) (hu : u.todo.all Micro.ofDisplay = true) :
    SameBus s t ∧ t.inDisplay := by
  cases h
  case timeout ha => cases m <;> first | (cases hm; done) | cases ha
  case plain hp _ =>
    cases m <;> first
      | (cases hm; done)
      | (cases hp; done)
      | exact ⟨by constructor <;> rfl, fun v hv => by cases hv; exact hu⟩
  case terminator a hc =>
    unfold State.afterTextByte
    split <;> exact ⟨by constructor <;> rfl, fun v hv => by cases hv⟩
  case character a hc =>
    have hall : ∀ c : Byte, (xferSteps true c ++ .text (a + 1) :: u.todo).all Micro.ofDisplay = true :=
      fun c => by rw [List.all_append, List.all_cons, xferSteps_ofDisplay, hu]; rfl
    unfold State.afterTextByte
    split <;> exact ⟨by constructor <;> rfl, fun v hv => by cases hv; exact hall _⟩
  case wait w => exact ⟨by constructor <;> rfl, fun v hv => by cases hv; exact hu⟩
  all_goals cases hm

theorem engineRun_sameBus (n : Nat) (s : State) (h : s.inDisplay) : SameBus s (State.engineRun n s) := by
  refine (engineRun_induct (P := fun t => SameBus s t ∧ t.inDisplay) (fun a b hp h' => ?_) n s
    ⟨SameBus.refl s, h⟩).1
  refine engineStep_keeps (P := fun t => SameBus s t ∧ t.inDisplay)
    (fun a u m rest b hs hu _ hm hp => ?_) (fun a u hs hu => ?_) (fun a u hs hu _ _ => ?_) hp h'
  · have hall := hs.2 u hu
    rw [hm, List.all_cons, Bool.and_eq_true] at hall
    have := hp.sameBus hall.1 hall.2
    exact ⟨hs.1.trans this.1, this.2⟩
  · exact ⟨hs.1.trans (by constructor <;> rfl), fun v hv => by cases hv; exact hs.2 u hu⟩
  · exact ⟨hs.1.trans (by constructor <;> rfl), fun v hv => by cases hv⟩

/-! ## What only the steps of the display touch -/

/-- The state of the LCD unit. -/
structure SameDisplay (s t : State) : Prop where
  dtrace : t.dtrace = s.dtrace
  rs : t.rs = s.rs
  d : t.d = s.d
  e : t.e = s.e
  driven : t.driven = s.driven
  dispInit : t.dispInit = s.dispInit

theorem SameDisplay.refl (s : State) : SameDisplay s s := by constructor <;> rfl

theorem SameDisplay.trans {s t u : State} (h : SameDisplay s t) (h' : SameDisplay t u) :
    SameDisplay s u :=
  ⟨h'.dtrace.trans h.dtrace, h'.rs.trans h.rs, h'.d.trans h.d, h'.e.trans h.e,
    h'.driven.trans h.driven, h'.dispInit.trans h.dispInit⟩

/-- The engine stands in a command that uses the bus, or in none. -/
def State.inBus (s : State) : Prop :=
  ∀ u, s.useq = some u → u.todo.all (fun m => !m.ofDisplay) = true

theorem Performed.sameDisplay {s t : State} {u : Useq} {m : Micro} (h : Performed s u m t)
    (hm : m.ofDisplay = false) (hu : u.todo.all (fun m => !m.ofDisplay) = true) :
    SameDisplay s t ∧ t.inBus := by
  cases h
  case timeout ha => exact ⟨by constructor <;> rfl, fun v hv => by cases hv⟩
  case plain hp _ =>
    cases m <;> first
      | (cases hm; done)
      | (cases hp; done)
      | exact ⟨by constructor <;> rfl, fun v hv => by cases hv; exact hu⟩
  case terminator a hc => cases hm
  case character a hc => cases hm
  case wait w => cases hm
  all_goals exact ⟨by constructor <;> rfl, fun v hv => by cases hv; exact hu⟩

theorem engineRun_sameDisplay (n : Nat) (s : State) (h : s.inBus) :
    SameDisplay s (State.engineRun n s) := by
  refine (engineRun_induct (P := fun t => SameDisplay s t ∧ t.inBus) (fun a b hp h' => ?_) n s
    ⟨SameDisplay.refl s, h⟩).1
  refine engineStep_keeps (P := fun t => SameDisplay s t ∧ t.inBus)
    (fun a u m rest b hs hu _ hm hp => ?_) (fun a u hs hu => ?_) (fun a u hs hu _ _ => ?_) hp h'
  · have hall := hs.2 u hu
    rw [hm, List.all_cons, Bool.and_eq_true] at hall
    have := hp.sameDisplay (by simpa using hall.1) hall.2
    exact ⟨hs.1.trans this.1, this.2⟩
  · exact ⟨hs.1.trans (by constructor <;> rfl), fun v hv => by cases hv; exact hs.2 u hu⟩
  · exact ⟨hs.1.trans (by constructor <;> rfl), fun v hv => by cases hv⟩

/-! ## What only the lines of TEMP_READ and a timeout touch -/

/-- TEMP_READ does not execute, and none of its own lines is left. -/
def State.outsideTemp (s : State) : Prop :=
  s.cmd ≠ some (encode .tempRead) ∧ ∀ u, s.useq = some u → u.todo.all (fun m => !m.ofTemp) = true

theorem Performed.sameTemp {s t : State} {u : Useq} {m : Micro} (h : Performed s u m t)
    (hc : s.cmd ≠ some (encode .tempRead)) (hm : m.ofTemp = false)
    (hu : u.todo.all (fun m => !m.ofTemp) = true) :
    (t.tempRaw = s.tempRaw ∧ t.tempValid = s.tempValid) ∧ t.outsideTemp := by
  cases h
  case timeout ha => exact ⟨⟨rfl, by simp [State.timeout, State.finish, State.runsTempRead, hc]⟩, nofun, nofun⟩
  case plain hp _ =>
    cases m <;> first
      | (cases hp; done)
      | exact ⟨⟨rfl, rfl⟩, hc, fun v hv => by cases hv; exact hu⟩
  case terminator a hz => unfold State.afterTextByte; split <;> exact ⟨⟨rfl, rfl⟩, nofun, nofun⟩
  case character a hz =>
    have hall : ∀ c : Byte, (xferSteps true c ++ .text (a + 1) :: u.todo).all (fun m => !m.ofTemp) = true :=
      fun c => by rw [List.all_append, List.all_cons, hu]; rfl
    unfold State.afterTextByte
    split <;> exact ⟨⟨rfl, rfl⟩, hc, fun v hv => by cases hv; exact hall _⟩
  case keepHi => cases hm
  case keepLo => cases hm
  case assemble => cases hm
  all_goals exact ⟨⟨rfl, rfl⟩, hc, fun v hv => by cases hv; exact hu⟩

theorem engineRun_sameTemp (n : Nat) (s : State) (h : s.outsideTemp) :
    (State.engineRun n s).tempRaw = s.tempRaw ∧ (State.engineRun n s).tempValid = s.tempValid := by
  let P (t : State) : Prop := (t.tempRaw = s.tempRaw ∧ t.tempValid = s.tempValid) ∧ t.outsideTemp
  refine (engineRun_induct (P := P) (fun a b hp h' => ?_) n s ⟨⟨rfl, rfl⟩, h⟩).1
  refine engineStep_keeps (P := P) (fun a u m rest b hs hu _ hm hp => ?_) (fun a u hs hu => ?_)
    (fun a u hs hu _ _ => ⟨hs.1, nofun, nofun⟩) hp h'
  · have hall := hs.2.2 u hu
    rw [hm, List.all_cons, Bool.and_eq_true] at hall
    have := hp.sameTemp hs.2.1 (by simpa using hall.1) hall.2
    exact ⟨⟨this.1.1.trans hs.1.1, this.1.2.trans hs.1.2⟩, this.2⟩
  · exact ⟨hs.1, hs.2.1, fun v hv => by cases hv; exact hs.2.2 u hu⟩

/-! ## Traces -/

/-- Events are only appended. -/
theorem Performed.grows {s t : State} {u : Useq} {m : Micro} (h : Performed s u m t) :
    (∃ evs, t.btrace = s.btrace ++ evs) ∧ (∃ evs, t.dtrace = s.dtrace ++ evs) := by
  cases h
  case plain hp _ =>
    cases m <;> first
      | (cases hp; done)
      | exact ⟨⟨[], (List.append_nil _).symm⟩, ⟨[], (List.append_nil _).symm⟩⟩
      | exact ⟨⟨[], (List.append_nil _).symm⟩, ⟨_, rfl⟩⟩
  case terminator a hc =>
    unfold State.afterTextByte
    split <;> exact ⟨⟨[], (List.append_nil _).symm⟩, ⟨[], (List.append_nil _).symm⟩⟩
  case character a hc =>
    unfold State.afterTextByte
    split <;> exact ⟨⟨[], (List.append_nil _).symm⟩, ⟨[], (List.append_nil _).symm⟩⟩
  all_goals first
    | exact ⟨⟨[], (List.append_nil _).symm⟩, ⟨[], (List.append_nil _).symm⟩⟩
    | exact ⟨⟨_, rfl⟩, ⟨[], (List.append_nil _).symm⟩⟩
    | exact ⟨⟨[], (List.append_nil _).symm⟩, ⟨_, rfl⟩⟩

theorem engineRun_grows (n : Nat) (s : State) :
    (∃ evs, (State.engineRun n s).btrace = s.btrace ++ evs) ∧
      (∃ evs, (State.engineRun n s).dtrace = s.dtrace ++ evs) := by
  refine engineRun_induct (P := fun t => (∃ evs, t.btrace = s.btrace ++ evs) ∧
    (∃ evs, t.dtrace = s.dtrace ++ evs)) (fun a b hp h' => ?_) n s
    ⟨⟨[], (List.append_nil _).symm⟩, ⟨[], (List.append_nil _).symm⟩⟩
  refine engineStep_keeps (P := fun t => (∃ evs, t.btrace = s.btrace ++ evs) ∧
    (∃ evs, t.dtrace = s.dtrace ++ evs)) (fun a u m rest b hs hu _ hm hp => ?_)
    (fun a u hs hu => hs) (fun a u hs hu _ _ => hs) hp h'
  obtain ⟨⟨e1, h1⟩, ⟨e2, h2⟩⟩ := hs
  obtain ⟨⟨f1, g1⟩, ⟨f2, g2⟩⟩ := hp.grows
  exact ⟨⟨e1 ++ f1, by rw [g1, h1, List.append_assoc]⟩, ⟨e2 ++ f2, by rw [g2, h2, List.append_assoc]⟩⟩

/-! ## The steps a command starts with -/

theorem planOf_ofDisplay {i : Instr} (h : i.unit = .lcd) (s : State) :
    (planOf i s).all Micro.ofDisplay = true := by
  have text : ∀ cs : List Byte, (cs.flatMap (xferSteps true)).all Micro.ofDisplay = true := fun cs => by
    rw [List.all_flatMap]
    exact List.all_eq_true.mpr (fun c _ => xferSteps_ofDisplay true c)
  cases i <;> first
    | (cases h; done)
    | rfl
    | (simp only [planOf]; split <;> first | rfl | exact text _)

theorem planOf_ofBus {i : Instr} (h : i.unit ≠ .lcd) (s : State) :
    (planOf i s).all (fun m => !m.ofDisplay) = true := by
  cases i <;> first
    | rfl
    | exact absurd rfl h

/-- A command starts with lines of its own unit only. -/
theorem planOf_ofUnit (i : Instr) (s : State) : (planOf i s).all (Micro.ofUnit i.unit) = true := by
  by_cases h : i.unit = .lcd
  · rw [h]
    exact planOf_ofDisplay h s
  · cases i <;> first
      | rfl
      | exact absurd rfl h

/-! ## What the invariant says of the engine's position -/

/-- The unit of the command that executes is that of the lines left. -/
theorem State.Inv.ofUnit {s : State} {w : Word} {i : Instr} (h : s.Inv) (hc : s.cmd = some w)
    (hd : decode w = some i) {u : Useq} (hu : s.useq = some u) : u.todo.all (Micro.ofUnit i.unit) = true :=
  h.plan_of_unit w i u hc hd hu

theorem State.Inv.inDisplay {s : State} {w : Word} {i : Instr} (h : s.Inv) (hc : s.cmd = some w)
    (hd : decode w = some i) (hi : i.unit = .lcd) : s.inDisplay := fun u hu => by
  have := h.ofUnit hc hd hu
  rwa [hi] at this

theorem State.Inv.inBus {s : State} {w : Word} {i : Instr} (h : s.Inv) (hc : s.cmd = some w)
    (hd : decode w = some i) (hi : i.unit ≠ .lcd) : s.inBus := fun u hu => by
  refine List.all_eq_true.mpr (fun m hm => ?_)
  have := List.all_eq_true.mp (h.ofUnit hc hd hu) m hm
  cases hu' : i.unit <;> simp_all [Micro.ofUnit]

end Sys2Proof.Machine
end

