-- ==== Sys2Proof/Laws/Memory.lean ====
section
/-! SUPPORT. The laws of host memory: a read after a write, and that a write keeps the canonical form. -/

namespace Sys2Proof.Machine

/-- A canonical form from a higher address is one from a lower address. -/
theorem wfFrom_mono {m : Memory} {lo lo' : Nat} (h : lo' ≤ lo) (hm : Memory.wfFrom lo m = true) :
    Memory.wfFrom lo' m = true := by
  cases m with
  | nil => rfl
  | cons c m =>
    simp only [Memory.wfFrom, Bool.and_eq_true, decide_eq_true_eq] at hm ⊢
    exact ⟨⟨⟨by omega, hm.1.1.2⟩, hm.1.2⟩, hm.2⟩

/-- Below its lowest address a memory lists nothing. -/
theorem read_below {m : Memory} {lo : Nat} {a : HAddr} (hm : Memory.wfFrom lo m = true)
    (h : a.toNat < lo) : m.read a = Config.hmemUnlisted := by
  induction m generalizing lo with
  | nil => rfl
  | cons c m ih =>
    simp only [Memory.wfFrom, Bool.and_eq_true, decide_eq_true_eq] at hm
    simp only [Memory.read, if_neg (show ¬ c.1 = a.toNat by omega)]
    exact ih hm.2 (by omega)

theorem insert_wf {m : Memory} {lo k : Nat} {b : Byte} (hm : Memory.wfFrom lo m = true) (hlo : lo ≤ k)
    (hk : k < 65536) (hb : b ≠ Config.hmemUnlisted) : Memory.wfFrom lo (m.insert k b) = true := by
  induction m generalizing lo with
  | nil => simp [Memory.insert, Memory.wfFrom, hlo, hk, hb]
  | cons c m ih =>
    have hm' := hm
    simp only [Memory.wfFrom, Bool.and_eq_true, decide_eq_true_eq] at hm
    simp only [Memory.insert]
    split
    · simp only [Memory.wfFrom, Bool.and_eq_true, decide_eq_true_eq]
      exact ⟨⟨⟨hlo, hk⟩, hb⟩, ⟨⟨by omega, hm.1.1.2⟩, hm.1.2⟩, hm.2⟩
    · split
      · next h1 h2 =>
        subst h2
        simp only [Memory.wfFrom, Bool.and_eq_true, decide_eq_true_eq]
        exact ⟨⟨⟨hlo, hk⟩, hb⟩, hm.2⟩
      · simp only [Memory.wfFrom, Bool.and_eq_true, decide_eq_true_eq]
        exact ⟨hm.1, ih hm.2 (by omega)⟩

theorem erase_wf {m : Memory} {lo k : Nat} (hm : Memory.wfFrom lo m = true) :
    Memory.wfFrom lo (m.erase k) = true := by
  induction m generalizing lo with
  | nil => rfl
  | cons c m ih =>
    simp only [Memory.wfFrom, Bool.and_eq_true, decide_eq_true_eq] at hm
    simp only [Memory.erase]
    split
    · exact wfFrom_mono (by omega) hm.2
    · simp only [Memory.wfFrom, Bool.and_eq_true, decide_eq_true_eq]
      exact ⟨hm.1, ih hm.2⟩

/-- A write keeps the canonical form. -/
theorem write_wf {m : Memory} (hm : m.wf = true) (a : HAddr) (b : Byte) : (m.write a b).wf = true := by
  simp only [Memory.write, Memory.wf] at *
  split
  · exact erase_wf hm
  · next hb => exact insert_wf hm (Nat.zero_le _) a.isLt hb

theorem read_insert (m : Memory) (a x : HAddr) (b : Byte) :
    (m.insert a.toNat b).read x = if x = a then b else m.read x := by
  induction m with
  | nil =>
    by_cases h : x = a
    · simp [Memory.insert, Memory.read, h]
    · have : ¬ a.toNat = x.toNat := fun hn => h (BitVec.eq_of_toNat_eq hn.symm)
      simp [Memory.insert, Memory.read, h, this]
  | cons c m ih =>
    simp only [Memory.insert]
    by_cases h : x = a
    · subst h
      split
      · simp [Memory.read]
      · split
        · simp [Memory.read]
        · next h1 h2 => simp [Memory.read, ih, show ¬ c.1 = x.toNat from fun hn => h2 hn.symm]
    · have hn : ¬ a.toNat = x.toNat := fun hn => h (BitVec.eq_of_toNat_eq hn.symm)
      split
      · simp [Memory.read, hn]
      · split
        · next h1 h2 => simp [Memory.read, hn, show ¬ c.1 = x.toNat from h2 ▸ hn]
        · simp only [Memory.read, ih, if_neg h]

theorem read_erase {m : Memory} {lo : Nat} (hm : Memory.wfFrom lo m = true) (a x : HAddr) :
    (m.erase a.toNat).read x = if x = a then Config.hmemUnlisted else m.read x := by
  induction m generalizing lo with
  | nil => simp [Memory.erase, Memory.read]
  | cons c m ih =>
    simp only [Memory.wfFrom, Bool.and_eq_true, decide_eq_true_eq] at hm
    simp only [Memory.erase]
    split
    · next hc =>
      by_cases h : x = a
      · subst h
        rw [if_pos rfl]
        exact read_below hm.2 (by omega)
      · have hn : ¬ c.1 = x.toNat := fun hn => h (BitVec.eq_of_toNat_eq (by omega))
        simp [Memory.read, h, hn]
    · next hc =>
      simp only [Memory.read, ih hm.2]
      by_cases h : x = a
      · subst h
        simp [show ¬ c.1 = x.toNat from fun hn => hc hn.symm]
      · simp [h]

/-- A read after a write: the byte written there, and every other byte as it was. -/
theorem read_write {m : Memory} (hm : m.wf = true) (a x : HAddr) (b : Byte) :
    (m.write a b).read x = if x = a then b else m.read x := by
  simp only [Memory.write]
  split
  · next hb => rw [read_erase hm, hb]
  · exact read_insert m a x b

end Sys2Proof.Machine
end

