-- ==== Sys2Proof/Laws/PerInstr.lean ====
section
/-! SUPPORT. Statements made of every command, one lemma per constructor of `Instr`. -/

namespace Sys2Proof.Laws

/-- A command's word carries the opcode and the reserved bits of the row with the command's mnemonic, and that
row builds the command from it (R81, R83). -/
def RowMatch.Statement (i : Instr) : Prop :=
  ∃ r ∈ opcodeMap, r.mnemonic = i.mnemonic ∧ encode i &&& r.mask = r.value ∧ r.build (encode i) = i

theorem RowMatch.busInit : RowMatch.Statement .busInit :=
  ⟨opcodeMap[0], by simp [opcodeMap], rfl, by decide, rfl⟩

theorem RowMatch.busStart : RowMatch.Statement .busStart :=
  ⟨opcodeMap[1], by simp [opcodeMap], rfl, by decide, rfl⟩

theorem RowMatch.busStop : RowMatch.Statement .busStop :=
  ⟨opcodeMap[2], by simp [opcodeMap], rfl, by decide, rfl⟩

theorem RowMatch.busSend (b : Byte) : RowMatch.Statement (.busSend b) := by
  refine ⟨opcodeMap[3], by simp [opcodeMap], rfl, (mask_formatB _ _).mpr ?_, ?_⟩
  · rw [encode_toNat]
    simp [opcodeMap]
    omega
  · show Instr.busSend (fieldLow (encode (.busSend b))) = _
    congr
    rw [← BitVec.toNat_inj, fieldLow, toNat_field, encode_toNat]
    simp only
    omega

theorem RowMatch.busReadAck : RowMatch.Statement .busReadAck :=
  ⟨opcodeMap[4], by simp [opcodeMap], rfl, by decide, rfl⟩

theorem RowMatch.busReadNack : RowMatch.Statement .busReadNack :=
  ⟨opcodeMap[5], by simp [opcodeMap], rfl, by decide, rfl⟩

theorem RowMatch.dispInit : RowMatch.Statement .dispInit :=
  ⟨opcodeMap[6], by simp [opcodeMap], rfl, by decide, rfl⟩

theorem RowMatch.dispCmd (b : Byte) : RowMatch.Statement (.dispCmd b) := by
  refine ⟨opcodeMap[7], by simp [opcodeMap], rfl, (mask_formatB _ _).mpr ?_, ?_⟩
  · rw [encode_toNat]
    simp [opcodeMap]
    omega
  · show Instr.dispCmd (fieldLow (encode (.dispCmd b))) = _
    congr
    rw [← BitVec.toNat_inj, fieldLow, toNat_field, encode_toNat]
    simp only
    omega

theorem RowMatch.dispChar (b : Byte) : RowMatch.Statement (.dispChar b) := by
  refine ⟨opcodeMap[8], by simp [opcodeMap], rfl, (mask_formatB _ _).mpr ?_, ?_⟩
  · rw [encode_toNat]
    simp [opcodeMap]
    omega
  · show Instr.dispChar (fieldLow (encode (.dispChar b))) = _
    congr
    rw [← BitVec.toNat_inj, fieldLow, toNat_field, encode_toNat]
    simp only
    omega

theorem RowMatch.dispClear : RowMatch.Statement .dispClear :=
  ⟨opcodeMap[9], by simp [opcodeMap], rfl, by decide, rfl⟩

theorem RowMatch.dispHome : RowMatch.Statement .dispHome :=
  ⟨opcodeMap[10], by simp [opcodeMap], rfl, by decide, rfl⟩

theorem RowMatch.dispGoto (col row : Byte) : RowMatch.Statement (.dispGoto col row) := by
  refine ⟨opcodeMap[11], by simp [opcodeMap], rfl, (mask_formatPA _ _).mpr ?_, ?_⟩
  · rw [encode_toNat]
    simp [opcodeMap]
    omega
  · show Instr.dispGoto (fieldLow (encode (.dispGoto col row))) (fieldRow (encode (.dispGoto col row))) = _
    congr
    · rw [← BitVec.toNat_inj, fieldLow, toNat_field, encode_toNat]
      simp only
      omega
    · rw [← BitVec.toNat_inj, fieldRow, toNat_field, encode_toNat]
      simp only
      omega

theorem RowMatch.dispText (addr : HAddr) : RowMatch.Statement (.dispText addr) := by
  refine ⟨opcodeMap[12], by simp [opcodeMap], rfl, (mask_formatPA _ _).mpr ?_, ?_⟩
  · rw [encode_toNat]
    simp [opcodeMap]
    omega
  · show Instr.dispText (fieldAddr (encode (.dispText addr))) = _
    congr
    rw [← BitVec.toNat_inj, fieldAddr, toNat_field, encode_toNat]
    simp only
    omega

theorem RowMatch.dispHex (imm : BitVec 24) : RowMatch.Statement (.dispHex imm) := by
  refine ⟨opcodeMap[13], by simp [opcodeMap], rfl, (mask_formatI _ _).mpr ?_, ?_⟩
  · rw [encode_toNat]
    simp [opcodeMap]
    omega
  · show Instr.dispHex (fieldImm (encode (.dispHex imm))) = _
    congr
    rw [← BitVec.toNat_inj, fieldImm, toNat_field, encode_toNat]
    simp only
    omega

theorem RowMatch.dispInt (imm : BitVec 24) : RowMatch.Statement (.dispInt imm) := by
  refine ⟨opcodeMap[14], by simp [opcodeMap], rfl, (mask_formatI _ _).mpr ?_, ?_⟩
  · rw [encode_toNat]
    simp [opcodeMap]
    omega
  · show Instr.dispInt (fieldImm (encode (.dispInt imm))) = _
    congr
    rw [← BitVec.toNat_inj, fieldImm, toNat_field, encode_toNat]
    simp only
    omega

theorem RowMatch.tempRead : RowMatch.Statement .tempRead :=
  ⟨opcodeMap[15], by simp [opcodeMap], rfl, by decide, rfl⟩

end Sys2Proof.Laws
end

