-- ==== Sys2Proof/Laws/Step.lean ====
section
/-! SUPPORT. Everything a step of the machine can do, said once. -/

namespace Sys2Proof.Machine

/-- A host read changes VIOL, the count of free values and the host's record only. -/
theorem hostRead_shape (s : State) (width : Nat) (off : Byte) :
    ∃ v f r, s.hostRead width off = { s with viol := v, frees := f, hostReads := r } ∧
      (s.viol ≠ .none → v = s.viol) := by
  unfold State.hostRead
  split
  · unfold State.afterRead
    split
    · exact ⟨s.viol, _, _, rfl, fun _ => rfl⟩
    · exact ⟨s.viol, s.frees, _, rfl, fun _ => rfl⟩
  · exact ⟨_, s.frees, _, rfl, fun h => by simp [h]⟩

/-- A poll changes what a host read does, and the waiting inputs. -/
theorem poll_shape (s : State) :
    ∃ v f r q, s.poll = { s with viol := v, frees := f, hostReads := r, inbox := q } ∧
      (s.viol ≠ .none → v = s.viol) := by
  obtain ⟨v, f, r, h, hv⟩ := hostRead_shape s 32 (regOffset .status)
  unfold State.poll
  split
  · exact ⟨v, f, r, _, by rw [h], hv⟩
  · exact ⟨v, f, r, s.inbox, by rw [h], hv⟩

/-- The states a step of the machine can leave. -/
inductive Stepped (s : State) : State → Prop where
  /-- A host access that changes VIOL, the waiting inputs, and the host's side only. -/
  | access (v : Viol) (f : Nat) (r : List HostRead) (q : List Arrival)
      (sticky : s.viol ≠ .none → v = s.viol) :
      Stepped s { s with viol := v, frees := f, hostReads := r, inbox := q }
  /-- A write of CFG. -/
  | config (w : Word) (q : List Arrival) (due : s.inbox = ⟨0, .write 32 0x10#8 w⟩ :: q)
      (idle : s.busy = false) :
      Stepped s (State.withCfg { s with inbox := q } w)
  /-- A write of HMEM. -/
  | poke (a : HAddr) (b : Byte) (q : List Arrival) (due : s.inbox = ⟨0, .poke a b⟩ :: q) :
      Stepped s (State.poke { s with inbox := q } a b)
  /-- The pending stop is performed. -/
  | stop (q : List Arrival) (pending : s.stopPending = true) (answered : (s.drawAt 0).hang = false) :
      Stepped s (State.stopPerformed { s with inbox := q })
  /-- A command is accepted and runs. -/
  | command (w : Word) (i : Instr) (q : List Arrival) (due : s.inbox = ⟨0, .write 32 0x00#8 w⟩ :: q)
      (decodes : decode w = some i) (idle : s.busy = false) (ready : s.unitReady i = true)
      (inPhase : phaseTable s.phase i ≠ none) : Stepped s (bodyOf i { s with inbox := q })
  /-- The command that executes runs on. -/
  | burst : Stepped s s.burst
  /-- Reset. -/
  | reset (q : List Arrival) (due : s.inbox = ⟨0, .reset⟩ :: q) :
      Stepped s (State.resetEvent { s with inbox := q })

/-- All that a step of the machine can do. -/
theorem stepped {s t : State} (h : step s = .next t) : Stepped s t := by
  have refuse : ∀ (v : Viol) (q : List Arrival), Stepped s (State.raise { s with inbox := q } v) :=
    fun v q => .access _ s.frees s.hostReads q (fun h => by simp [h])
  have stop : ∀ q : List Arrival, Stepped s (State.stopStep { s with inbox := q }) := fun q => by
    rcases stopStep_cases { s with inbox := q } with h | ⟨hp, hd, h⟩ <;> rw [h]
    · exact .access s.viol s.frees s.hostReads q (fun _ => rfl)
    · exact .stop q hp hd
  rcases step_cases h with ⟨-, rfl⟩ | ⟨n, i, rest, -, rfl⟩ | ⟨i, rest, hi, hd⟩
  · unfold State.alone
    split
    · exact stop s.inbox
    · exact .burst
  · exact .burst
  · rcases deliver_cases hd with ⟨width, off, -, rfl⟩ | ⟨width, off, w, rfl, hw⟩ | ⟨a, b, rfl, rfl⟩ |
      ⟨-, rfl⟩ | ⟨-, rfl⟩ | ⟨rfl, rfl⟩
    · obtain ⟨v, f, r, he, hv⟩ := hostRead_shape { s with inbox := rest } width off
      rw [he]
      exact .access v f r rest hv
    · rcases hostWrite_cases hw with ⟨rfl, rfl, h⟩ | ⟨rfl, rfl, hb, rfl⟩ | ⟨v, rfl⟩
      · rcases submit_cases h with ⟨-, rfl⟩ | ⟨-, -, rfl⟩ | ⟨-, i, hdec, h⟩
        · exact refuse _ rest
        · exact refuse _ rest
        · rcases exec_cases h with ⟨-, rfl⟩ | ⟨-, -, rfl⟩ | ⟨-, -, -, rfl⟩ | ⟨hb, hu, hp, rfl⟩
          · exact refuse _ rest
          · exact refuse _ rest
          · exact refuse _ rest
          · exact .command w i rest hi hdec hb hu hp
      · exact .config w rest hi hb
      · exact refuse v rest
    · exact .poke a b rest hi
    · obtain ⟨v, f, r, q, he, hv⟩ := poll_shape { s with inbox := rest }
      rw [he]
      exact .access v f r q hv
    · exact stop rest
    · exact .reset rest hi

end Sys2Proof.Machine
end

