-- ==== Sys2Proof/Laws/Run.lean ====
section
/-! SUPPORT. Runs of the engine: cutting a run in two, the host's side that no step reads, where no step is
enabled, the list of overwritten bytes that no step changes, and that every step of the engine leaves another state. -/

namespace Sys2Proof.Machine

/-! ## Cutting a run -/

/-- A run of the engine may be cut anywhere. -/
theorem engineRun_add (n : Nat) : ∀ (m : Nat) (s : State),
    State.engineRun (m + n) s = State.engineRun n (State.engineRun m s)
  | 0, s => by rw [Nat.zero_add, engineRun_zero]
  | m + 1, s => by
    cases he : s.engineStep with
    | none => rw [engineRun_of_none he, engineRun_of_none he]; exact (engineRun_of_none he n).symm
    | some t =>
      rw [engineRun_of_some he, Nat.add_right_comm, engineRun_of_some he, engineRun_add n m t]

/-! ## The host's side -/

/-- The waiting inputs and the host's record put in place of a state's own. -/
def State.withHost (s : State) (q : List Arrival) (r : List HostRead) : State :=
  { s with inbox := q, hostReads := r }

theorem busWait_withHost (s : State) (q : List Arrival) (r : List HostRead)
    {f : BusDraw → State → State} (hf : ∀ d t, f d (t.withHost q r) = (f d t).withHost q r) :
    (s.withHost q r).busWait f = (s.busWait f).map (fun t => t.withHost q r) := by
  have hd : (s.withHost q r).nextDraw = s.nextDraw := drawAt_congr 0 rfl rfl
  have hc : (s.withHost q r).cfgTimeout = s.cfgTimeout := rfl
  simp only [State.busWait, hd, hc]
  split
  · rfl
  · split
    · rfl
    · exact congrArg some (hf _ s.popDraw)

/-- No line of the pseudocode reads the waiting inputs or the host's record. -/
theorem perform_withHost (s : State) (m : Micro) (u : Useq) (q : List Arrival) (r : List HostRead) :
    (s.withHost q r).perform m u = (s.perform m u).map (fun t => t.withHost q r) := by
  have wait {f : BusDraw → State → State} (hf : ∀ d t, f d (t.withHost q r) = (f d t).withHost q r) :
      State.busWait { s.withHost q r with useq := some u } f =
        (State.busWait { s with useq := some u } f).map (fun t => t.withHost q r) :=
    busWait_withHost { s with useq := some u } q r hf
  have text : ∀ a, (s.withHost q r).textByte u.stale a = s.textByte u.stale a := fun _ => rfl
  cases m
  case drainStop =>
    simp only [State.perform]
    by_cases hp : s.stopPending = true
    · rw [if_pos hp, if_pos (show (s.withHost q r).stopPending = true from hp)]
      exact wait (fun _ _ => rfl)
    · rw [if_neg hp, if_neg (show ¬(s.withHost q r).stopPending = true from hp)]
      rfl
  case startCond rep =>
    simp only [State.perform]
    exact wait (fun _ _ => rfl)
  case transmit b =>
    simp only [State.perform]
    exact wait (fun _ _ => rfl)
  case receive mack =>
    simp only [State.perform]
    exact wait (fun _ _ => rfl)
  case text a =>
    simp only [State.perform, text, State.afterTextByte]
    split <;> split <;> rfl
  all_goals rfl

/-- No engine step reads the waiting inputs or the host's record. -/
theorem engineStep_withHost (s : State) (q : List Arrival) (r : List HostRead) :
    (s.withHost q r).engineStep = s.engineStep.map (fun t => t.withHost q r) := by
  have hu : (s.withHost q r).useq = s.useq := rfl
  simp only [State.engineStep, hu]
  rcases s.useq with _ | ⟨todo, res, hi, lo, timer, st⟩
  · rfl
  · rcases timer with _ | w
    · rcases todo with _ | ⟨m, rest⟩
      · rfl
      · exact perform_withHost s m _ q r
    · rfl

/-- A run of the engine does the same whatever waits and whatever the host has read. -/
theorem engineRun_withHost (q : List Arrival) (r : List HostRead) : ∀ (n : Nat) (s : State),
    State.engineRun n (s.withHost q r) = (State.engineRun n s).withHost q r
  | 0, _ => rfl
  | n + 1, s => by
    have h := engineStep_withHost s q r
    cases he : s.engineStep with
    | none =>
      rw [he] at h
      rw [engineRun_of_none he, engineRun_of_none h]
    | some t =>
      rw [he] at h
      rw [engineRun_of_some he, engineRun_of_some h, engineRun_withHost q r n t]

/-- What the engine does until the next input lands. -/
theorem burst_due {s : State} {n : Nat} {x : Input} {rest : List Arrival} (h : s.inbox = ⟨n, x⟩ :: rest) :
    s.burst = (State.engineRun n s).withHost (⟨0, x⟩ :: rest) s.hostReads := by
  have hh := engineRun_sameHost n s
  simp only [State.burst, State.room, h, State.inputDue, State.withHost, hh.inbox, hh.hostReads]

/-- A run of the machine goes on from its first step's next state. -/
theorem core_run_succ {s t : State} (n : Nat) (h : step s = .next t) :
    Sys2Proof.core.run (n + 1) s = Sys2Proof.core.run n t := by
  have h : Sys2Proof.core.step s = .next t := h
  simp only [Host.Core.run, h]

/-! ## Where no step is enabled -/

/-- A line that asks the device has no step on a hang with no timeout. -/
theorem perform_of_hang {s : State} {m : Micro} {u : Useq} (ha : m.asksDevice s.stopPending = true)
    (h0 : s.cfgTimeout = 0#8) (hh : (s.drawAt 0).hang = true) : s.perform m u = none := by
  have hb : ∀ f, State.busWait { s with useq := some u } f = none := fun f =>
    busWait_of_hang (s := { s with useq := some u }) f h0 hh
  cases m <;> first
    | (cases ha; done)
    | (simp only [State.perform]; exact hb _)
    | (simp only [State.perform]; rw [if_pos (by exact ha)]; exact hb _)

/-- A line with no step asks the device, which hangs, with no timeout. -/
theorem perform_none {s : State} {m : Micro} {u : Useq} (h : s.perform m u = none) :
    m.asksDevice s.stopPending = true ∧ s.cfgTimeout = 0#8 ∧ (s.drawAt 0).hang = true := by
  have hb {f} (hf : State.busWait { s with useq := some u } f = none) :
      s.cfgTimeout = 0#8 ∧ (s.drawAt 0).hang = true := by
    unfold State.busWait at hf
    split at hf
    · cases hf
    · next hc =>
      split at hf
      · next hh => exact ⟨Decidable.byContradiction (fun h0 => hc ⟨h0, .inl hh⟩), hh⟩
      · cases hf
  cases m <;> simp only [State.perform] at h
  case drainStop =>
    split at h
    · next hp => exact ⟨hp, hb h⟩
    · cases h
  case text a => split at h <;> cases h
  case startCond => exact ⟨rfl, hb h⟩
  case transmit => exact ⟨rfl, hb h⟩
  case receive => exact ⟨rfl, hb h⟩
  all_goals cases h

/-- The engine has no step exactly where no command executes or the bus holds it for good (R101). -/
theorem engineStep_none_iff (s : State) :
    s.engineStep = none ↔ s.useq = none ∨ (s.cfgTimeout = 0#8 ∧ (s.drawAt 0).hang = true ∧
      ∃ u m rest, s.useq = some u ∧ u.timer = none ∧ u.todo = m :: rest ∧
        m.asksDevice s.stopPending = true) := by
  constructor
  · intro h
    rcases hu : s.useq with _ | u
    · exact .inl rfl
    · rcases ht : u.timer with _ | w
      · rcases hm : u.todo with _ | ⟨m, rest⟩
        · rw [engineStep_finish hu ht hm] at h
          cases h
        · rw [engineStep_perform hu ht hm] at h
          obtain ⟨h1, h2, h3⟩ := perform_none h
          exact .inr ⟨h2, h3, u, m, rest, rfl, ht, hm, h1⟩
      · simp [State.engineStep, hu, ht] at h
  · rintro (h | ⟨h0, hh, u, m, rest, hu, ht, hm, ha⟩)
    · exact engineStep_idle h
    · rw [engineStep_perform hu ht hm]
      exact perform_of_hang ha h0 hh

/-! ## The overwritten bytes -/

/-- The list of overwritten bytes is `st`, where a command executes (R65). -/
def State.staleIs (st : List Host.Cell) (s : State) : Prop := ∀ u, s.useq = some u → u.stale = st

theorem Performed.staleIs {s t : State} {u : Useq} {m : Micro} (h : Performed s u m t) : t.staleIs u.stale := by
  cases h
  case terminator a hc => unfold State.afterTextByte; split <;> (intro v hv; cases hv)
  case character a hc => unfold State.afterTextByte; split <;> (intro v hv; cases hv; rfl)
  case plain hm _ => intro v hv; cases hv; rfl
  all_goals (intro v hv; cases hv; try rfl)

/-- No step of the engine changes the list of overwritten bytes. -/
theorem engineRun_staleIs {st : List Host.Cell} (n : Nat) (s : State) (h : s.staleIs st) :
    (State.engineRun n s).staleIs st := by
  refine engineRun_induct (P := State.staleIs st) (fun a b ha hab => ?_) n s h
  refine engineStep_keeps (P := State.staleIs st) (fun a u m rest b ha hu _ _ hp => ?_)
    (fun a u ha hu v hv => ?_) (fun a u ha hu _ _ v hv => ?_) ha hab
  · have := hp.staleIs
    rwa [show ({ u with todo := rest } : Useq).stale = st from ha u hu] at this
  · cases hv
    exact ha u hu
  · cases hv

/-! ## Every step of the engine leaves another state -/

/-- What a line still to do counts: the fall of a nibble less than the event it appends. -/
def Micro.weight : Micro → Int
  | .nibFall => -5
  | .wait _ => 2
  | _ => 1

/-- What is left to do, the less the more events the display has seen; a finished command has the least. -/
def Useq.left (u : Useq) : Int := (u.todo.map Micro.weight).sum + if u.timer.isSome then 1 else 0

/-- Falls with every step of the engine, while a command executes. -/
def State.left (s : State) (u : Useq) : Int := u.left - 6 * s.dtrace.length

/-- A line of the pseudocode ends the command or brings it on. -/
theorem Performed.left {s t : State} {u : Useq} {m : Micro} (h : Performed s u m t) (ht : u.timer = none) :
    t.useq = none ∨ ∃ v, t.useq = some v ∧ t.left v < s.left u + m.weight := by
  have hl : u.left = (u.todo.map Micro.weight).sum := by simp [Useq.left, ht]
  cases h
  case timeout => exact .inl rfl
  case terminator a hc => exact .inl (by unfold State.afterTextByte; split <;> rfl)
  case character a hc =>
    unfold State.afterTextByte
    split <;> refine .inr ⟨_, rfl, ?_⟩ <;>
      simp [State.left, Useq.left, xferSteps, nibSteps, Micro.weight, ht, State.popFree] <;> omega
  case wait w =>
    refine .inr ⟨_, rfl, ?_⟩
    simp [State.left, Useq.left, Micro.weight, ht]
    omega
  case plain hm hw =>
    refine .inr ⟨_, rfl, ?_⟩
    cases m <;> first
      | (cases hm; done)
      | exact absurd rfl (hw _)
      | (simp [State.left, Micro.weight, State.applyPlain]; try omega)
  all_goals
    refine .inr ⟨_, rfl, ?_⟩
    simp [State.left, Useq.left, Micro.weight, ht, State.popDraw]

/-- An engine step ends the command or brings it on. -/
theorem engineStep_left {s t : State} (h : s.engineStep = some t) :
    ∃ u, s.useq = some u ∧ (t.useq = none ∨ ∃ v, t.useq = some v ∧ t.left v < s.left u) := by
  obtain ⟨u, hu, ⟨w, hw, rfl⟩ | ⟨ht, hm, rfl⟩ | ⟨ht, m, rest, hm, hp⟩⟩ := engineStep_cases h
  · exact ⟨u, hu, .inr ⟨_, rfl, by simp [State.left, Useq.left, hw]⟩⟩
  · exact ⟨u, hu, .inl rfl⟩
  · refine ⟨u, hu, ?_⟩
    rcases (performed hp).left ht with h | ⟨v, hv, hl⟩
    · exact .inl h
    · refine .inr ⟨v, hv, ?_⟩
      have : s.left u = s.left { u with todo := rest } + m.weight := by
        simp [State.left, Useq.left, hm, ht]
        omega
      omega

/-- A run of at least one step leaves another state. -/
theorem engineRun_ne {s t : State} (h : s.engineStep = some t) (n : Nat) :
    (State.engineRun (n + 1) s).useq ≠ s.useq ∨ (State.engineRun (n + 1) s).dtrace ≠ s.dtrace := by
  obtain ⟨u, hu, hl⟩ := engineStep_left h
  have key : ∀ x : State, (x.useq = none ∨ ∃ v, x.useq = some v ∧ x.left v < s.left u) →
      x.useq ≠ s.useq ∨ x.dtrace ≠ s.dtrace := by
    rintro x (hx | ⟨v, hv, hx⟩)
    · exact .inl (by simp [hx, hu])
    · by_contra hc
      push Not at hc
      obtain ⟨h1, h2⟩ := hc
      rw [hv, hu, Option.some.injEq] at h1
      rw [State.left, State.left, h1, h2] at hx
      omega
  refine key _ ?_
  rw [engineRun_of_some h]
  refine engineRun_induct (P := fun x => x.useq = none ∨ ∃ v, x.useq = some v ∧ x.left v < s.left u)
    (fun a b ha hab => ?_) n t hl
  obtain ⟨w, hw, hb⟩ := engineStep_left hab
  rcases ha with ha | ⟨v, hv, ha⟩
  · rw [ha] at hw
    cases hw
  · rw [hv, Option.some.injEq] at hw
    subst hw
    rcases hb with hb | ⟨v', hv', hb⟩
    · exact .inl hb
    · exact .inr ⟨v', hv', by omega⟩

end Sys2Proof.Machine
end

