-- ==== Sys2Proof/Laws/Text.lean ====
section
/-! SUPPORT. Characters and numbers: the steps that send a list of characters, and the digits of a number. -/

namespace Sys2Proof.Machine

/-! ## Sending characters -/

/-- The events of a list of bytes sent with the register-select line at `rs` (R143). -/
def charEvents (rs : Bool) (cs : List Byte) : List DispEvent :=
  cs.flatMap (fun c => [.nib rs (c.extractLsb' 4 4), .nib rs (c.extractLsb' 0 4)])

theorem chars_plain (rs : Bool) (cs : List Byte) :
    (cs.flatMap (xferSteps rs)).all Micro.isPlain = true := by
  rw [List.all_flatMap]
  exact List.all_eq_true.mpr (fun c _ => rfl)

/-- Four engine steps a character. -/
theorem chars_cost (rs : Bool) (cs : List Byte) :
    ((cs.flatMap (xferSteps rs)).map Micro.cost).sum = 4 * cs.length := by
  induction cs with
  | nil => rfl
  | cons c cs ih =>
    rw [List.flatMap_cons, List.map_append, List.sum_append, ih]
    simp [xferSteps, nibSteps, Micro.cost]
    omega

/-- What sending a list of bytes does to the display's lines and trace. -/
theorem chars_applied (rs : Bool) (cs : List Byte) (s : State) :
    (cs.flatMap (xferSteps rs)).foldl State.applyPlain s =
      { s with
        dtrace := s.dtrace ++ charEvents rs cs
        rs := if cs = [] then s.rs else rs
        d := match cs.getLast? with
          | some c => c.extractLsb' 0 4
          | none => s.d
        e := if cs = [] then s.e else false } := by
  induction cs generalizing s with
  | nil => simp [charEvents]
  | cons c cs ih =>
    rw [List.flatMap_cons, List.foldl_append, ih]
    cases cs with
    | nil => simp [charEvents, xferSteps, nibSteps, State.applyPlain, highNibble, lowNibble]
    | cons c' cs =>
      simp [charEvents, xferSteps, nibSteps, State.applyPlain, highNibble, lowNibble,
        List.getLast?_cons]

/-- DISP_TEXT's loop where the host has written nothing meanwhile: it ends at a 0x00 byte, else it sends the
byte and goes on at the next address (R180). -/
theorem text_step (s : State) (a : HAddr) (r : Result) (hi lo : Byte) :
    State.engineStep { s with useq := some ⟨[.text a], r, hi, lo, none, []⟩ } =
      some (
        if s.hmem.read a = 0#8 then s.finish .ok
        else
          { s with
            useq := some ⟨xferSteps true (s.hmem.read a) ++ [.text (a + 1)], r, hi, lo, none, []⟩ }) := by
  by_cases h : s.hmem.read a = 0#8
  · simp [State.engineStep, State.perform, State.textByte, State.afterTextByte, h]
    rfl
  · simp [State.engineStep, State.perform, State.textByte, State.afterTextByte, h]

/-! ## Digits -/

/-- The code of a digit reads back as the digit. -/
theorem codeDigit_digitCode : ∀ k < 16, codeDigit (digitCode k) = some k := by decide

theorem digitsFuel_length_ge (base f n : Nat) (acc : List Nat) :
    acc.length ≤ (digitsFuel base f n acc).length := by
  induction f generalizing n acc with
  | zero => simp [digitsFuel]
  | succ f ih =>
    simp only [digitsFuel]
    split
    · simp
    · have := ih (n / base) (n % base :: acc)
      simp at this
      omega

/-- A number below `base ^ (k + 1)` has at most `k + 1` digits. -/
theorem digitsFuel_length_le {base : Nat} (hb : 1 < base) (k : Nat) :
    ∀ (f n : Nat) (acc : List Nat), n < base ^ (k + 1) → k < f →
      (digitsFuel base f n acc).length ≤ k + 1 + acc.length := by
  induction k with
  | zero =>
    intro f n acc hn hf
    obtain ⟨f, rfl⟩ : ∃ g, f = g + 1 := ⟨f - 1, by omega⟩
    simp only [digitsFuel]
    rw [if_pos (by simpa using hn)]
    simp
  | succ k ih =>
    intro f n acc hn hf
    obtain ⟨f, rfl⟩ : ∃ g, f = g + 1 := ⟨f - 1, by omega⟩
    simp only [digitsFuel]
    split
    · simp
    · have := ih f (n / base) (n % base :: acc)
        (by rw [Nat.div_lt_iff_lt_mul (by omega)]; rwa [pow_succ] at hn) (by omega)
      simp at this
      omega

/-- A number from `base ^ k` up has at least `k + 1` digits. -/
theorem digitsFuel_length_lower {base : Nat} (hb : 1 < base) (k : Nat) :
    ∀ (f n : Nat) (acc : List Nat), base ^ k ≤ n → k < f →
      k + 1 + acc.length ≤ (digitsFuel base f n acc).length := by
  induction k with
  | zero =>
    intro f n acc _ hf
    obtain ⟨f, rfl⟩ : ∃ g, f = g + 1 := ⟨f - 1, by omega⟩
    simp only [digitsFuel]
    split
    · simp
      omega
    · have := digitsFuel_length_ge base f (n / base) (n % base :: acc)
      simp at this
      omega
  | succ k ih =>
    intro f n acc hn hf
    obtain ⟨f, rfl⟩ : ∃ g, f = g + 1 := ⟨f - 1, by omega⟩
    have hbn : base ≤ n := by
      have : base ^ 1 ≤ base ^ (k + 1) := Nat.pow_le_pow_right (by omega) (by omega)
      rw [pow_one] at this
      omega
    simp only [digitsFuel]
    rw [if_neg (by omega)]
    have := ih f (n / base) (n % base :: acc)
      (by rw [Nat.le_div_iff_mul_le (by omega)]; rwa [pow_succ] at hn) (by omega)
    simp at this
    omega

/-- Every digit is below the base. -/
theorem digitsFuel_lt {base : Nat} (hb : 1 < base) (f : Nat) :
    ∀ (n : Nat) (acc : List Nat), (∀ d ∈ acc, d < base) → n < base ^ f →
      ∀ d ∈ digitsFuel base f n acc, d < base := by
  induction f with
  | zero => intro n acc h _; exact h
  | succ f ih =>
    intro n acc h hn
    simp only [digitsFuel]
    split
    · next hlt =>
      intro d hd
      rcases List.mem_cons.mp hd with rfl | hd
      · exact hlt
      · exact h d hd
    · refine ih _ _ (fun d hd => ?_)
        (by rw [Nat.div_lt_iff_lt_mul (by omega)]; rwa [pow_succ] at hn)
      rcases List.mem_cons.mp hd with rfl | hd
      · exact Nat.mod_lt _ (by omega)
      · exact h d hd

/-- The first digit of a positive number is not 0. -/
theorem digitsFuel_head {base : Nat} (hb : 1 < base) (f : Nat) :
    ∀ (n : Nat) (acc : List Nat), 0 < n → n < base ^ f →
      ∃ d l, digitsFuel base f n acc = d :: l ∧ 0 < d ∧ d < base := by
  induction f with
  | zero => intro n acc h hn; simp at hn; omega
  | succ f ih =>
    intro n acc h hn
    simp only [digitsFuel]
    split
    · next hlt => exact ⟨n, acc, rfl, h, hlt⟩
    · exact ih _ _ (Nat.div_pos (by omega) (by omega))
        (by rw [Nat.div_lt_iff_lt_mul (by omega)]; rwa [pow_succ] at hn)

/-- Reading the digits of a number back goes on from the number. -/
theorem parse_digitsFuel {base : Nat} (hb : 1 < base) (hb' : base ≤ 16) (f : Nat) :
    ∀ (n : Nat) (acc : List Nat), n < base ^ f →
      parseDigits base ((digitsFuel base f n acc).map digitCode) 0 =
        parseDigits base (acc.map digitCode) n := by
  induction f with
  | zero =>
    intro n acc h
    obtain rfl : n = 0 := by simpa using h
    rfl
  | succ f ih =>
    intro n acc h
    simp only [digitsFuel]
    split
    · next hn =>
      simp only [List.map_cons, parseDigits, codeDigit_digitCode n (by omega)]
      simp [hn]
    · rw [ih _ _ (by rw [Nat.div_lt_iff_lt_mul (by omega)]; rwa [pow_succ] at h)]
      have hm : n % base < base := Nat.mod_lt _ (by omega)
      simp only [List.map_cons, parseDigits, codeDigit_digitCode (n % base) (by omega)]
      rw [if_pos hm, Nat.div_add_mod']

theorem digitsOf_zero {base : Nat} (hb : 1 < base) : digitsOf base 0 = [0] := by
  simp only [digitsOf, digitsFuel]
  rw [if_pos (by omega)]

end Sys2Proof.Machine
end

