-- ==== Sys2Proof/Laws/Words.lean ====
section
/-! SUPPORT. The words the registers read as, as numbers: each field at its place (10_state.md R22, R31, R32, R33). -/

namespace Sys2Proof.Machine

theorem statusWord_toNat (s : State) :
    s.statusWord.toNat =
      s.viol.code.toNat * 65536 + s.err.code.toNat * 4096 + s.tempValid.toNat * 1024 +
        s.rs.toNat * 512 + s.dispInit.toNat * 256 + s.phase.code.toNat * 32 +
        s.stopPending.toNat * 16 + s.busInit.toNat * 8 + s.ack.toNat * 4 + s.done.toNat * 2 +
        s.busy.toNat := by
  unfold State.statusWord
  repeat rw [toNat_fields]
  simp
  omega

theorem statusWordBusy_toNat (s : State) (f : Word) :
    (s.statusWordBusy f).toNat =
      s.viol.code.toNat * 65536 + f.toNat / 4096 % 16 * 4096 + f.toNat / 2 % 1024 * 2 + 1 := by
  unfold State.statusWordBusy
  repeat rw [toNat_fields]
  simp [Nat.shiftRight_eq_div_pow]
  omega

theorem cfgWord_toNat (s : State) :
    s.cfgWord.toNat =
      s.cfgTimeout.toNat * 16777216 + s.cfgSreg.toNat * 65536 + s.cfgSaddr.toNat * 256 +
        s.cfgDiv.toNat := by
  unfold State.cfgWord
  repeat rw [toNat_fields]
  simp
  omega

theorem tempWord_toNat (s : State) :
    s.tempWord.toNat = s.tempRaw.toNat / 8 * 65536 + s.tempRaw.toNat := by
  unfold State.tempWord codeOf
  repeat rw [toNat_fields]
  simp [Nat.shiftRight_eq_div_pow]
  omega

theorem rxdataWord_toNat (s : State) : s.rxdataWord.toNat = s.rxdata.toNat := by
  unfold State.rxdataWord
  rw [toNat_fields]
  simp

end Sys2Proof.Machine
end

