-- ==== Sys2Proof/Tests/Slice0.lean ====
section
/-! SUPPORT. Tests: ill-formed lines, command words written out bit by bit, one or two single steps of each command on
the worked examples of the spec, and for every statement that has hypotheses a state and operands that
meet them. Expected results come from 95_test_vectors.md and the rules' examples. -/

namespace Sys2Proof.Tests

open Sys2Proof.Machine

/-! ## Helpers -/

/-- The outcome is a next state with the property. -/
def leads (o : Outcome) (p : State → Bool) : Bool :=
  match o with
  | .next s => p s
  | .fault _ => false
  | .refused _ => false

/-- The device acknowledges and would send `data`. -/
def acks (data : Byte) : BusDraw := ⟨false, false, true, data⟩

/-- The device does not acknowledge. -/
def nacks : BusDraw := ⟨false, false, false, 0x00#8⟩

/-- The device hangs. -/
def hangs : BusDraw := ⟨true, false, false, 0x00#8⟩

/-- BUS_INIT done, the bus in phase `p`, the device's answers `dev`. -/
def onBus (p : Phase) (dev : List BusDraw) : State :=
  { State.reset with busInit := true, phase := p, dev := dev }

/-- DISP_INIT done. -/
def onDisplay : State := { State.reset with dispInit := true, driven := true }

/-- The next input lands after `n` engine steps. -/
def within (n : Nat) (s : State) : State := { s with inbox := [⟨n, .wait⟩] }

/-- The input is due. -/
def due (i : Input) (s : State) : State := { s with inbox := [⟨0, i⟩] }

/-- A DISP_CLEAR executes: its word in `S.cmd`, its steps still to do. -/
def clearing : State :=
  { onDisplay with
    busy := true, cmd := some 0x23000000#32,
    useq := some ⟨xferSteps false cmdClear ++ [.wait 3000], .ok, 0#8, 0#8, none, []⟩ }

/-- A BUS_SEND executes and waits for the device, whose answers are `dev`. -/
def sending (dev : List BusDraw) : State :=
  { onBus .addr dev with
    busy := true, cmd := some 0x13000091#32,
    useq := some ⟨[.transmit 0x91#8, .addressPhase 0x91#8], .ok, 0#8, 0#8, none, []⟩ }

/-- A DISP_TEXT stands before the byte at 0x0100, which the host has overwritten. -/
def racing : State :=
  { onDisplay with
    busy := true, cmd := some 0x30000100#32, hmem := [(0x0100, 0x42#8)],
    useq := some ⟨[.text 0x0100#16], .ok, 0#8, 0#8, none, [(0x0100, 0x41#8)]⟩ }

/-- "Hi" at 0x0100 (95_test_vectors.md section 6). -/
def hiText : Memory := [(0x0100, 0x48#8), (0x0101, 0x69#8)]

/-- "AB" across the top of HMEM. -/
def wrapText : Memory := [(0x0000, 0x42#8), (0xFFFF, 0x41#8)]

/-! ## Lines that are not well formed (R88) -/

theorem test_send_too_large : (Line.busSend 256).wf = false := by decide
theorem test_send_negative : (Line.busSend (-1)).wf = false := by decide
theorem test_cmd_too_large : (Line.lcdCmd 256).wf = false := by decide
theorem test_char_too_large : (Line.lcdChar 256).wf = false := by decide
theorem test_goto_col_too_large : (Line.lcdGoto 256 0).wf = false := by decide
theorem test_goto_row_too_large : (Line.lcdGoto 0 256).wf = false := by decide
theorem test_text_too_large : (Line.lcdText 0x10000).wf = false := by decide
theorem test_hex_too_large : (Line.lcdHex 0x1000000).wf = false := by decide
theorem test_hex_negative : (Line.lcdHex (-1)).wf = false := by decide
theorem test_int_too_large : (Line.lcdInt 8388608).wf = false := by decide
theorem test_int_too_small : (Line.lcdInt (-8388609)).wf = false := by decide
theorem test_value_too_large : (Line.wr .cfg 0x100000000).wf = false := by decide
theorem test_ill_formed_refused : assembleLine (.lcdHex 0x1000000) = none := by decide
theorem test_bounds_accepted :
    (Line.busSend 255).wf && (Line.lcdGoto 255 255).wf && (Line.lcdText 0xFFFF).wf &&
      (Line.lcdHex 0xFFFFFF).wf && (Line.lcdInt 8388607).wf && (Line.lcdInt (-8388608)).wf = true := by
  decide

/-! ## Command words written out from R81 and R83: opcode, three bytes -/

theorem test_word_busInit :
    decode 0b00010000_00000000_00000000_00000000#32 = some .busInit := by decide
theorem test_word_busStart :
    decode 0b00010001_00000000_00000000_00000000#32 = some .busStart := by decide
theorem test_word_busStop :
    decode 0b00010010_00000000_00000000_00000000#32 = some .busStop := by decide
theorem test_word_busSend :
    decode 0b00010011_00000000_00000000_10010000#32 = some (.busSend 0x90#8) := by decide
theorem test_word_busReadAck :
    decode 0b00010100_00000000_00000000_00000000#32 = some .busReadAck := by decide
theorem test_word_busReadNack :
    decode 0b00010101_00000000_00000000_00000000#32 = some .busReadNack := by decide
theorem test_word_dispInit :
    decode 0b00100000_00000000_00000000_00000000#32 = some .dispInit := by decide
theorem test_word_dispCmd :
    decode 0b00100001_00000000_00000000_00001100#32 = some (.dispCmd 0x0C#8) := by decide
theorem test_word_dispChar :
    decode 0b00100010_00000000_00000000_01011000#32 = some (.dispChar 0x58#8) := by decide
theorem test_word_dispClear :
    decode 0b00100011_00000000_00000000_00000000#32 = some .dispClear := by decide
theorem test_word_dispHome :
    decode 0b00100100_00000000_00000000_00000000#32 = some .dispHome := by decide
theorem test_word_dispGoto :
    decode 0b00100101_00000000_00000011_00010011#32 = some (.dispGoto 19#8 3#8) := by decide
theorem test_word_dispText :
    decode 0b00110000_00000000_00000001_00000000#32 = some (.dispText 0x0100#16) := by decide
theorem test_word_dispHex :
    decode 0b00110001_00000000_00000000_00011111#32 = some (.dispHex 0x1F#24) := by decide
theorem test_word_dispInt :
    decode 0b00110010_11110000_10111101_11000001#32 = some (.dispInt 0xF0BDC1#24) := by decide
theorem test_word_tempRead :
    decode 0b01000000_00000000_00000000_00000000#32 = some .tempRead := by decide
theorem test_operand_dispInt : intOperand 0xF0BDC1#24 = -999999 := by decide

/-- Reserved opcodes and nonzero reserved bits (95_test_vectors.md section 2). -/
theorem test_illegal_words :
    [0x00000000#32, 0x16000000#32, 0x41000000#32, 0xFF000000#32, 0x10000001#32, 0x40800000#32,
      0x13000190#32, 0x25010000#32, 0x30010000#32].all (fun w => decide (decode w = none)) = true := by
  decide

/-- The host asks the decoder for a row's bits. -/
theorem test_table_word : decodeTableWord 32 0x25000205 = some (.dispGoto 5#8 2#8) := by decide

/-! ## Text to lines (R87, R88) -/

theorem test_parse_goto :
    parseLine "l1: lcd.goto 19, 0x3 ; corner".toList = some (some (.lcdGoto 19 3)) := by decide
theorem test_parse_literal : parseLine "lcd.char ';'".toList = some (some (.lcdChar 59)) := by decide
theorem test_parse_host_lines :
    parseProgram ["rd RXDATA".toList, "; nothing".toList, "wr CFG, 16".toList, "wait".toList] =
      some [.rd .rxdata, .wr .cfg 16, .wait] := by decide
theorem test_assemble_int :
    assembleLine (.lcdInt (-42)) = some (.write 32 0x00#8 0x32FFFFD6#32) := by decide

/-! ## One step of each command (95_test_vectors.md sections 4 to 7) -/

theorem test_busInit_from_reset :
    leads (exec .busInit State.reset) (fun t =>
      t.statusWord == 0x00000008#32 && t.divActive == 0x20#8 && t.pullup && t.btrace == []) = true := by
  decide
theorem test_busInit_in_addr :
    leads (exec .busInit (onBus .addr [])) (fun t => t.viol == .sequence && !t.done) = true := by decide

theorem test_busStart_in_idle :
    leads (exec .busStart (onBus .idle [acks 0#8])) (fun t =>
      t.statusWord == 0x0000002A#32 && t.btrace == [.start false]) = true := by decide
theorem test_busStart_repeated :
    leads (exec .busStart (onBus .tx [acks 0#8])) (fun t =>
      t.statusWord == 0x0000002A#32 && t.btrace == [.start true]) = true := by decide

theorem test_busStop_in_tx :
    leads (exec .busStop { onBus .tx [] with ack := true }) (fun t =>
      t.statusWord == 0x0000001C#32 && t.btrace == []) = true := by decide
theorem test_busStop_in_rx :
    leads (exec .busStop (onBus .rx [])) (fun t => t.viol == .sequence && t.phase == .rx) = true := by
  decide

theorem test_busSend_read_address :
    leads (exec (.busSend 0x91#8) (onBus .addr [acks 0#8])) (fun t =>
      t.statusWord == 0x0000006E#32 && t.btrace == [.tx 0x91#8 true] && t.txd == 0x91#8) = true := by
  decide
theorem test_busSend_nack :
    leads (exec (.busSend 0x90#8) (onBus .addr [nacks])) (fun t =>
      t.statusWord == 0x0000104A#32 && t.btrace == [.tx 0x90#8 false]) = true := by decide

theorem test_busReadAck_in_rx :
    leads (exec .busReadAck { onBus .rx [acks 0x06#8] with ack := true }) (fun t =>
      t.statusWord == 0x0000006E#32 && t.rxdataWord == 0x00000006#32 && t.btrace == [.rx 0x06#8 true]) =
      true := by decide
theorem test_busReadAck_in_tx :
    leads (exec .busReadAck (onBus .tx [])) (fun t => t.viol == .sequence && t.rxdata == 0#8) = true := by
  decide

theorem test_busReadNack_in_rx :
    leads (exec .busReadNack { onBus .rx [acks 0x40#8] with ack := true }) (fun t =>
      t.statusWord == 0x0000008E#32 && t.rxdataWord == 0x00000040#32 && t.btrace == [.rx 0x40#8 false]) =
      true := by decide
theorem test_busReadNack_timeout :
    leads (exec .busReadNack { onBus .rx [hangs] with cfgTimeout := 1#8 }) (fun t =>
      t.statusWord == 0x00002000#32 && t.btrace == [.timeout]) = true := by decide

theorem test_dispInit_from_reset :
    leads (exec .dispInit State.reset) (fun t =>
      t.statusWord == 0x00000100#32 && t.dtrace.length == 17 && minMicros t.dtrace == 23692) = true := by
  decide
theorem test_dispInit_cut_short :
    leads (exec .dispInit (within 4 State.reset)) (fun t =>
      t.busy && t.e && t.dtrace == [.wait 15000] && !t.dispInit) = true := by decide

theorem test_dispCmd :
    leads (exec (.dispCmd 0x0C#8) onDisplay) (fun t =>
      t.dtrace == [.nib false 0x0#4, .nib false 0xC#4] && t.statusWord == 0x00000100#32) = true := by decide
theorem test_dispCmd_clear_has_no_wait :
    leads (exec (.dispCmd 0x01#8) onDisplay) (fun t =>
      t.dtrace == [.nib false 0x0#4, .nib false 0x1#4]) = true := by decide

theorem test_dispChar :
    leads (exec (.dispChar 0x41#8) onDisplay) (fun t =>
      t.dtrace == [.nib true 0x4#4, .nib true 0x1#4] && t.statusWord == 0x00000300#32) = true := by decide
theorem test_dispChar_from_reset :
    leads (exec (.dispChar 0x41#8) State.reset) (fun t => t.viol == .notInit && t.dtrace == []) = true := by
  decide

theorem test_dispClear :
    leads (exec .dispClear onDisplay) (fun t =>
      t.dtrace == [.nib false 0x0#4, .nib false 0x1#4, .wait 3000]) = true := by decide

theorem test_dispHome :
    leads (exec .dispHome onDisplay) (fun t =>
      t.dtrace == [.nib false 0x0#4, .nib false 0x2#4]) = true := by decide

theorem test_dispGoto :
    leads (exec (.dispGoto 5#8 2#8) onDisplay) (fun t =>
      t.dtrace == [.nib false 0x9#4, .nib false 0x9#4] && t.err == .ok) = true := by decide
theorem test_dispGoto_off_display :
    leads (exec (.dispGoto 20#8 0#8) { onDisplay with rs := true }) (fun t =>
      t.dtrace == [] && t.err == .dispRange && t.rs) = true := by decide

theorem test_dispText :
    leads (exec (.dispText 0x0100#16) { onDisplay with hmem := hiText }) (fun t =>
      t.dtrace == [.nib true 0x4#4, .nib true 0x8#4, .nib true 0x6#4, .nib true 0x9#4] && t.err == .ok) =
      true := by decide
theorem test_dispText_wraps :
    leads (exec (.dispText 0xFFFF#16) { onDisplay with hmem := wrapText }) (fun t =>
      t.dtrace == [.nib true 0x4#4, .nib true 0x1#4, .nib true 0x4#4, .nib true 0x2#4]) = true := by decide

theorem test_dispHex :
    leads (exec (.dispHex 0x1F#24) onDisplay) (fun t =>
      t.dtrace == [.nib true 0x3#4, .nib true 0x1#4, .nib true 0x6#4, .nib true 0x6#4]) = true := by decide
theorem test_dispHex_unsigned :
    leads (exec (.dispHex 0xFFFFFF#24) onDisplay) (fun t => t.dtrace.length == 12 && t.err == .ok) = true := by
  decide

theorem test_dispInt :
    leads (exec (.dispInt 0xFFFFD6#24) onDisplay) (fun t =>
      t.dtrace ==
        [.nib true 0x2#4, .nib true 0xD#4, .nib true 0x3#4, .nib true 0x4#4, .nib true 0x3#4,
          .nib true 0x2#4]) = true := by decide
theorem test_dispInt_overflow :
    leads (exec (.dispInt 0xF0BDC0#24) onDisplay) (fun t => t.dtrace == [] && t.err == .fmtOverflow) = true := by
  decide

theorem test_tempRead :
    leads
      (exec .tempRead
        (onBus .idle
          [acks 0#8, acks 0#8, acks 0#8, acks 0#8, acks 0#8, acks 0x06#8, acks 0x40#8]))
      (fun t =>
        t.tempWord == 0x00C80640#32 && t.tempValid && t.stopPending &&
          t.btrace ==
            [.start false, .tx 0x90#8 true, .tx 0x00#8 true, .start true, .tx 0x91#8 true,
              .rx 0x06#8 true, .rx 0x40#8 false]) = true := by decide
theorem test_tempRead_nack :
    leads
      (exec .tempRead
        (onBus .idle
          [acks 0#8, nacks, acks 0#8, acks 0#8, acks 0#8, acks 0xFF#8, acks 0xFF#8]))
      (fun t =>
        t.err == .busNack && !t.tempValid && t.ack && t.tempRaw == 0xFFFF#16 && t.btrace.length == 7) =
      true := by decide

/-! ## One step of the machine -/

theorem test_step_runs_command :
    leads (step (State.reset.withFetchWord 32 0x10000000)) (fun t => t.busInit) = true := by decide
theorem test_step_busy_is_overrun :
    leads (step (due (.write 32 0x00#8 0x00000000#32) clearing)) (fun t => t.viol == .overrun && t.busy) =
      true := by decide
theorem test_step_illegal_before_not_init :
    leads (step (due (.write 32 0x00#8 0x13000100#32) State.reset)) (fun t => t.viol == .illegalCmd) =
      true := by decide
theorem test_step_reads_cfg :
    leads (step (due (.read 32 0x10#8) State.reset)) (fun t => t.hostReads == [⟨0x10#8, 0x00004820#32⟩]) =
      true := by decide
theorem test_step_reset_keeps_hmem :
    leads (step (due .reset { clearing with hmem := hiText })) (fun t =>
      !t.busy && !t.dispInit && t.hmem == hiText) = true := by decide
theorem test_step_pending_stop :
    leads (step { onBus .idle [acks 0#8] with stopPending := true }) (fun t =>
      t.btrace == [.stop] && !t.stopPending) = true := by decide

/-! ## The temperature (95_test_vectors.md section 8) -/

theorem test_celsius : celsius false 0x0640#16 = 25 / 2 := by
  have : codeValue false 0x0640#16 = 200 := by decide
  rw [celsius, this]
  norm_num
theorem test_fahrenheit_negative : fahrenheit true 0xEC00#16 = -40 := by
  have : codeValue true 0xEC00#16 = -640 := by decide
  rw [fahrenheit, celsius, this]
  norm_num

/-! ## For every statement with hypotheses, states and operands that meet them -/

theorem witness_ResetEventRestoresAllButHostMemory :
    (due .reset clearing).inbox = ⟨0, .reset⟩ :: [] := by decide

theorem witness_StepRunsTheSubmittedCommand :
    (due (.write 32 0x00#8 0x23000000#32) onDisplay).inbox = ⟨0, .write 32 0x00#8 0x23000000#32⟩ :: [] ∧
      (due (.write 32 0x00#8 0x23000000#32) onDisplay).busy = false ∧
      decode 0x23000000#32 = some .dispClear ∧ onDisplay.busy = false := by decide

/-- A command accepted two engine steps before a read of CMD lands; a command in its midst with one, and with a moment
for a stop that is not pending. -/
theorem witness_InputWithoutEffectMayLandAnywhere :
    (let s := { onDisplay with inbox := [⟨2, .read 32 0x00#8⟩, ⟨5, .wait⟩] };
      s.busy = false ∧ s.unitReady .dispClear = true ∧ phaseTable s.phase .dispClear ≠ none ∧
        Instr.dispClear ≠ .busStop ∧ s.inbox = ⟨2, .read 32 0x00#8⟩ :: ⟨5, .wait⟩ :: []) ∧
    (let s := { clearing with inbox := [⟨3, .read 32 0x00#8⟩, ⟨1, .wait⟩] };
      s.busy = true ∧ s.inbox = ⟨3, .read 32 0x00#8⟩ :: ⟨1, .wait⟩ :: []) ∧
    (let s := { clearing with inbox := [⟨1, .stopStep⟩, ⟨1, .wait⟩] };
      s.busy = true ∧ s.inbox = ⟨1, .stopStep⟩ :: ⟨1, .wait⟩ :: [] ∧
        ∀ t, step s = .next t → t.stopPending = false) :=
  ⟨by decide, by decide, rfl, rfl, fun _ h => by cases h; rfl⟩

/-- The invariant, of states with the enable line low, from what can be computed. -/
theorem inv_of (s : State) (h1 : s.hmem.wf = true) (h2 : s.cmd.isSome = s.busy) (h3 : s.useq.isSome = s.busy)
    (h4 : ∀ w, s.cmd = some w → (decode w).isSome = true)
    (h5 : s.busInit = true ∨ s.phase = .idle ∧ s.stopPending = false)
    (h6 : s.phase = .idle ∨ s.stopPending = false) (h7 : s.dispInit = false ∨ s.driven = true)
    (h8 : s.e = false)
    (h9 : ∀ u, s.useq = some u → planOk s.busInit s.stopPending s.e s.driven u.todo = true)
    (h10 : ∀ w i u, s.cmd = some w → decode w = some i → s.useq = some u →
      u.todo.all (Micro.ofUnit i.unit) = true) : s.Inv :=
  ⟨h1, h2, h3, h4, fun h => h5.resolve_left (by simp [h]), fun h => h6.resolve_left h,
    fun h => h7.resolve_left (by simp [h]), fun _ => h8, h9, h10⟩

/-- The invariant of a state in the midst of a DISP_CLEAR, and of one in the midst of a BUS_SEND. -/
theorem clearing_inv : clearing.Inv :=
  inv_of _ rfl rfl rfl (fun _ h => by cases h; decide) (by decide) (by decide) (by decide) rfl
    (fun _ h => by cases h; decide) (fun _ i _ h1 h2 h3 => by
      cases h1; cases h3
      obtain rfl : i = .dispClear := (Option.some.inj (h2.symm.trans (by decide))); decide)

theorem sending_inv (dev : List BusDraw) : (sending dev).Inv :=
  inv_of _ rfl rfl rfl (fun _ h => by cases h; decide) (.inl rfl) (.inr rfl) (.inl rfl) rfl
    (fun _ h => by cases h; rfl) (fun _ i _ h1 h2 h3 => by
      cases h1; cases h3
      obtain rfl : i = .busSend 0x91#8 := (Option.some.inj (h2.symm.trans (by decide))); decide)

/-- The four ends of a run, and a state in the midst of a command. -/
theorem witness_RunEndsExactlyWhereNothingMoves :
    (∀ s ∈ [onDisplay, sending [hangs], { onBus .idle [hangs] with stopPending := true },
        { onBus .idle [hangs] with stopPending := true, cfgTimeout := 1#8 }],
      s.Inv ∧ s.ended = true) ∧
    clearing.Inv ∧ clearing.ended = false := by
  refine ⟨fun s hs => ?_, clearing_inv, by decide⟩
  simp only [List.mem_cons, List.not_mem_nil, or_false] at hs
  rcases hs with rfl | rfl | rfl | rfl
  · exact ⟨inv_of _ rfl rfl rfl nofun (by decide) (by decide) (by decide) rfl nofun nofun, by decide⟩
  · exact ⟨sending_inv _, by decide⟩
  · exact ⟨inv_of _ rfl rfl rfl nofun (by decide) (by decide) (by decide) rfl nofun nofun, by decide⟩
  · exact ⟨inv_of _ rfl rfl rfl nofun (by decide) (by decide) (by decide) rfl nofun nofun, by decide⟩

theorem witness_OneRowPerCommandWord :
    (opcodeMap[3] ∈ opcodeMap) ∧ 0x130000FF#32 &&& opcodeMap[3].mask = opcodeMap[3].value ∧
      (decode 0x130000FF#32).map Instr.mnemonic = some opcodeMap[3].mnemonic :=
  ⟨by simp [opcodeMap], by decide, by decide⟩

theorem witness_EncodeOfDecodeIsTheWord : decode 0x25FF00FF#32 = none ∧
    decode 0x2500FFFF#32 = some (.dispGoto 0xFF#8 0xFF#8) := by decide

theorem witness_AssembledLinesCarryTheirOperands :
    ((0 : Int) ≤ 0 ∧ (0 : Int) ≤ 255) ∧ ((0 : Int) ≤ 255 ∧ (255 : Int) ≤ 255) ∧
      ¬((0 : Int) ≤ 256 ∧ (256 : Int) ≤ 255) ∧ ¬((0 : Int) ≤ -1 ∧ (-1 : Int) ≤ 255) ∧
      ((0 : Int) ≤ 0xFFFF ∧ (0xFFFF : Int) ≤ 0xFFFF) ∧ ¬((0 : Int) ≤ 0x10000 ∧ (0x10000 : Int) ≤ 0xFFFF) ∧
      ((0 : Int) ≤ 0xFFFFFF ∧ (0xFFFFFF : Int) ≤ 0xFFFFFF) ∧
      ¬((0 : Int) ≤ 0x1000000 ∧ (0x1000000 : Int) ≤ 0xFFFFFF) ∧
      ((-8388608 : Int) ≤ -8388608 ∧ (-8388608 : Int) ≤ 8388607) ∧
      ((-8388608 : Int) ≤ 8388607 ∧ (8388607 : Int) ≤ 8388607) ∧
      ¬((-8388608 : Int) ≤ 8388608 ∧ (8388608 : Int) ≤ 8388607) ∧
      ¬((-8388608 : Int) ≤ -8388609 ∧ (-8388609 : Int) ≤ 8388607) := by decide

/-- One state for each clause: busy; an illegal word; an uninitialized unit of each kind; every way to be out of
sequence; accepted. -/
theorem witness_CommandAcceptanceChecksInOrder :
    clearing.busy = true ∧
      (State.reset.busy = false ∧ decode 0x00000000#32 = none) ∧
      (decode 0x11000000#32 = some .busStart ∧ Instr.busStart.unit ≠ .lcd ∧ State.reset.busInit = false) ∧
      (decode 0x23000000#32 = some .dispClear ∧ Instr.dispClear.unit = .lcd ∧
        State.reset.dispInit = false) ∧
      ((onBus .addr []).busInit = true ∧ (onBus .addr []).phase ≠ .idle ∧
        decode 0x10000000#32 = some .busInit ∧ decode 0x40000000#32 = some .tempRead) ∧
      ((onBus .rx []).phase = .rx ∧ decode 0x12000000#32 = some .busStop) ∧
      ((onBus .idle []).phase ≠ .addr ∧ (onBus .idle []).phase ≠ .tx ∧ (onBus .idle []).phase ≠ .rx ∧
        decode 0x13000000#32 = some (.busSend 0#8) ∧ decode 0x14000000#32 = some .busReadAck ∧
        decode 0x15000000#32 = some .busReadNack) ∧
      (onDisplay.busy = false ∧ onDisplay.dispInit = true) := by decide

/-- Another width, another alignment, the first and the last unmapped offset; the three read-only registers. -/
theorem witness_IllegalAccessesOnlyMarkViol :
    (due (.read 16 0x04#8) onDisplay).inbox = ⟨0, .read 16 0x04#8⟩ :: [] ∧ (16 : Nat) ≠ 32 ∧
      (0x02#8).toNat % 4 ≠ 0 ∧ 0x14 ≤ (0x14#8).toNat ∧ 0x14 ≤ (0xFC#8).toNat ∧ ¬0x14 ≤ (0x10#8).toNat ∧
      (due (.write 32 0x0C#8 0#32) onDisplay).inbox = ⟨0, .write 32 0x0C#8 0#32⟩ :: [] := by decide

theorem witness_CfgWriteSetsFieldsUnlessBusy :
    (due (.write 32 0x10#8 0xFFFFFFFF#32) State.reset).inbox = ⟨0, .write 32 0x10#8 0xFFFFFFFF#32⟩ :: [] ∧
      (due (.write 32 0x10#8 0#32) clearing).busy = true ∧ State.reset.busy = false := by decide

theorem witness_ViolIsStickyUntilReset :
    (∃ t, step { onDisplay with viol := .overrun } = .next t) ∧
      State.viol { onDisplay with viol := .overrun } ≠ .none ∧
      ∀ rest, State.inbox { onDisplay with viol := .overrun } ≠ ⟨0, .reset⟩ :: rest :=
  ⟨⟨_, rfl⟩, by decide, fun _ h => by cases h⟩

theorem witness_IdleReadsShowTheExactState : onDisplay.busy = false := rfl

/-- A read of CMD in the midst of a command, and of another register with none executing. -/
theorem witness_CmdAndIdleReadsHaveNoSideEffect :
    (due (.read 32 0x00#8) clearing).inbox = ⟨0, .read 32 0x00#8⟩ :: [] ∧
      (due (.read 32 (regOffset .temp)) onDisplay).busy = false ∧
      (due (.read 32 (regOffset .temp)) onDisplay).inbox = ⟨0, .read 32 (regOffset .temp)⟩ :: [] := by decide

theorem witness_BusyReadsChangeNothingAndShowBusyAndViol :
    (∀ off ∈ [0x04#8, 0x08#8, 0x0C#8, 0x10#8], (due (.read 32 off) clearing).busy = true ∧
      (due (.read 32 off) clearing).inbox = ⟨0, .read 32 off⟩ :: []) := by decide

theorem witness_CfgReadsBackWithReservedBitClear : State.reset.busy = false := rfl

theorem witness_WaitPollsUntilNotBusy :
    (due .wait clearing).inbox = ⟨0, .wait⟩ :: [] ∧ (due .wait clearing).busy = true ∧
      (due .wait onDisplay).inbox = ⟨0, .wait⟩ :: [] ∧ (due .wait onDisplay).busy = false := by decide

theorem witness_BusInitEnablesTheBus :
    State.busy (within 3 State.reset) = false ∧ State.phase (within 3 State.reset) = .idle ∧
      State.stopPending (within 3 State.reset) = false ∧ 3 ≤ State.room (within 3 State.reset) := by decide

/-- The device answers the requests of a state with these answers. -/
theorem answers_of_listed (s : State) (k : Nat) (h : (s.drawAt k).hang = false)
    (h' : (s.drawAt k).early = false) : s.answers k := ⟨h, .inr h'⟩

theorem witness_BusStartIssuesAStart :
    let s := within 3 (onBus .rxEnd [acks 0#8])
    s.busy = false ∧ s.busInit = true ∧ s.phase ≠ .rx ∧ s.stopPending = false ∧ s.answers 0 ∧ 3 ≤ s.room :=
  ⟨rfl, rfl, by decide, rfl, answers_of_listed _ 0 rfl rfl, by decide⟩

theorem witness_BusStopReturnsAtOnce :
    State.busy (onBus .rxEnd []) = false ∧ State.busInit (onBus .rxEnd []) = true ∧
      (onBus .rxEnd []).phase = .rxEnd ∧ (onBus .tx []).phase = .tx ∧ (onBus .addr []).phase = .addr := by
  decide

theorem witness_BusSendTransmitsOneByte :
    let s := within 5 (onBus .addr [nacks])
    s.busy = false ∧ s.busInit = true ∧ s.phase = .addr ∧ s.stopPending = false ∧ s.answers 0 ∧
      5 ≤ s.room ∧ (onBus .tx []).phase = .tx :=
  ⟨rfl, rfl, rfl, rfl, answers_of_listed _ 0 rfl rfl, by decide, rfl⟩

theorem witness_BusReadAckReceivesAndGoesOn :
    let s := within 3 (onBus .rx [acks 0xFF#8])
    s.busy = false ∧ s.busInit = true ∧ s.phase = .rx ∧ s.stopPending = false ∧ s.answers 0 ∧ 3 ≤ s.room :=
  ⟨rfl, rfl, rfl, rfl, answers_of_listed _ 0 rfl rfl, by decide⟩

theorem witness_BusReadNackReceivesAndEnds :
    let s := within 4 (onBus .rx [acks 0x40#8])
    s.busy = false ∧ s.busInit = true ∧ s.phase = .rx ∧ s.stopPending = false ∧ s.answers 0 ∧ 4 ≤ s.room :=
  ⟨rfl, rfl, rfl, rfl, answers_of_listed _ 0 rfl rfl, by decide⟩

theorem witness_PendingStopIsPerformedFirst :
    let s := within 1 { onBus .idle [acks 0#8] with stopPending := true }
    Instr.busStart.unit ≠ .lcd ∧ Instr.busStart ≠ .busStop ∧ s.busy = false ∧
      s.unitReady .busStart = true ∧ phaseTable s.phase .busStart ≠ none ∧ s.stopPending = true ∧
      s.answers 0 ∧ 1 ≤ s.room :=
  ⟨by decide, by decide, rfl, rfl, by decide, rfl, answers_of_listed _ 0 rfl rfl, by decide⟩

/-- A pending stop that the device answers, and one on which it hangs: due, with no input waiting, and with one that
has yet to land. -/
theorem witness_StopStepPerformsThePendingStop :
    let s := { onBus .idle [acks 0#8] with stopPending := true }
    let h := { onBus .idle [hangs] with stopPending := true }
    (s.stopPending = true ∧ (s.drawAt 0).hang = false ∧ (h.drawAt 0).hang = true) ∧
    ((due .stopStep s).inbox = ⟨0, .stopStep⟩ :: [] ∧ (due .stopStep s).stopPending = true ∧
      ((due .stopStep s).drawAt 0).hang = false ∧ (due .stopStep h).inbox = ⟨0, .stopStep⟩ :: [] ∧
      ((due .stopStep h).drawAt 0).hang = true) ∧
    (s.inbox = [] ∧ h.inbox = [] ∧ h.useq = none) ∧
    ((within 1 s).inbox = ⟨0 + 1, .wait⟩ :: [] ∧ (within 1 s).useq = none) := by decide

theorem witness_TimeoutAbandonsTheCommand :
    let s := { sending [hangs] with cfgTimeout := 1#8 }
    s.useq = some ⟨[.transmit 0x91#8, .addressPhase 0x91#8], .ok, 0#8, 0#8, none, []⟩ ∧
      (Micro.transmit 0x91#8).asksDevice s.stopPending = true ∧ s.cfgTimeout ≠ 0#8 ∧
      (s.drawAt 0).hang = true := by decide

theorem witness_HangWithoutTimeoutIsPermanent :
    let s := due .wait (sending [hangs])
    s.busy = true ∧ s.cfgTimeout = 0#8 ∧ (s.drawAt 0).hang = true ∧
      s.useq = some ⟨[.transmit 0x91#8, .addressPhase 0x91#8], .ok, 0#8, 0#8, none, []⟩ ∧
      (Micro.transmit 0x91#8).asksDevice s.stopPending = true ∧ (∃ t, step s = .next t) ∧
      ∀ rest, s.inbox ≠ ⟨0, .reset⟩ :: rest :=
  ⟨rfl, rfl, rfl, rfl, rfl, ⟨_, rfl⟩, fun _ h => by cases h⟩

/-- A SEQ cell, a cell with a phase and a command that reaches it, a display command. -/
theorem witness_CommandsFollowThePhaseTable :
    (State.busy (onBus .rx []) = false ∧ State.busInit (onBus .rx []) = true ∧
        ∃ t, exec .busStart (onBus .rx []) = .next t) ∧
      leads (exec (.busSend 0x91#8) (onBus .addr [acks 0#8])) (fun t => !t.busy && t.err != .busTimeout) =
        true ∧
      (Instr.dispClear.unit = .lcd ∧ ∃ t, exec .dispClear onDisplay = .next t) :=
  ⟨⟨rfl, rfl, exec_next _ _⟩, by decide, rfl, exec_next _ _⟩

theorem witness_DispInitRunsThePowerOnSequence :
    State.busy (within 37 State.reset) = false ∧ 37 ≤ State.room (within 37 State.reset) := by decide

theorem witness_RawBytesAreSentAsTwoNibbles :
    let s := within 5 onDisplay
    s.busy = false ∧ s.dispInit = true ∧ 5 ≤ s.room := by decide

theorem witness_ClearWaitsAndHomeDoesNot :
    let s := within 7 onDisplay
    s.busy = false ∧ s.dispInit = true ∧ 7 ≤ s.room := by decide

/-- The last position on the display, the first column and the first row off it. -/
theorem witness_GotoSetsTheCursorOrReportsRange :
    let s := within 5 onDisplay
    s.busy = false ∧ s.dispInit = true ∧ 5 ≤ s.room ∧
      ¬(3 < (3#8).toNat ∨ 20 ≤ (19#8).toNat) ∧ 20 ≤ (20#8).toNat ∧ 3 < (4#8).toNat := by decide

theorem witness_CursorAddressesCoverTheRows :
    (3#8).toNat ≤ 3 ∧ (19#8).toNat < 20 ∧ rowAddr 19#8 3#8 = rowAddr 19#8 3#8 := by decide

/-- An empty string; two characters across the top of HMEM, with just the time they take. -/
theorem witness_TextSendsTheStringUpToItsTerminator :
    let s := within 11 { onDisplay with hmem := wrapText }
    s.busy = false ∧ s.dispInit = true ∧
      ((∀ c ∈ [0x41#8, 0x42#8], c ≠ 0#8) ∧
        (∀ k (h : k < [0x41#8, 0x42#8].length),
          s.hmem.read (0xFFFF#16 + BitVec.ofNat 16 k) = [0x41#8, 0x42#8][k]) ∧
        s.hmem.read (0xFFFF#16 + BitVec.ofNat 16 2) = 0#8 ∧ 5 * 2 + 1 ≤ s.room) ∧
      (s.hmem.read (0x0100#16 + BitVec.ofNat 16 ([] : List Byte).length) = 0#8 ∧ 5 * 0 + 1 ≤ s.room) := by
  decide

/-- A memory with the byte 1 at every address from `lo` on, `n` of them. -/
def ones (lo n : Nat) : Memory := (List.range' lo n).map (fun k => (k, 1#8))

theorem ones_read (a : HAddr) : ∀ (n lo : Nat), lo ≤ a.toNat → a.toNat < lo + n → (ones lo n).read a = 1#8
  | 0, lo, h, h' => by omega
  | n + 1, lo, h, h' => by
    rw [ones, List.range'_succ, List.map_cons, Memory.read]
    by_cases he : lo = a.toNat
    · rw [if_pos he]
    · rw [if_neg he]
      exact ones_read a n (lo + 1) (by omega) (by omega)

theorem witness_EndlessTextNeverFinishes :
    let s := { onDisplay with hmem := ones 0 65536 }
    s.busy = false ∧ s.dispInit = true ∧ s.inbox = [] ∧ (∀ a : HAddr, s.hmem.read a ≠ 0#8) ∧
      ∃ t, exec (.dispText 0#16) s = .next t := by
  refine ⟨rfl, rfl, rfl, fun a => ?_, exec_next _ _⟩
  show (ones 0 65536).read a ≠ 0#8
  rw [ones_read a 65536 0 (by omega) (by have := a.isLt; omega)]
  decide

/-- A byte that the host has overwritten, and one that it has not; a DISP_TEXT just accepted; a host write while it
executes; a step without one, and a host write while another command executes. -/
theorem witness_RacingTextReadGivesOldOrNewByte :
    (racing.useq = some ⟨[.text 0x0100#16], .ok, 0#8, 0#8, none, [(0x0100, 0x41#8)]⟩ ∧
      ∀ x : Byte, ((0x0101#16).toNat, x) ∉ [((0x0100, 0x41#8) : Host.Cell)]) ∧
    (onDisplay.busy = false ∧ onDisplay.dispInit = true ∧
      leads (exec (.dispText 0x0100#16) (within 0 onDisplay)) (fun t => t.useq.isSome) = true) ∧
    (racing.cmd = some (encode (.dispText 0x0100#16)) ∧
      (due (.poke 0x0100#16 0x43#8) racing).inbox = ⟨0, .poke 0x0100#16 0x43#8⟩ :: []) ∧
    (leads (step (within 2 clearing)) (fun t => t.useq.isSome) = true ∧
      ∀ a b rest, (within 2 clearing).inbox ≠ ⟨0, .poke a b⟩ :: rest) ∧
    (∀ addr, (due (.poke 0x0100#16 0x43#8) clearing).cmd ≠ some (encode (.dispText addr))) :=
  ⟨⟨rfl, fun x h => by simp at h⟩, by decide, by decide, ⟨by decide, fun _ _ _ h => by cases h⟩,
    fun addr h => by
      have e := congrArg BitVec.toNat (Option.some.inj (show some 0x23000000#32 = _ from h))
      rw [encode_toNat] at e
      have := addr.isLt
      simp at *
      omega⟩

theorem witness_HexOperandIsSentInBaseSixteen :
    let s := within 25 onDisplay
    s.busy = false ∧ s.dispInit = true ∧ 25 ≤ s.room := by decide

/-- The operands at the bound of the buffer. -/
theorem witness_IntOperandIsSentInBaseTenOrRejected :
    let s := within 29 onDisplay
    s.busy = false ∧ s.dispInit = true ∧ 29 ≤ s.room ∧
      (0xF0BDC0#24).toInt ≤ -1000000 ∧ -1000000 < (0xF0BDC1#24).toInt := by decide

theorem witness_NumberStringsAreInPlainForm :
    (16777215 : Nat) < 16777216 ∧ (-8388608 : Int) ≤ -8388608 ∧ (-8388608 : Int) < 8388608 ∧
      (-8388608 : Int) < 0 ∧ (0 : Int) ≤ 8388607 ∧ (8388607 : Int) < 8388608 ∧
      0x66#8 ∈ hexstr 16777215 ∧ 0x38#8 ∈ decstr 8388607 := by decide

theorem witness_BufferOverflowsExactlyBelowTheBound :
    (-8388608 : Int) ≤ -1000000 ∧ (-1000000 : Int) < 8388608 ∧ 7 < (decstr (-1000000)).length ∧
      ¬7 < (decstr (-999999)).length := by decide

theorem witness_FormattedNumbersParseBack : -1000000 < intOperand 0xF0BDC1#24 := by decide

/-- The answers of a device that acknowledges its address, not its selector, and sends two bytes. -/
def transaction : List BusDraw :=
  [acks 0#8, acks 0#8, acks 0#8, nacks, acks 0#8, acks 0#8, acks 0x06#8, acks 0x40#8]

theorem transaction_answers (s : State) (h : s.dev = transaction) : ∀ k < 8, s.answers k := by
  have ok : ∀ k < 8, ∃ d, transaction[k]? = some d ∧ d.hang = false ∧ d.early = false := by
    intro k hk
    interval_cases k <;> exact ⟨_, rfl, rfl, rfl⟩
  intro k hk
  obtain ⟨d, hd, h1, h2⟩ := ok k hk
  have : s.drawAt k = d := by simp [State.drawAt, h, hd]
  exact answers_of_listed s k (by rw [this, h1]) (by rw [this, h2])

theorem witness_TempReadRunsTheTransaction :
    let s := within 25 (onBus .idle transaction)
    s.busy = false ∧ s.busInit = true ∧ s.phase = .idle ∧ s.stopPending = false ∧
      (∀ k < 7, s.answers k) ∧ 25 ≤ s.room :=
  ⟨rfl, rfl, rfl, rfl, fun k hk => transaction_answers _ rfl k (by omega), by decide⟩

theorem witness_TransactionByHandEqualsTempRead :
    let s := { onBus .idle transaction with stopPending := true }
    s.busy = false ∧ s.busInit = true ∧ s.phase = .idle ∧ s.inbox = [] ∧ ∀ k < 8, s.answers k :=
  ⟨rfl, rfl, rfl, rfl, transaction_answers _ rfl⟩

theorem witness_TemperatureCodeDropsTheLowBits : onDisplay.busy = false := rfl

theorem witness_CelsiusIsTheCodeOverSixteen : (0x7FFF#16).getLsbD 15 = false := by decide

theorem witness_FahrenheitIsAffineInCelsius : fahrenheit true 0x0647#16 = fahrenheit true 0x0640#16 := by
  have h : codeValue true 0x0647#16 = codeValue true 0x0640#16 := by decide
  rw [fahrenheit, fahrenheit, celsius, celsius, h]

/-- A command from acceptance; one in its midst that steps on; one in its midst where a pending stop is due. -/
theorem witness_DisplayCommandsLeaveTheBusAlone :
    ((Instr.dispText 0x0100#16).unit = .lcd ∧
      ∃ t, exec (.dispText 0x0100#16) { onDisplay with hmem := hiText, phase := .rx } = .next t) ∧
    (clearing.Inv ∧ clearing.cmd = some 0x23000000#32 ∧ decode 0x23000000#32 = some .dispClear ∧
      Instr.dispClear.unit = .lcd ∧ (∃ t, step clearing = .next t) ∧
      ∀ rest, clearing.inbox ≠ ⟨0, .reset⟩ :: rest) ∧
    (let s := { clearing with
        busInit := true, stopPending := true, dev := [acks 0#8], inbox := [⟨0, .stopStep⟩] };
      s.Inv ∧ s.cmd = some 0x23000000#32 ∧ (∃ t, step s = .next t ∧ t.btrace = s.btrace ++ [.stop]) ∧
      ∀ rest, s.inbox ≠ ⟨0, .reset⟩ :: rest) :=
  ⟨⟨rfl, exec_next _ _⟩,
    ⟨clearing_inv, rfl, by decide, rfl, ⟨_, rfl⟩, nofun⟩,
    ⟨inv_of _ rfl rfl rfl (fun _ h => by cases h; decide) (by decide) (by decide) (by decide) rfl
      (fun _ h => by cases h; decide) clearing_inv.plan_of_unit, rfl, ⟨_, rfl, rfl⟩, nofun⟩⟩

/-- A command from acceptance; one in its midst that the device answers. -/
theorem witness_BusCommandsLeaveTheDisplayAlone :
    (Instr.tempRead.unit ≠ .lcd ∧ ∃ t, exec .tempRead (onBus .idle transaction) = .next t) ∧
    (let s := sending [acks 0#8];
      s.Inv ∧ s.cmd = some 0x13000091#32 ∧ decode 0x13000091#32 = some (.busSend 0x91#8) ∧
      (Instr.busSend 0x91#8).unit ≠ .lcd ∧ (∃ t, step s = .next t) ∧
      ∀ rest, s.inbox ≠ ⟨0, .reset⟩ :: rest) :=
  ⟨⟨by decide, exec_next _ _⟩, sending_inv _, rfl, by decide, by decide, ⟨_, rfl⟩, nofun⟩

/-- A command from acceptance; a BUS_SEND in its midst; a TEMP_READ turned away in the midst of a BUS_SEND; a
DISP_CLEAR submitted with no command executing. -/
theorem witness_OnlyTempReadWritesTemp :
    (Instr.busReadAck ≠ .tempRead ∧ ∃ t, exec .busReadAck (onBus .rx [acks 0x06#8]) = .next t) ∧
    ((sending [acks 0#8]).Inv ∧ (sending [acks 0#8]).cmd ≠ some 0x40000000#32 ∧
      (∃ t, step (sending [acks 0#8]) = .next t) ∧ (sending [acks 0#8]).busy = true ∧
      (∀ rest, (sending [acks 0#8]).inbox ≠ ⟨0, .reset⟩ :: rest)) ∧
    (let s := due (.write 32 0x00#8 0x40000000#32) (sending [acks 0#8]);
      s.Inv ∧ s.cmd ≠ some 0x40000000#32 ∧ (∃ t, step s = .next t) ∧ s.busy = true ∧
      ∀ rest, s.inbox ≠ ⟨0, .reset⟩ :: rest) ∧
    (let s := due (.write 32 0x00#8 0x23000000#32) onDisplay;
      s.Inv ∧ s.cmd ≠ some 0x40000000#32 ∧ (∃ t, step s = .next t) ∧
      (∀ rest, s.inbox ≠ ⟨0, .write 32 0x00#8 0x40000000#32⟩ :: rest) ∧
      ∀ rest, s.inbox ≠ ⟨0, .reset⟩ :: rest) :=
  have hs := sending_inv [acks 0#8]
  ⟨⟨by decide, exec_next _ _⟩,
    ⟨hs, by decide, ⟨_, rfl⟩, rfl, nofun⟩,
    ⟨⟨hs.1, hs.2, hs.3, hs.4, hs.5, hs.6, hs.7, hs.8, hs.9, hs.10⟩, by decide, ⟨_, rfl⟩, rfl, nofun⟩,
    ⟨inv_of _ rfl rfl rfl nofun (by decide) (by decide) (by decide) rfl nofun nofun, by decide, ⟨_, rfl⟩,
      fun _ h => by injection h with h; revert h; decide, nofun⟩⟩

/-- A command from acceptance; one in its midst with no input, and with one that has yet to land. -/
theorem witness_CommandsLeaveHostStateAlone :
    ((∃ t, exec .tempRead (onBus .idle transaction) = .next t) ∧
      State.busy (onBus .idle transaction) = false ∧ (onBus .idle transaction).unitReady .tempRead = true ∧
      phaseTable (onBus .idle transaction).phase .tempRead ≠ none) ∧
    ((∃ t, step clearing = .next t) ∧ clearing.inbox = [] ∧
      (∀ rest, clearing.inbox ≠ ⟨0, .reset⟩ :: rest) ∧
      ∀ w rest, clearing.inbox ≠ ⟨0, .write 32 0x10#8 w⟩ :: rest) ∧
    ((∃ t, step (within 1 clearing) = .next t) ∧
      ∃ n x rest, (within 1 clearing).inbox = ⟨n + 1, x⟩ :: rest) :=
  ⟨⟨exec_next _ _, rfl, rfl, by decide⟩, ⟨⟨_, rfl⟩, rfl, nofun, nofun⟩, ⟨_, rfl⟩, 0, .wait, [], rfl⟩

theorem witness_OnlyTheHostWritesHostMemory :
    (∃ t, step { clearing with hmem := hiText } = .next t) ∧
      (∀ a b rest, State.inbox { clearing with hmem := hiText } ≠ ⟨0, .poke a b⟩ :: rest) ∧
      Memory.wf hiText = true ∧
      (due (.poke 0xFFFF#16 0x00#8) { clearing with hmem := hiText }).inbox =
        ⟨0, .poke 0xFFFF#16 0x00#8⟩ :: [] :=
  ⟨⟨_, rfl⟩, fun _ _ _ h => (by cases h), by decide, rfl⟩

theorem witness_TracesOnlyGrow :
    (∃ t, step clearing = .next t) ∧ ∀ rest, clearing.inbox ≠ ⟨0, .reset⟩ :: rest :=
  ⟨⟨_, rfl⟩, fun _ h => by cases h⟩

theorem witness_DisplayStaysInitializedUntilReset :
    (∃ t, step clearing = .next t) ∧ clearing.dispInit = true ∧
      ∀ rest, clearing.inbox ≠ ⟨0, .reset⟩ :: rest :=
  ⟨⟨_, rfl⟩, rfl, fun _ h => by cases h⟩

/-- The invariant of a state in the midst of a command. -/
theorem witness_EveryStepKeepsTheInvariant : clearing.Inv ∧ ∃ t, step clearing = .next t :=
  ⟨clearing_inv, _, rfl⟩

/-- DISP_INIT from reset; the bounds of DISP_GOTO; two characters across the top of HMEM; the operands at the bound of
the buffer. -/
theorem witness_DisplayCommandsTakeTheirLeastTimes :
    (State.busy (within 37 State.reset) = false ∧ 37 ≤ State.room (within 37 State.reset)) ∧
    (let s := within 7 onDisplay;
      s.busy = false ∧ s.dispInit = true ∧ 7 ≤ s.room ∧ ¬(3 < (3#8).toNat ∨ 20 ≤ (19#8).toNat) ∧
        20 ≤ (20#8).toNat ∧ 3 < (4#8).toNat) ∧
    (let s := within 11 { onDisplay with hmem := wrapText };
      s.busy = false ∧ s.dispInit = true ∧ (∀ k < 2, s.hmem.read (0xFFFF#16 + BitVec.ofNat 16 k) ≠ 0#8) ∧
        s.hmem.read (0xFFFF#16 + BitVec.ofNat 16 2) = 0#8 ∧ 5 * 2 + 1 ≤ s.room) ∧
    (let s := within 29 onDisplay;
      s.busy = false ∧ s.dispInit = true ∧ 29 ≤ s.room ∧
        (0xF0BDC0#24).toInt ≤ -1000000 ∧ ¬(0xF0BDC1#24).toInt ≤ -1000000) := by decide

end Sys2Proof.Tests
end

section
/-! PROOFS. The invariant of the machine (10_state.md R34, R36, 40_twi.md R114): what a line of the pseudocode does to its
clauses, what a command starts with, and from these that every step keeps it. -/

namespace Sys2Proof.Machine

/-! ## Words and commands -/

/-- The row of every command, from the laws of the single commands (R83). -/
theorem rowMatch (i : Instr) : Laws.RowMatch.Statement i := by
  cases i with
  | busInit => exact Laws.RowMatch.busInit
  | busStart => exact Laws.RowMatch.busStart
  | busStop => exact Laws.RowMatch.busStop
  | busSend b => exact Laws.RowMatch.busSend b
  | busReadAck => exact Laws.RowMatch.busReadAck
  | busReadNack => exact Laws.RowMatch.busReadNack
  | dispInit => exact Laws.RowMatch.dispInit
  | dispCmd b => exact Laws.RowMatch.dispCmd b
  | dispChar b => exact Laws.RowMatch.dispChar b
  | dispClear => exact Laws.RowMatch.dispClear
  | dispHome => exact Laws.RowMatch.dispHome
  | dispGoto col row => exact Laws.RowMatch.dispGoto col row
  | dispText addr => exact Laws.RowMatch.dispText addr
  | dispHex imm => exact Laws.RowMatch.dispHex imm
  | dispInt imm => exact Laws.RowMatch.dispInt imm
  | tempRead => exact Laws.RowMatch.tempRead

/-- The word of a command decodes to it (R81, R85). -/
theorem decode_encode (i : Instr) : decode (encode i) = some i := by
  obtain ⟨r, hr, -, hm, hb⟩ := rowMatch i
  rw [decode_of_row hr hm, hb]

/-- Only one word decodes to TEMP_READ. -/
theorem eq_of_decode_tempRead {w : Word} (h : decode w = some .tempRead) : w = 0x40000000#32 := by
  obtain ⟨r, hr, hm, hb⟩ := row_of_decode h
  have hname : r.mnemonic = "TEMP_READ" := by rw [← build_mnemonic hr w, hb]; rfl
  have hrow : r = opcodeMap[15] :=
    List.inj_on_of_nodup_map rows_mnemonics_nodup hr (by simp [opcodeMap]) hname
  subst hrow
  exact (mask_formatN w _).mp hm

/-! ## The clauses of the invariant -/

/-- The clauses of the invariant on the flags of the units. -/
structure State.UnitsOk (s : State) : Prop where
  no_bus_uninit : s.busInit = false → s.phase = .idle ∧ s.stopPending = false
  no_stop_in_transaction : s.phase ≠ .idle → s.stopPending = false
  display_driven : s.dispInit = true → s.driven = true

/-- The steps `l` can be run from here without breaking the invariant. -/
def State.PlanOk (s : State) (l : List Micro) : Prop :=
  planOk s.busInit s.stopPending s.e s.driven l = true

theorem State.Inv.unitsOk {s : State} (h : s.Inv) : s.UnitsOk :=
  ⟨h.no_bus_uninit, h.no_stop_in_transaction, h.display_driven⟩

/-- The invariant where no command executes. -/
theorem inv_of_idle {s : State} (hw : s.hmem.wf = true) (hf : s.UnitsOk) (hb : s.busy = false)
    (hc : s.cmd = none) (hu : s.useq = none) (he : s.e = false) : s.Inv where
  hmem_wf := hw
  cmd_iff_busy := by rw [hc, hb]; rfl
  useq_iff_busy := by rw [hu, hb]; rfl
  cmd_decodes w h := by rw [hc] at h; cases h
  no_bus_uninit := hf.no_bus_uninit
  no_stop_in_transaction := hf.no_stop_in_transaction
  display_driven := hf.display_driven
  enable_low_idle _ := he
  plan_ok u h := by rw [hu] at h; cases h
  plan_of_unit w i u h := by rw [hc] at h; cases h

/-- The invariant where the command `i` executes, with the steps of `u` left. -/
theorem inv_of_running {s : State} {i : Instr} {u : Useq} (hw : s.hmem.wf = true) (hf : s.UnitsOk)
    (hb : s.busy = true) {w : Word} (hc : s.cmd = some w) (hd : decode w = some i) (hu : s.useq = some u)
    (hp : s.PlanOk u.todo) (hl : u.todo.all (Micro.ofUnit i.unit) = true) : s.Inv where
  hmem_wf := hw
  cmd_iff_busy := by rw [hc, hb]; rfl
  useq_iff_busy := by rw [hu, hb]; rfl
  cmd_decodes w' h := by rw [hc] at h; cases h; rw [hd]; rfl
  no_bus_uninit := hf.no_bus_uninit
  no_stop_in_transaction := hf.no_stop_in_transaction
  display_driven := hf.display_driven
  enable_low_idle h := by rw [hb] at h; cases h
  plan_ok v h := by rw [hu] at h; cases h; exact hp
  plan_of_unit w' j v h hj hv := by
    rw [hc] at h; cases h
    rw [hd] at hj; cases hj
    rw [hu] at hv; cases hv
    exact hl

/-- What the invariant says where the engine has a position. -/
theorem State.Inv.running {s : State} {u : Useq} (h : s.Inv) (hu : s.useq = some u) :
    s.busy = true ∧ s.PlanOk u.todo ∧
      ∃ w i, s.cmd = some w ∧ decode w = some i ∧ u.todo.all (Micro.ofUnit i.unit) = true := by
  have hb : s.busy = true := by rw [← h.useq_iff_busy, hu]; rfl
  obtain ⟨w, hc⟩ := Option.isSome_iff_exists.mp (h.cmd_iff_busy.trans hb)
  obtain ⟨i, hd⟩ := Option.isSome_iff_exists.mp (h.cmd_decodes w hc)
  exact ⟨hb, h.plan_ok u hu, w, i, hc, hd, h.ofUnit hc hd hu⟩

/-! ## A line of the pseudocode -/

/-- A byte sent to a driven display leaves the enable line low. -/
@[simp] theorem planOk_xferSteps (b p e rs : Bool) (x : Byte) (l : List Micro) :
    planOk b p e true (xferSteps rs x ++ l) = planOk b p false true l := by
  simp [xferSteps, nibSteps, planOk]

/-- A line that asks the device stands where the enable line is low. -/
theorem enable_low_of_asks {s : State} {m : Micro} {l : List Micro} (h : s.PlanOk (m :: l))
    (ha : m.asksDevice s.stopPending = true) : s.e = false := by
  cases m <;> first | (cases ha; done) | skip
  all_goals
    simp only [State.PlanOk, planOk, Bool.and_eq_true, Bool.not_eq_true'] at h
    simp only [h]

/-- A line of the pseudocode keeps the flags of the units in order. -/
theorem Performed.unitsOk {s t : State} {u : Useq} {m : Micro} (h : Performed s u m t) (hs : s.UnitsOk)
    (hp : s.PlanOk (m :: u.todo)) : t.UnitsOk := by
  obtain ⟨hbus, hstop, hdisp⟩ := hs
  cases h
  case timeout => exact ⟨fun _ => ⟨rfl, rfl⟩, fun h => absurd rfl h, hdisp⟩
  case stop => exact ⟨fun h => ⟨(hbus h).1, rfl⟩, fun _ => rfl, hdisp⟩
  case start rep =>
    simp only [State.PlanOk, planOk, Bool.and_eq_true, Bool.not_eq_true'] at hp
    obtain ⟨⟨⟨-, hb⟩, hn⟩, -⟩ := hp
    exact ⟨fun h => absurd (hb.symm.trans h) (by decide), fun _ => hn, hdisp⟩
  case terminator a hz => unfold State.afterTextByte; split <;> exact ⟨hbus, hstop, hdisp⟩
  case character a hz => unfold State.afterTextByte; split <;> exact ⟨hbus, hstop, hdisp⟩
  case plain hm _ =>
    cases m <;> first | (cases hm; done) | skip
    case enableBus => exact ⟨nofun, fun h => absurd rfl h, hdisp⟩
    case addressPhase b =>
      refine ⟨fun h => ?_, fun h => hstop fun hi => h ?_, hdisp⟩
      · simp [State.applyPlain, hbus h]
      · simp [State.applyPlain, hi]
    case setPhase p =>
      simp only [State.PlanOk, planOk, Bool.and_eq_true, Bool.or_eq_true, decide_eq_true_eq,
        Bool.not_eq_true'] at hp
      obtain ⟨rfl | ⟨hb, hn⟩, -⟩ := hp
      · exact ⟨fun h => ⟨rfl, (hbus h).2⟩, fun h => absurd rfl h, hdisp⟩
      · exact ⟨fun h => absurd (hb.symm.trans h) (by decide), fun _ => hn, hdisp⟩
    case issueStop =>
      simp only [State.PlanOk, planOk, Bool.and_eq_true] at hp
      exact ⟨fun h => absurd (hp.1.symm.trans h) (by decide), fun h => absurd rfl h, hdisp⟩
    case driveLines => exact ⟨hbus, hstop, fun _ => rfl⟩
    case displayReady =>
      simp only [State.PlanOk, planOk, Bool.and_eq_true] at hp
      exact ⟨hbus, hstop, fun _ => hp.1⟩
    all_goals exact ⟨hbus, hstop, hdisp⟩
  all_goals exact ⟨hbus, hstop, hdisp⟩

/-- After a line of the pseudocode the lines left can be run on. -/
theorem Performed.planOk_rest {s t : State} {u v : Useq} {m : Micro} (h : Performed s u m t)
    (hp : s.PlanOk (m :: u.todo)) (hv : t.useq = some v) : t.PlanOk v.todo := by
  cases h
  case timeout => cases hv
  case terminator a hz => cases hv
  case noStop hidle =>
    cases hv
    simp only [State.PlanOk, planOk, Bool.and_eq_true] at hp ⊢
    rw [hidle]
    exact hp.2
  case character a hz =>
    cases hv
    simp only [State.PlanOk, planOk, Bool.and_eq_true, Bool.not_eq_true'] at hp
    obtain ⟨⟨he, hd⟩, hrest⟩ := hp
    rw [he, hd] at hrest
    unfold State.afterTextByte
    split <;> simp [State.PlanOk, planOk, State.popFree, hd, hrest]
  case plain hm _ =>
    cases hv
    cases m <;> simp only [State.PlanOk, planOk, Bool.and_eq_true] at hp <;> first
      | (cases hm; done)
      | exact hp
      | exact hp.2
  all_goals
    cases hv
    simp only [State.PlanOk, planOk, Bool.and_eq_true] at hp
    first | exact hp | exact hp.2

/-- A line of the pseudocode ends the command, with the enable line low, or leaves it executing. -/
theorem Performed.ends_or_runs {s t : State} {u : Useq} {m : Micro} (h : Performed s u m t)
    (hp : s.PlanOk (m :: u.todo)) :
    (t.busy = false ∧ t.cmd = none ∧ t.useq = none ∧ t.e = false) ∨
      (t.busy = s.busy ∧ t.cmd = s.cmd ∧ ∃ v, t.useq = some v) := by
  cases h
  case timeout ha => exact .inl ⟨rfl, rfl, rfl, (enable_low_of_asks hp ha : s.e = false)⟩
  case terminator a hz =>
    simp only [State.PlanOk, planOk, Bool.and_eq_true, Bool.not_eq_true'] at hp
    obtain ⟨⟨he, -⟩, -⟩ := hp
    unfold State.afterTextByte
    split <;> exact .inl ⟨rfl, rfl, rfl, he⟩
  case character a hz => unfold State.afterTextByte; split <;> exact .inr ⟨rfl, rfl, _, rfl⟩
  case plain hm _ => cases m <;> first | (cases hm; done) | exact .inr ⟨rfl, rfl, _, rfl⟩
  all_goals exact .inr ⟨rfl, rfl, _, rfl⟩

/-- A line of a unit leaves lines of that unit (R180: the loop of DISP_TEXT adds the two nibbles of its character). -/
theorem Performed.ofUnit {s t : State} {u v : Useq} {m : Micro} {f : FuncUnit} (h : Performed s u m t)
    (hl : (m :: u.todo).all (Micro.ofUnit f) = true) (hv : t.useq = some v) :
    v.todo.all (Micro.ofUnit f) = true := by
  have hrest : u.todo.all (Micro.ofUnit f) = true := by
    rw [List.all_cons, Bool.and_eq_true] at hl
    exact hl.2
  cases h
  case timeout => cases hv
  case terminator a hz => cases hv
  case character a hz =>
    cases hv
    cases f
    case lcd =>
      have hall : ∀ c : Byte, (xferSteps true c ++ .text (a + 1) :: u.todo).all (Micro.ofUnit .lcd) = true :=
        fun c => by rw [List.all_append, List.all_cons, hrest]; rfl
      exact hall _
    all_goals cases hl
  all_goals cases hv; exact hrest

/-! ## A run of the engine -/

/-- A line of the pseudocode keeps the invariant. -/
theorem State.Inv.line {s t : State} {u : Useq} {m : Micro} {rest : List Micro} (h : s.Inv)
    (hu : s.useq = some u) (hm : u.todo = m :: rest) (hp : Performed s { u with todo := rest } m t) :
    t.Inv := by
  obtain ⟨hb, hplan, w, i, hc, hd, hunit⟩ := h.running hu
  rw [hm] at hplan hunit
  have hw : t.hmem.wf = true := by rw [hp.sameHost.hmem]; exact h.hmem_wf
  have hf : t.UnitsOk := hp.unitsOk h.unitsOk hplan
  rcases hp.ends_or_runs hplan with ⟨hb', hc', hu', he'⟩ | ⟨hb', hc', v, hv⟩
  · exact inv_of_idle hw hf hb' hc' hu' he'
  · exact inv_of_running hw hf (hb'.trans hb) (hc'.trans hc) hd hv (hp.planOk_rest hplan hv)
      (hp.ofUnit hunit hv)

/-- A command that ends with the enable line low keeps the invariant (R226). -/
theorem State.Inv.finish {s : State} (h : s.Inv) (he : s.e = false) (r : Result) : (s.finish r).Inv :=
  inv_of_idle h.hmem_wf { h.unitsOk with } rfl rfl rfl he

/-- The engine's position may change in all but the lines left. -/
theorem State.Inv.withUseq {s : State} {u v : Useq} (h : s.Inv) (hu : s.useq = some u)
    (hv : v.todo = u.todo) : State.Inv { s with useq := some v } := by
  obtain ⟨hb, hplan, w, i, hc, hd, hunit⟩ := h.running hu
  exact inv_of_running h.hmem_wf { h.unitsOk with } hb hc hd rfl
    (by rw [hv]; exact hplan) (by rw [hv]; exact hunit)

/-- An engine step keeps the invariant. -/
theorem State.Inv.engineStep {s t : State} (h : s.Inv) (ht : s.engineStep = some t) : t.Inv := by
  refine engineStep_keeps (P := State.Inv) (fun a u m rest b ha hu _ hm hp => ha.line hu hm hp)
    (fun a u ha hu => ha.withUseq hu rfl) (fun a u ha hu _ hm => ha.finish ?_ _) h ht
  have hplan := ha.plan_ok u hu
  rw [hm] at hplan
  simpa [planOk] using hplan

theorem State.Inv.engineRun {s : State} (h : s.Inv) (n : Nat) : (State.engineRun n s).Inv :=
  engineRun_induct (fun _ _ ha hab => ha.engineStep hab) n s h

theorem State.Inv.inputDue {s : State} (h : s.Inv) : s.inputDue.Inv := { h with }

/-! ## The start of a command -/

/-- The characters of a text, sent to a driven display. -/
theorem planOk_chars (b p rs : Bool) (cs : List Byte) :
    planOk b p false true (cs.flatMap (xferSteps rs)) = true := by
  induction cs with
  | nil => rfl
  | cons c cs ih => rw [List.flatMap_cons, planOk_xferSteps, ih]

/-- The steps of a display command can be run on a driven display. -/
theorem planOk_planOf_lcd {i : Instr} (hi : i.unit = .lcd) (b p : Bool) (s : State) :
    planOk b p false true (planOf i s) = true := by
  cases i <;> first | (cases hi; done) | skip
  case dispGoto col row => simp only [planOf]; split <;> rfl
  case dispHex imm =>
    simp only [planOf]
    split
    · rfl
    · exact planOk_chars b p true _
  case dispInt imm =>
    simp only [planOf]
    split
    · rfl
    · exact planOk_chars b p true _
  all_goals rfl

/-- The power-on sequence drives the display itself (R150). -/
theorem planOk_powerOn (b p d : Bool) : planOk b p false d powerOnSteps = true := rfl

/-- The steps of a command that uses the bus can be run where its unit is ready (R103, R104, R222). -/
theorem planOk_planOf_bus {i : Instr} (hi : i.unit ≠ .lcd) (p d : Bool) {s : State}
    (hr : s.unitReady i = true) : planOk s.busInit p false d (planOf i s) = true := by
  cases i <;> first | exact absurd rfl hi | skip
  case busInit => rfl
  all_goals
    have hb : s.busInit = true := hr
    simp [planOf, readSteps_flat, planOk, hb]

/-- An accepted command starts with steps that can be run. -/
theorem planOk_planOf {i : Instr} {s : State} (hs : s.UnitsOk) (he : s.e = false)
    (hr : s.unitReady i = true) : s.PlanOk (planOf i s) := by
  rw [State.PlanOk, he]
  by_cases hi : i.unit = .lcd
  · by_cases hd : i = .dispInit
    · subst hd
      exact planOk_powerOn _ _ _
    · have hinit : s.dispInit = true := by
        cases i <;> first | exact hr | exact absurd rfl hd | cases hi
      rw [hs.display_driven hinit]
      exact planOk_planOf_lcd hi _ _ s
  · exact planOk_planOf_bus hi _ _ hr

/-- What an accepted command leaves when the next input lands keeps the invariant. -/
theorem State.Inv.bodyOf {s : State} {i : Instr} (h : s.Inv) (hb : s.busy = false) (hr : s.unitReady i = true) :
    (bodyOf i s).Inv := by
  have he : s.e = false := h.enable_low_idle hb
  by_cases hi : i = .busStop
  · subst hi
    have hbus : s.busInit = true := hr
    refine inv_of_idle h.hmem_wf ⟨fun hn => ?_, fun hn => absurd rfl hn, h.display_driven⟩ rfl rfl rfl he
    exact absurd (hbus.symm.trans hn) (by decide)
  · rw [bodyOf_eq_run hi]
    have hplan : s.PlanOk (planOf i s) := planOk_planOf h.unitsOk he hr
    refine State.Inv.inputDue (State.Inv.engineRun ?_ _)
    exact inv_of_running h.hmem_wf { h.unitsOk with } rfl rfl (decode_encode i) rfl hplan (planOf_ofUnit i s)

/-! ## A step of the machine -/

/-- A plan that can be run with a stop pending can be run after the stop. -/
theorem planOk_after_stop (l : List Micro) : ∀ {b p e d : Bool}, planOk b p e d l = true →
    planOk b false e d l = true := by
  induction l with
  | nil => exact fun h => h
  | cons m l ih =>
    intro b p e d h
    cases m <;> simp only [planOk, Bool.and_eq_true, Bool.or_eq_true, Bool.not_false] at h ⊢
    case drainStop => exact h
    case issueStop => exact h
    case enableBus => exact ⟨trivial, ih h.2⟩
    case startCond rep => exact ⟨⟨h.1.1, trivial⟩, ih h.2⟩
    case setPhase ph => exact ⟨h.1.imp id (fun hb => ⟨hb.1, trivial⟩), ih h.2⟩
    all_goals first | exact ih h | exact ⟨h.1, ih h.2⟩

/-- The pending stop keeps the invariant (R119). -/
theorem State.Inv.stopPerformed {s : State} (h : s.Inv) : s.stopPerformed.Inv :=
  { h with
    no_bus_uninit := fun hb => ⟨(h.no_bus_uninit hb).1, rfl⟩
    no_stop_in_transaction := fun _ => rfl
    plan_ok := fun u hu => planOk_after_stop _ (h.plan_ok u hu) }

/-- A write of HMEM keeps the invariant (R38, R65). -/
theorem State.Inv.poke {s : State} (h : s.Inv) (a : HAddr) (b : Byte) : (s.poke a b).Inv := by
  have hw : (s.hmem.write a b).wf = true := write_wf h.hmem_wf a b
  have hm : State.Inv { s with hmem := s.hmem.write a b } := { h with hmem_wf := hw }
  rcases hu : s.useq with _ | u
  · simpa [State.poke, hu] using hm
  · have : s.poke a b = { s with
        hmem := s.hmem.write a b
        useq := some (if s.runsText then { u with stale := (a.toNat, s.hmem.read a) :: u.stale } else u) } := by
      simp only [State.poke, hu]
      split <;> rfl
    rw [this]
    exact hm.withUseq hu (by split <;> rfl)

/-- Reset restores the invariant (R40, R250). -/
theorem State.Inv.resetEvent {s : State} (h : s.Inv) : s.resetEvent.Inv :=
  inv_of_idle h.hmem_wf ⟨fun _ => ⟨rfl, rfl⟩, fun hn => absurd rfl hn, nofun⟩ rfl rfl rfl rfl

/-- Settles O58, by the cases of a step; what the engine does in one comes line by line. -/
theorem everyStepKeepsTheInvariant : Obligations.EveryStepKeepsTheInvariant := by
  intro s t h ht
  have hq : ∀ q, State.Inv { s with inbox := q } := fun q => { h with }
  cases stepped ht with
  | access v f r q => exact { h with }
  | config w q due idle => exact { h with }
  | poke a b q => exact (hq q).poke a b
  | stop q => exact (hq q).stopPerformed
  | command w i q due decodes idle ready => exact (hq q).bodyOf idle ready
  | burst => exact (h.engineRun s.room).inputDue
  | reset q => exact (hq q).resetEvent

/-- Settles O57, the case of no command executing. -/
theorem invariantHoldsAtReset : Obligations.InvariantHoldsAtReset :=
  inv_of_idle rfl ⟨fun _ => ⟨rfl, rfl⟩, fun hn => absurd rfl hn, nofun⟩ rfl rfl rfl rfl

end Sys2Proof.Machine
end

section
/-! PROOFS. What a step of the machine leaves alone until a reset: VIOL once it is set (10_state.md R29), CFG, HMEM and
the host's record (R33, R56), the events of the traces (R37), DISP_INIT (R28), TEMP and TEMP_VALID (R32). -/

namespace Sys2Proof.Machine

/-! ## The host's side -/

/-- What a run of the engine leaves alone, also where the next input then becomes due. -/
theorem SameHost.inputDue {s t : State} (h : SameHost s t) : SameHost s { t.inputDue with inbox := s.inbox } :=
  ⟨h.viol, h.cfgDiv, h.cfgSaddr, h.cfgSreg, h.cfgTimeout, h.hmem, rfl, h.hostReads⟩

/-- CFG's four fields (R33). -/
def SameCfg (s t : State) : Prop :=
  t.cfgDiv = s.cfgDiv ∧ t.cfgSaddr = s.cfgSaddr ∧ t.cfgSreg = s.cfgSreg ∧ t.cfgTimeout = s.cfgTimeout

theorem SameHost.sameCfg {s t : State} (h : SameHost s t) : SameCfg s t :=
  ⟨h.cfgDiv, h.cfgSaddr, h.cfgSreg, h.cfgTimeout⟩

theorem burst_sameHost (s : State) : SameHost s { s.burst with inbox := s.inbox } :=
  (engineRun_sameHost s.room s).inputDue

/-- No accepted command touches the host's side but for the waiting inputs. -/
theorem bodyOf_sameHost (i : Instr) (s : State) : SameHost s { bodyOf i s with inbox := s.inbox } := by
  by_cases hi : i = .busStop
  · subst hi
    constructor <;> rfl
  · rw [bodyOf_eq_run hi]
    exact SameHost.inputDue (SameHost.trans (by constructor <;> rfl) (engineRun_sameHost s.room _))

/-- Nor do LM92TC's own moves with no input waiting. -/
theorem alone_sameHost (s : State) : SameHost s { s.alone with inbox := s.inbox } := by
  unfold State.alone
  split
  · rcases stopStep_cases s with h | ⟨-, -, h⟩ <;> rw [h] <;> constructor <;> rfl
  · exact burst_sameHost s

/-- Settles O15: the host's accesses keep a code that is set, the engine touches none, and reset is excluded. -/
theorem violIsStickyUntilReset : Obligations.ViolIsStickyUntilReset := by
  intro s t ht hv hr
  cases stepped ht with
  | access v f r q sticky => exact sticky hv
  | config w q => rfl
  | poke a b q => rfl
  | stop q => rfl
  | command w i q => exact (bodyOf_sameHost i _).viol
  | burst => exact (burst_sameHost s).viol
  | reset q due => exact absurd due (hr q)

/-- A command, refused or accepted, leaves CFG, HMEM and the host's record. -/
theorem exec_sameHost {i : Instr} {s t : State} (h : exec i s = .next t) :
    SameHost s { t with viol := s.viol, inbox := s.inbox } := by
  rcases exec_cases h with ⟨-, rfl⟩ | ⟨-, -, rfl⟩ | ⟨-, -, -, rfl⟩ | ⟨-, -, -, rfl⟩
  case inr.inr.inr => exact { bodyOf_sameHost i s with viol := rfl }
  all_goals constructor <;> rfl

/-- Only a write to CFG and a reset change CFG. -/
theorem step_sameCfg {s t : State} (h : step s = .next t) (hr : ∀ rest, s.inbox ≠ ⟨0, .reset⟩ :: rest)
    (hc : ∀ w rest, s.inbox ≠ ⟨0, .write 32 0x10#8 w⟩ :: rest) : SameCfg s t := by
  cases stepped h with
  | config w q due => exact absurd due (hc w q)
  | command w i q => exact (bodyOf_sameHost i { s with inbox := q }).sameCfg
  | burst => exact (burst_sameHost s).sameCfg
  | reset q due => exact absurd due (hr q)
  | access v f r q => exact ⟨rfl, rfl, rfl, rfl⟩
  | poke a b q => exact ⟨rfl, rfl, rfl, rfl⟩
  | stop q => exact ⟨rfl, rfl, rfl, rfl⟩

/-- Where no input lands, a step leaves the host's side. -/
theorem step_sameHost_of_none_due {s t : State} (h : step s = .next t)
    (hi : s.inbox = [] ∨ ∃ n x rest, s.inbox = ⟨n + 1, x⟩ :: rest) :
    SameHost s { t with inbox := s.inbox } := by
  rcases hi with hi | ⟨n, x, rest, hi⟩
  · rw [step_alone hi] at h
    cases h
    exact alone_sameHost s
  · rw [step_early hi] at h
    cases h
    exact burst_sameHost s

/-- Settles O53: the commands, the steps but a write to CFG, and the steps in which no input lands. -/
theorem commandsLeaveHostStateAlone : Obligations.CommandsLeaveHostStateAlone := by
  refine ⟨fun i s t h => ?_, fun s t h hr hc => step_sameCfg h hr hc, fun s t h hi => ?_⟩
  · have hh := exec_sameHost h
    refine ⟨hh.sameCfg, hh.hmem, hh.hostReads, fun hb hu hp => ?_⟩
    rw [exec_accepted hb hu hp] at h
    cases h
    exact (bodyOf_sameHost i s).viol
  · have hh := step_sameHost_of_none_due h hi
    exact ⟨hh.viol, hh.hmem, hh.hostReads⟩

/-! ## The traces -/

/-- Events are only appended between the two states. -/
def Grows (s t : State) : Prop :=
  (∃ evs, t.btrace = s.btrace ++ evs) ∧ (∃ evs, t.dtrace = s.dtrace ++ evs)

theorem grows_of_same {s t : State} (hb : t.btrace = s.btrace) (hd : t.dtrace = s.dtrace) : Grows s t :=
  ⟨⟨[], by rw [hb, List.append_nil]⟩, ⟨[], by rw [hd, List.append_nil]⟩⟩

theorem bodyOf_grows (i : Instr) (s : State) : Grows s (bodyOf i s) := by
  by_cases hi : i = .busStop
  · subst hi
    exact grows_of_same rfl rfl
  · rw [bodyOf_eq_run hi]
    exact engineRun_grows s.room ((s.accepted i).begin (planOf i s) (resultOf i))

/-- Settles O55: a run of the engine and a pending stop append events, and no input but a reset changes a trace. -/
theorem tracesOnlyGrow : Obligations.TracesOnlyGrow := by
  intro s t ht hr
  change Grows s t
  cases stepped ht with
  | stop q => exact ⟨⟨[.stop], rfl⟩, [], (List.append_nil _).symm⟩
  | command w i q => exact bodyOf_grows i { s with inbox := q }
  | burst => exact engineRun_grows s.room s
  | reset q due => exact absurd due (hr q)
  | access v f r q => exact grows_of_same rfl rfl
  | config w q => exact grows_of_same rfl rfl
  | poke a b q => exact grows_of_same rfl rfl

/-! ## DISP_INIT -/

/-- No line of the pseudocode clears DISP_INIT. -/
theorem Performed.dispInit_stays {s t : State} {u : Useq} {m : Micro} (h : Performed s u m t)
    (hd : s.dispInit = true) : t.dispInit = true := by
  cases h
  case terminator a hz => unfold State.afterTextByte; split <;> exact hd
  case character a hz => unfold State.afterTextByte; split <;> exact hd
  case plain hm _ => cases m <;> first | (cases hm; done) | exact hd | rfl
  all_goals exact hd

theorem engineRun_dispInit_stays (n : Nat) {s : State} (hd : s.dispInit = true) :
    (State.engineRun n s).dispInit = true := by
  refine engineRun_induct (P := fun a => a.dispInit = true) (fun a b ha hab => ?_) n s hd
  exact engineStep_keeps (P := fun a => a.dispInit = true) (fun _ _ _ _ _ ha _ _ _ hp => hp.dispInit_stays ha)
    (fun _ _ ha _ => ha) (fun _ _ ha _ _ _ => ha) ha hab

theorem bodyOf_dispInit_stays (i : Instr) {s : State} (hd : s.dispInit = true) :
    (bodyOf i s).dispInit = true := by
  by_cases hi : i = .busStop
  · subst hi
    exact hd
  · rw [bodyOf_eq_run hi]
    exact engineRun_dispInit_stays s.room hd

/-- Settles O56: no line of the engine and no input but a reset clears DISP_INIT. -/
theorem displayStaysInitializedUntilReset : Obligations.DisplayStaysInitializedUntilReset := by
  intro s t ht hd hr
  cases stepped ht with
  | command w i q => exact bodyOf_dispInit_stays i (s := { s with inbox := q }) hd
  | burst => exact engineRun_dispInit_stays s.room hd
  | reset q due => exact absurd due (hr q)
  | access v f r q => exact hd
  | config w q => exact hd
  | poke a b q => exact hd
  | stop q => exact hd

/-! ## TEMP and TEMP_VALID -/

/-- TEMP_READ is the only command of its unit (R83). -/
theorem unit_trs_iff (i : Instr) : i.unit = .trs ↔ i = .tempRead := by
  cases i <;> simp [Instr.unit]

/-- The lines of another unit are none of those that only TEMP_READ has. -/
theorem ofTemp_of_ofUnit {f : FuncUnit} {m : Micro} (hf : f ≠ .trs) (h : Micro.ofUnit f m = true) :
    m.ofTemp = false := by
  cases f
  case lcd => cases m <;> first | rfl | cases h
  case twi =>
    simp only [Micro.ofUnit, Bool.and_eq_true, Bool.not_eq_true'] at h
    exact h.2
  case trs => exact absurd rfl hf

theorem all_not_ofTemp {f : FuncUnit} {l : List Micro} (hf : f ≠ .trs) (h : l.all (Micro.ofUnit f) = true) :
    l.all (fun m => !m.ofTemp) = true :=
  List.all_eq_true.mpr fun m hm => by rw [ofTemp_of_ofUnit hf (List.all_eq_true.mp h m hm)]; rfl

/-- An accepted command other than TEMP_READ leaves TEMP and TEMP_VALID, also where it ends by a timeout. -/
theorem bodyOf_sameTemp {i : Instr} (hi : i ≠ .tempRead) (s : State) :
    (bodyOf i s).tempRaw = s.tempRaw ∧ (bodyOf i s).tempValid = s.tempValid := by
  by_cases hstop : i = .busStop
  · subst hstop
    exact ⟨rfl, rfl⟩
  · rw [bodyOf_eq_run hstop]
    refine engineRun_sameTemp s.room ((s.accepted i).begin (planOf i s) (resultOf i)) ⟨fun h => hi ?_, ?_⟩
    · exact Option.some.inj ((decode_encode i).symm.trans (Option.some.inj h ▸ decode_encode .tempRead))
    · rintro u ⟨⟩
      exact all_not_ofTemp (mt (unit_trs_iff i).mp hi) (planOf_ofUnit i s)

/-- Where S.cmd is not the word of TEMP_READ, the invariant says that none of its own lines is left. -/
theorem State.Inv.outsideTemp {s : State} (h : s.Inv) (hc : s.cmd ≠ some 0x40000000#32) : s.outsideTemp := by
  refine ⟨hc, fun u hu => ?_⟩
  obtain ⟨-, -, w, i, hw, hd, hunit⟩ := h.running hu
  refine all_not_ofTemp (fun hf => hc ?_) hunit
  rw [(unit_trs_iff i).mp hf] at hd
  rw [hw, eq_of_decode_tempRead hd]

/-- Settles O52: the commands from their acceptance, and every step by its cases under the invariant. -/
theorem onlyTempReadWritesTemp : Obligations.OnlyTempReadWritesTemp := by
  refine ⟨fun i s t hi h => ?_, fun s t h hc ht hsub hr => ?_⟩
  · rcases exec_cases h with ⟨-, rfl⟩ | ⟨-, -, rfl⟩ | ⟨-, -, -, rfl⟩ | ⟨-, -, -, rfl⟩
    case inr.inr.inr => exact bodyOf_sameTemp hi s
    all_goals exact ⟨rfl, rfl⟩
  · cases stepped ht with
    | command w i q due decodes idle =>
      refine bodyOf_sameTemp (fun hi => ?_) { s with inbox := q }
      rw [hi] at decodes
      rw [eq_of_decode_tempRead decodes] at due
      exact hsub.elim (fun hb => Bool.false_ne_true (idle.symm.trans hb)) (fun hn => hn q due)
    | burst => exact engineRun_sameTemp s.room s (h.outsideTemp hc)
    | reset q due => exact absurd due (hr q)
    | access v f r q => exact ⟨rfl, rfl⟩
    | config w q => exact ⟨rfl, rfl⟩
    | poke a b q => exact ⟨rfl, rfl⟩
    | stop q => exact ⟨rfl, rfl⟩

end Sys2Proof.Machine
end

section
/-! PROOFS. The registers: the values at reset (10_state.md R40), the fields of the words they read as (R22, R31 to R33),
what a due access to a mapped register does (20_memory.md R50 to R55), and the step that runs a submitted command
(60_exceptions.md R222). -/

namespace Sys2Proof.Machine

/-- Settles O1, by computing each piece of the reset state. -/
theorem resetStateHoldsTheStatedValues : Obligations.ResetStateHoldsTheStatedValues := by
  unfold Obligations.ResetStateHoldsTheStatedValues
  decide

/-! ## A due access to a mapped register -/

/-- An access of 32 bits at a register's offset reaches it (R51). -/
@[simp] theorem regAt_regOffset (r : Reg) : regAt 32 (regOffset r) = some r := by cases r <;> rfl

/-- The step of a due read of a register (R50, R55). -/
theorem step_read_reg {s : State} {r : Reg} {rest : List Arrival}
    (h : s.inbox = ⟨0, .read 32 (regOffset r)⟩ :: rest) :
    step s = .next ((State.afterRead { s with inbox := rest } r).logRead (regOffset r) (s.readValue r)) := by
  have hv : State.readValue { s with inbox := rest } r = s.readValue r := by cases r <;> rfl
  rw [step_due h, State.deliver, State.hostRead, regAt_regOffset, ← hv]

/-- The step of a due write to CMD (R21). -/
theorem step_write_cmd {s : State} {w : Word} {rest : List Arrival}
    (h : s.inbox = ⟨0, .write 32 0x00#8 w⟩ :: rest) : step s = State.submit { s with inbox := rest } w := by
  rw [step_due h]
  rfl

/-- The step of a due write to CFG (R33, R54). -/
theorem step_write_cfg {s : State} {w : Word} {rest : List Arrival}
    (h : s.inbox = ⟨0, .write 32 0x10#8 w⟩ :: rest) :
    step s = .next (State.writeCfg { s with inbox := rest } w) := by
  rw [step_due h]
  rfl

/-- A word that decodes, submitted with no command executing, runs its command (R222). -/
theorem submit_decoded {s : State} {w : Word} {i : Instr} (hb : s.busy = false) (hd : decode w = some i) :
    s.submit w = exec i s := by
  rw [State.submit, hb, hd]
  rfl

/-- Settles O3: the due write is a submission, and the word that `withFetchWord` submits is `w`. -/
theorem stepRunsTheSubmittedCommand : Obligations.StepRunsTheSubmittedCommand := by
  refine ⟨fun s w i rest h hb hd => ?_, fun s w i hb hd => ?_⟩
  · rw [step_write_cmd h]
    exact submit_decoded (s := { s with inbox := rest }) hb hd
  · have hw : tableWord 32 w.toNat = w := by
      rw [tableWord, Nat.mod_eq_of_lt w.isLt, BitVec.ofNat_toNat, BitVec.setWidth_eq]
    have hin : (s.withFetchWord 32 w.toNat).inbox = ⟨0, .write 32 0x00#8 w⟩ :: s.inbox := by
      rw [State.withFetchWord, hw]
      rfl
    rw [step_write_cmd hin]
    exact submit_decoded hb hd

/-- Settles O14, by BUSY. -/
theorem cfgWriteSetsFieldsUnlessBusy : Obligations.CfgWriteSetsFieldsUnlessBusy := by
  intro s rest w h
  rw [step_write_cfg h]
  by_cases hb : s.busy = true
  · rw [State.writeCfg, if_pos hb, if_pos hb]
    rfl
  · rw [State.writeCfg, if_neg hb, if_neg hb]
    rfl

/-- A read with no free value leaves the state (R53, R55). -/
theorem afterRead_exact {s : State} {r : Reg} (h : s.busy = false ∨ r = .cmd) : s.afterRead r = s := by
  rw [State.afterRead, if_neg]
  rintro ⟨hb, hr⟩
  rcases h with h | h
  · exact Bool.false_ne_true (h.symm.trans hb)
  · exact hr h

/-- Settles O17: these reads draw no free value. -/
theorem cmdAndIdleReadsHaveNoSideEffect : Obligations.CmdAndIdleReadsHaveNoSideEffect := by
  refine ⟨fun s rest h => ?_, fun s rest r hb h => ?_⟩
  · rw [step_read_reg (r := .cmd) h, afterRead_exact (.inr rfl)]
    rfl
  · rw [step_read_reg h, afterRead_exact (s := { s with inbox := rest }) (.inl hb)]
    rfl

/-! ## The fields of the registers' words -/

/-- A bit of a word, from its number. -/
theorem getLsbD_of_toNat {n : Nat} {w : BitVec n} {i : Nat} {b : Bool} (h : w.toNat / 2 ^ i % 2 = b.toNat) :
    w.getLsbD i = b := by
  rw [getLsbD_arith, h]
  cases b <;> rfl

/-- A field of a word, from its number. -/
theorem extractLsb'_of_toNat {n k i : Nat} {w : BitVec n} {x : BitVec k}
    (h : w.toNat / 2 ^ i % 2 ^ k = x.toNat) : w.extractLsb' i k = x :=
  BitVec.eq_of_toNat_eq (by rw [toNat_field, h])

/-- STATUS while no command executes, field by field (R22). -/
theorem statusWord_fields (s : State) :
    let w := s.statusWord
    w.getLsbD 0 = s.busy ∧ w.getLsbD 1 = s.done ∧ w.getLsbD 2 = s.ack ∧ w.getLsbD 3 = s.busInit ∧
      w.getLsbD 4 = s.stopPending ∧ w.extractLsb' 5 3 = s.phase.code ∧ w.getLsbD 8 = s.dispInit ∧
      w.getLsbD 9 = s.rs ∧ w.getLsbD 10 = s.tempValid ∧ w.getLsbD 11 = false ∧
      w.extractLsb' 12 4 = s.err.code ∧ w.extractLsb' 16 4 = s.viol.code ∧ w.extractLsb' 20 12 = 0#12 := by
  have h0 := s.busy.toNat_lt
  have h1 := s.done.toNat_lt
  have h2 := s.ack.toNat_lt
  have h3 := s.busInit.toNat_lt
  have h4 := s.stopPending.toNat_lt
  have h8 := s.dispInit.toNat_lt
  have h9 := s.rs.toNat_lt
  have h10 := s.tempValid.toNat_lt
  refine ⟨getLsbD_of_toNat ?_, getLsbD_of_toNat ?_, getLsbD_of_toNat ?_, getLsbD_of_toNat ?_,
    getLsbD_of_toNat ?_, extractLsb'_of_toNat ?_, getLsbD_of_toNat ?_, getLsbD_of_toNat ?_,
    getLsbD_of_toNat ?_, getLsbD_of_toNat ?_, extractLsb'_of_toNat ?_, extractLsb'_of_toNat ?_,
    extractLsb'_of_toNat ?_⟩
  all_goals simp only [statusWord_toNat, Nat.reducePow, Bool.toNat_false, BitVec.toNat_ofNat, Nat.reduceMod]
  all_goals omega

/-- STATUS while a command executes: BUSY, VIOL and the reserved bits, whatever the free word (R30). -/
theorem statusWordBusy_fields (s : State) (free : Word) :
    let w := s.statusWordBusy free
    w.getLsbD 0 = true ∧ w.extractLsb' 16 4 = s.viol.code ∧ w.getLsbD 11 = false ∧
      w.extractLsb' 20 12 = 0#12 := by
  refine ⟨getLsbD_of_toNat ?_, extractLsb'_of_toNat ?_, getLsbD_of_toNat ?_, extractLsb'_of_toNat ?_⟩
  all_goals simp only [statusWordBusy_toNat, Nat.reducePow, Bool.toNat_false, Bool.toNat_true,
    BitVec.toNat_ofNat, Nat.reduceMod]
  all_goals omega

/-- RXDATA, field by field (R31). -/
theorem rxdataWord_fields (s : State) :
    let w := s.rxdataWord
    w.extractLsb' 0 8 = s.rxdata ∧ w.extractLsb' 8 24 = 0#24 := by
  refine ⟨extractLsb'_of_toNat ?_, extractLsb'_of_toNat ?_⟩
  all_goals simp only [rxdataWord_toNat, Nat.reducePow, BitVec.toNat_ofNat, Nat.reduceMod]
  all_goals omega

/-- TEMP, field by field (R32). -/
theorem tempWord_fields (s : State) :
    let w := s.tempWord
    w.extractLsb' 0 16 = s.tempRaw ∧ w.extractLsb' 16 13 = s.tempRaw.extractLsb' 3 13 ∧
      w.extractLsb' 29 3 = 0#3 := by
  have hsmall : s.tempRaw.toNat / 8 * 65536 + s.tempRaw.toNat < 536870912 := by omega
  refine ⟨extractLsb'_of_toNat ?_, extractLsb'_of_toNat ?_, extractLsb'_of_toNat ?_⟩
  all_goals simp only [tempWord_toNat, toNat_field, Nat.reducePow, BitVec.toNat_ofNat, Nat.reduceMod]
  · omega
  · omega
  · rw [Nat.div_eq_of_lt hsmall]

/-- CFG, field by field (R33). -/
theorem cfgWord_fields (s : State) :
    let w := s.cfgWord
    w.extractLsb' 0 8 = s.cfgDiv ∧ w.extractLsb' 8 7 = s.cfgSaddr ∧ w.getLsbD 15 = false ∧
      w.extractLsb' 16 8 = s.cfgSreg ∧ w.extractLsb' 24 8 = s.cfgTimeout := by
  refine ⟨extractLsb'_of_toNat ?_, extractLsb'_of_toNat ?_, getLsbD_of_toNat ?_, extractLsb'_of_toNat ?_,
    extractLsb'_of_toNat ?_⟩
  all_goals simp only [cfgWord_toNat, Nat.reducePow, Bool.toNat_false]
  all_goals omega

/-- Settles O16: the codes by computation, the words field by field. -/
theorem idleReadsShowTheExactState : Obligations.IdleReadsShowTheExactState := by
  refine ⟨by decide, by decide, by decide, fun s hb => ?_⟩
  have hidle : ¬s.busy = true := by rw [hb]; decide
  have status : s.readValue .status = s.statusWord := if_neg hidle
  have rxdata : s.readValue .rxdata = s.rxdataWord := if_neg hidle
  have temp : s.readValue .temp = s.tempWord := if_neg hidle
  have cfg : s.readValue .cfg = s.cfgWord := if_neg hidle
  rw [status, rxdata, temp, cfg]
  obtain ⟨hbusy, hfields⟩ := statusWord_fields s
  exact ⟨rfl, ⟨hbusy.trans hb, hfields⟩, rxdataWord_fields s, tempWord_fields s, cfgWord_fields s⟩

/-- The word that a write to CFG leaves there (R33). -/
theorem cfgWord_withCfg (s : State) (w : Word) : (s.withCfg w).cfgWord = w &&& 0xFFFF7FFF#32 := by
  unfold State.cfgWord State.withCfg
  apply BitVec.eq_of_getLsbD_eq
  intro i hi
  repeat rw [BitVec.getLsbD_append]
  interval_cases i <;> simp

/-- Settles O19, bit by bit. -/
theorem cfgReadsBackWithReservedBitClear : Obligations.CfgReadsBackWithReservedBitClear := by
  intro s w hb
  rw [State.readValue, withCfg_busy, hb]
  exact cfgWord_withCfg s w

/-- The step of a due read of a register while a command executes: one free value is used up (R30; log 8). -/
theorem step_read_reg_busy {s : State} {r : Reg} {rest : List Arrival} (hb : s.busy = true) (hr : r ≠ .cmd)
    (h : s.inbox = ⟨0, .read 32 (regOffset r)⟩ :: rest) :
    step s = .next
      { s with
        inbox := rest, frees := s.frees + 1,
        hostReads := s.hostReads ++ [⟨regOffset r, s.readValue r⟩] } := by
  have hfree : State.afterRead { s with inbox := rest } r = State.popFree { s with inbox := rest } := if_pos ⟨hb, hr⟩
  rw [step_read_reg h, hfree]
  rfl

/-- Settles O18, register by register; what STATUS shows holds for every free word. -/
theorem busyReadsChangeNothingAndShowBusyAndViol : Obligations.BusyReadsChangeNothingAndShowBusyAndViol := by
  rintro s rest off hb (rfl | rfl | rfl | rfl) h
  · refine ⟨_, step_read_reg_busy (r := .status) hb (by decide) h, fun _ => ?_⟩
    simp only [State.readValue, hb]
    exact statusWordBusy_fields s s.freeWord
  · exact ⟨_, step_read_reg_busy (r := .rxdata) hb (by decide) h, fun hoff => absurd hoff (by decide)⟩
  · exact ⟨_, step_read_reg_busy (r := .temp) hb (by decide) h, fun hoff => absurd hoff (by decide)⟩
  · exact ⟨_, step_read_reg_busy (r := .cfg) hb (by decide) h, fun hoff => absurd hoff (by decide)⟩

end Sys2Proof.Machine
end

section
/-! PROOFS. HMEM and the host's accesses: who writes HMEM (20_memory.md R56), the accesses that are refused (R52,
R53), and the byte DISP_TEXT reads while the host writes (R65). -/

namespace Sys2Proof.Machine

/-! ## Host memory -/

/-- The step of a due host write to HMEM (R38). -/
theorem step_poke {s : State} {a : HAddr} {b : Byte} {rest : List Arrival}
    (h : s.inbox = ⟨0, .poke a b⟩ :: rest) : step s = .next (State.poke { s with inbox := rest } a b) := by
  rw [step_due h]
  rfl

/-- Settles O54: the engine and every other input leave HMEM, and a host write is a write of one byte. -/
theorem onlyTheHostWritesHostMemory : Obligations.OnlyTheHostWritesHostMemory := by
  refine ⟨fun s t h hp => ?_, fun s a b rest hw h => ⟨_, step_poke h, fun x => read_write hw a x b⟩⟩
  cases stepped h with
  | poke a b q due => exact absurd due (hp a b q)
  | command w i q => exact (bodyOf_sameHost i { s with inbox := q }).hmem
  | burst => exact (burst_sameHost s).hmem
  | access v f r q => rfl
  | config w q => rfl
  | stop q => rfl
  | reset q => rfl

/-! ## Refused accesses -/

/-- An access reaches a register only with 32 bits at its offset (R51 to R53). -/
theorem eq_regOffset_of_regAt {width : Nat} {off : Byte} {r : Reg} (h : regAt width off = some r) :
    width = 32 ∧ off = regOffset r := by
  unfold regAt at h
  repeat' split at h
  all_goals cases h
  all_goals exact ⟨‹_›, ‹_›⟩

/-- Another width, another alignment and an offset past CFG reach no register (R52, R53). -/
theorem regAt_eq_none {width : Nat} {off : Byte} (h : width ≠ 32 ∨ off.toNat % 4 ≠ 0 ∨ 0x14 ≤ off.toNat) :
    regAt width off = none := by
  have offsets : ∀ r, (regOffset r).toNat % 4 = 0 ∧ (regOffset r).toNat < 0x14 := by
    intro r
    cases r <;> decide
  rcases hr : regAt width off with _ | r
  · rfl
  · obtain ⟨rfl, rfl⟩ := eq_regOffset_of_regAt hr
    have := offsets r
    omega

/-- A write that reaches neither CMD nor CFG is refused (R52, R53). -/
theorem hostWrite_refused {s : State} {width : Nat} {off : Byte} (hcmd : regAt width off ≠ some .cmd)
    (hcfg : regAt width off ≠ some .cfg) (w : Word) :
    s.hostWrite width off w = .next (s.raise .illegalAccess) := by
  unfold State.hostWrite
  split
  · next h => exact absurd h hcmd
  · next h => exact absurd h hcfg
  all_goals rfl

/-- Settles O13: these reads reach no register, and these writes none that may be written. -/
theorem illegalAccessesOnlyMarkViol : Obligations.IllegalAccessesOnlyMarkViol := by
  intro s rest width off
  refine ⟨fun hoff h => ?_, fun hoff w h => ?_⟩
  · rw [step_due h, State.deliver, State.hostRead, regAt_eq_none hoff]
    rfl
  · have hreg : regAt width off ≠ some .cmd ∧ regAt width off ≠ some .cfg := by
      constructor
      all_goals
        intro hr
        obtain ⟨rfl, rfl⟩ := eq_regOffset_of_regAt hr
        exact absurd hoff (by decide)
    rw [step_due h, State.deliver, hostWrite_refused hreg.1 hreg.2]
    rfl

/-! ## The byte DISP_TEXT reads -/

/-- The byte read is the one there now or an overwritten one (R65). -/
theorem textByte_mem (s : State) (stale : List Host.Cell) (a : HAddr) :
    s.textByte stale a = s.hmem.read a ∨ (a.toNat, s.textByte stale a) ∈ stale := by
  unfold State.textByte
  split
  · have hpick : Config.freePick s.frees % (s.textCandidates stale a).length <
        (s.textCandidates stale a).length := Nat.mod_lt _ (Nat.succ_pos _)
    rw [List.getD_eq_getElem _ _ hpick]
    refine (List.mem_cons.mp (List.getElem_mem hpick)).imp_right fun hmem => ?_
    obtain ⟨⟨k, x⟩, hc, hx⟩ := List.mem_map.mp hmem
    obtain ⟨hc, hk⟩ := List.mem_filter.mp hc
    rw [← hx, ← eq_of_beq hk]
    exact hc
  · exact .inl rfl

/-- A byte the host has not overwritten reads as the one there now (R65). -/
theorem textByte_of_not_stale {s : State} {stale : List Host.Cell} {a : HAddr}
    (h : ∀ x : Byte, (a.toNat, x) ∉ stale) : s.textByte stale a = s.hmem.read a :=
  (textByte_mem s stale a).resolve_right (h _)

@[simp] theorem afterTextByte_dtrace (s : State) (stale : List Host.Cell) (a : HAddr) :
    (s.afterTextByte stale a).dtrace = s.dtrace := by
  unfold State.afterTextByte
  split <;> rfl

/-- At the loop of DISP_TEXT the engine has a step: it ends the command at a 0x00 byte, else it goes on to send the byte
it read (R180). -/
theorem engineStep_text {s : State} {u : Useq} {a : HAddr} {rest : List Micro} (hu : s.useq = some u)
    (ht : u.timer = none) (hm : u.todo = .text a :: rest) :
    ∃ t, s.engineStep = some t ∧ t.hmem = s.hmem ∧
      (s.textByte u.stale a = 0#8 → t.busy = false ∧ t.err = .ok ∧ t.dtrace = s.dtrace) ∧
      (s.textByte u.stale a ≠ 0#8 →
        t.useq = some { u with todo := xferSteps true (s.textByte u.stale a) ++ .text (a + 1) :: rest }) := by
  rw [engineStep_perform hu ht hm]
  cases hp : s.perform (.text a) { u with todo := rest } with
  | none => exact absurd (perform_none hp).1 Bool.false_ne_true
  | some t =>
    have hline := performed hp
    refine ⟨t, rfl, hline.sameHost.hmem, ?_⟩
    cases hline with
    | timeout asks => cases asks
    | plain isPlain => cases isPlain
    | terminator _ zero => exact ⟨fun _ => ⟨rfl, rfl, afterTextByte_dtrace _ _ _⟩, fun h => absurd zero h⟩
    | character _ more => exact ⟨fun h => absurd h more, fun _ => rfl⟩

/-- Only the words of DISP_TEXT decode to it. -/
theorem eq_of_decode_dispText {w : Word} {addr : HAddr} (h : decode w = some (.dispText addr)) :
    w = encode (.dispText addr) := by
  obtain ⟨r, hr, hm, hb⟩ := row_of_decode h
  have hname : r.mnemonic = "DISP_TEXT" := by rw [← build_mnemonic hr w, hb]; rfl
  have hrow : r = opcodeMap[12] :=
    List.inj_on_of_nodup_map rows_mnemonics_nodup hr (by simp [opcodeMap]) hname
  subst hrow
  have haddr : fieldAddr w = addr := Instr.dispText.inj hb
  have hopcode : w.toNat / 65536 * 65536 = 0x30000000 := (mask_formatPA w _).mp hm
  rw [← BitVec.toNat_inj, encode_toNat, ← haddr]
  simp only [fieldAddr, toNat_field]
  omega

/-- A DISP_TEXT executes exactly where its word stands in S.cmd (R34). -/
theorem runsText_iff (s : State) : s.runsText = true ↔ ∃ addr, s.cmd = some (encode (.dispText addr)) := by
  unfold State.runsText
  constructor
  · intro h
    split at h
    · next w hw =>
      split at h
      · next addr hd => exact ⟨addr, by rw [hw, eq_of_decode_dispText hd]⟩
      · cases h
    · cases h
  · rintro ⟨addr, hc⟩
    simp only [hc, decode_encode]

/-- A host write to HMEM while a DISP_TEXT executes lists the byte it overwrites (R65). -/
theorem poke_useq_of_runsText {s : State} {u : Useq} (hu : s.useq = some u) (ht : s.runsText = true)
    (a : HAddr) (b : Byte) :
    (s.poke a b).useq = some { u with stale := (a.toNat, s.hmem.read a) :: u.stale } := by
  simp only [State.poke, hu, ht, if_true]

/-- A host write to HMEM while none executes leaves the engine's position. -/
theorem poke_useq_of_not_runsText {s : State} (ht : s.runsText = false) (a : HAddr) (b : Byte) :
    (s.poke a b).useq = s.useq := by
  rcases hu : s.useq with _ | u
  · simp only [State.poke, hu]
  · simp only [State.poke, hu, ht, Bool.false_eq_true, if_false]

/-- A run of the engine leaves the list of overwritten bytes (R65). -/
theorem burst_stale {s : State} {u' : Useq} (h : s.burst.useq = some u') :
    ∃ u, s.useq = some u ∧ u'.stale = u.stale := by
  rcases hu : s.useq with _ | u
  · rw [burst_idle hu] at h
    exact absurd (hu.symm.trans h) nofun
  · refine ⟨u, rfl, engineRun_staleIs s.room s (st := u.stale) (fun v hv => ?_) u' h⟩
    rw [Option.some.inj (hv.symm.trans hu)]

/-- A command starts with no overwritten byte, and has none until a host write lands (R65). -/
theorem bodyOf_staleIs_nil (i : Instr) (s : State) : (bodyOf i s).staleIs [] := by
  by_cases hi : i = .busStop
  · subst hi
    exact nofun
  · rw [bodyOf_eq_run hi]
    refine engineRun_staleIs s.room ((s.accepted i).begin (planOf i s) (resultOf i)) ?_
    rintro u ⟨⟩
    rfl

/-- A step other than a host write to HMEM during a DISP_TEXT starts a command with no overwritten byte, or leaves the
list of the command that executes (R65). -/
theorem step_stale {s t : State} {u' : Useq} (h : step s = .next t)
    (hp : (∀ a b rest, s.inbox ≠ ⟨0, .poke a b⟩ :: rest) ∨ ∀ addr, s.cmd ≠ some (encode (.dispText addr)))
    (hu : t.useq = some u') :
    (s.busy = false ∧ u'.stale = []) ∨ ∃ u, s.useq = some u ∧ u'.stale = u.stale := by
  cases stepped h with
  | command w i q due decodes idle => exact .inl ⟨idle, bodyOf_staleIs_nil i _ u' hu⟩
  | burst => exact .inr (burst_stale hu)
  | reset q => cases hu
  | poke a b q due =>
    have hcmd := hp.resolve_left fun hn => hn a b q due
    have htext : State.runsText { s with inbox := q } = false :=
      Bool.eq_false_iff.mpr fun ht => ((runsText_iff _).mp ht).elim hcmd
    rw [poke_useq_of_not_runsText htext] at hu
    exact .inr ⟨u', hu, rfl⟩
  | access v f r q => exact .inr ⟨u', hu, rfl⟩
  | config w q => exact .inr ⟨u', hu, rfl⟩
  | stop q => exact .inr ⟨u', hu, rfl⟩

/-- Settles O39: the byte of the loop, then the list at acceptance, at a host write, and at every other step. -/
theorem racingTextReadGivesOldOrNewByte : Obligations.RacingTextReadGivesOldOrNewByte := by
  refine ⟨fun s u a rest hu ht hm => ?_, fun s t addr u hb hd h hu => ?_, fun s u addr a b rest hc hu h => ?_,
    fun s t u' h hp hu => step_stale h hp hu⟩
  · exact ⟨s.textByte u.stale a, textByte_mem s u.stale a, textByte_of_not_stale, engineStep_text hu ht hm⟩
  · rw [exec_accepted hb (unitReady_lcd hd rfl) (by rw [phaseTable_lcd s.phase rfl]; nofun)] at h
    cases h
    exact bodyOf_staleIs_nil _ s u hu
  · have htext : State.runsText { s with inbox := rest } = true := (runsText_iff _).mpr ⟨addr, hc⟩
    have hpos := poke_useq_of_runsText (s := { s with inbox := rest }) hu htext a b
    rw [step_poke h, ← hpos]
    rfl

end Sys2Proof.Machine
end

section
/-! PROOFS. Inputs that change nothing in LM92TC: they only cut a run of the engine in two (20_memory.md R61, R62). -/

namespace Sys2Proof.Machine

/-- Putting a state's own waiting inputs and record in changes nothing. -/
theorem withHost_self {s : State} {q : List Arrival} (h : s.inbox = q) : s.withHost q s.hostReads = s := by
  subst h
  rfl

/-- The step in which an input put in front, due now, lands. -/
theorem step_withHost_due (s : State) (i : Input) (q : List Arrival) (r : List HostRead) :
    step (s.withHost (⟨0, i⟩ :: q) r) = (s.withHost q r).deliver i :=
  step_due (s := s.withHost (⟨0, i⟩ :: q) r) rfl

/-- A read of CMD changes the host's record only (R21, R53). -/
theorem step_read_cmd (s : State) (q : List Arrival) (r : List HostRead) :
    step (s.withHost (⟨0, .read 32 0x00#8⟩ :: q) r) = .next (s.withHost q (r ++ [⟨0x00#8, 0#32⟩])) :=
  cmdAndIdleReadsHaveNoSideEffect.1 _ q rfl

/-- A moment for the pending stop at which none is pending changes nothing (R119). -/
theorem step_stopStep_idle {s : State} (hp : s.stopPending = false) (q : List Arrival) (r : List HostRead) :
    step (s.withHost (⟨0, .stopStep⟩ :: q) r) = .next (s.withHost q r) := by
  rw [step_withHost_due, State.deliver, stopStep_waits (s := s.withHost q r) (.inl hp)]

/-- A step with an input still to come runs the engine until that input is due. -/
theorem step_runs (s : State) {n : Nat} (x : Input) (rest : List Arrival) (r : List HostRead) (hn : 0 < n) :
    step (s.withHost (⟨n, x⟩ :: rest) r) = .next ((State.engineRun n s).withHost (⟨0, x⟩ :: rest) r) := by
  obtain ⟨k, rfl⟩ := Nat.exists_eq_add_one.mpr hn
  rw [step_early rfl, burst_due rfl, engineRun_withHost]
  rfl

/-- Where an input lands in a run and changes at most the host's record, the two steps from there end as the run that
was not cut (R61, R62). -/
theorem run_resumes {s t : State} {m n : Nat} {x : Input} {rest : List Arrival} {r : List HostRead} (hn : 0 < n)
    (h : step t = .next ((State.engineRun m s).withHost (⟨n, x⟩ :: rest) r)) :
    Sys2Proof.core.run 2 t = .next ((State.engineRun (m + n) s).withHost (⟨0, x⟩ :: rest) r) :=
  (core_run_succ 1 h).trans <| core_run_succ 0 <| by
    rw [step_runs (State.engineRun m s) x rest r hn, engineRun_add]

/-- The state in which an accepted command's engine steps begin. -/
def State.started (s : State) (i : Instr) : State := (s.accepted i).begin (planOf i s) (resultOf i)

/-- What an accepted command does before the next input is due. -/
theorem bodyOf_due {i : Instr} {s : State} {n : Nat} {x : Input} {rest : List Arrival} (hi : i ≠ .busStop)
    (h : s.inbox = ⟨n, x⟩ :: rest) :
    bodyOf i s = (State.engineRun n (s.started i)).withHost (⟨0, x⟩ :: rest) s.hostReads := by
  rw [bodyOf_eq_run hi]
  exact burst_due (s := s.started i) h

/-- No command looks at the waiting inputs or the host's record when it starts. -/
theorem started_withHost (s : State) (i : Instr) (q : List Arrival) (r : List HostRead) :
    (s.withHost q r).started i = (s.started i).withHost q r := by
  cases i <;> rfl

/-- Settles O5: both runs are the same run of the engine, one of them cut where the input without effect lands. -/
theorem inputWithoutEffectMayLandAnywhere : Obligations.InputWithoutEffectMayLandAnywhere := by
  refine ⟨fun s i m n x rest hb hu hp hi hn h => ?_, fun s m n x rest _ hm hn => ?_⟩
  · have uncut : bodyOf i (s.withHost (⟨m + n, x⟩ :: rest) s.hostReads) =
        (State.engineRun (m + n) (s.started i)).withHost (⟨0, x⟩ :: rest) s.hostReads := by
      rw [bodyOf_due hi rfl, started_withHost, engineRun_withHost]
      rfl
    refine ⟨_, _, exec_accepted hb hu hp,
      exec_accepted (s := s.withHost (⟨m + n, x⟩ :: rest) s.hostReads) hb hu hp, ?_⟩
    rw [uncut, bodyOf_due hi h]
    exact run_resumes hn (step_read_cmd _ _ _)
  · have uncut := step_runs s x rest s.hostReads (Nat.add_pos_left hm n)
    have first {y : Input} (h : s.inbox = ⟨m, y⟩ :: ⟨n, x⟩ :: rest) :
        step s = .next ((State.engineRun m s).withHost (⟨0, y⟩ :: ⟨n, x⟩ :: rest) s.hostReads) := by
      rw [← step_runs s y _ _ hm, withHost_self h]
    refine ⟨fun h => ⟨_, uncut, ?_⟩, fun h hstop => ?_⟩
    · exact (core_run_succ 2 (first h)).trans (run_resumes hn (step_read_cmd _ _ _))
    · have hidle := hstop _ (first h)
      have idle := step_stopStep_idle (s := State.engineRun m s) hidle (⟨n, x⟩ :: rest) s.hostReads
      exact ((core_run_succ 2 (first h)).trans (run_resumes hn idle)).trans uncut.symm

end Sys2Proof.Machine
end

section
/-! PROOFS. The command words: the opcode map and its inverse (30_encoding.md R80 to R86), the words of the lines of a
host program (R87, R88), and the poll loop (R95). -/

namespace Sys2Proof.Machine

/-! ## Decoding and encoding -/

/-- Settles O8: the word of a command is covered by the row of its mnemonic, which builds the command back. -/
theorem decodeOfEncodeIsTheCommand : Obligations.DecodeOfEncodeIsTheCommand := decode_encode

/-- Settles O10, by decoding each word. -/
theorem writtenOutWordsDecode : Obligations.WrittenOutWordsDecode := by
  unfold Obligations.WrittenOutWordsDecode
  decide

/-- Settles O6, by taking the loop of R85 through the map row by row. -/
theorem decodeFollowsTheOpcodeMap : Obligations.DecodeFollowsTheOpcodeMap := by
  intro w
  simp only [decode, opcodeMap, find_row]
  rfl

/-- A mnemonic names one row (R83). -/
theorem row_eq_of_mnemonic {r q : Row} (hr : r ∈ opcodeMap) (hq : q ∈ opcodeMap)
    (h : r.mnemonic = q.mnemonic) : r = q :=
  List.inj_on_of_nodup_map rows_mnemonics_nodup hr hq h

/-- Settles O7: a word that decodes is covered by the row of its command's mnemonic, and no other row covers it. -/
theorem oneRowPerCommandWord : Obligations.OneRowPerCommandWord := by
  refine ⟨fun w r hr => ⟨fun h => ?_, fun h => ?_⟩, fun w r q hr hq h h' => ?_⟩
  · obtain ⟨i, hi, hname⟩ := Option.map_eq_some_iff.mp h
    obtain ⟨q, hq, hcovers, rfl⟩ := row_of_decode hi
    rw [build_mnemonic hq] at hname
    rwa [row_eq_of_mnemonic hr hq hname.symm]
  · rw [decode_of_row hr h, Option.map_some, build_mnemonic hr]
  · rw [covers_unique hr hq h h']

/-- A word of format B is its opcode and its operand. -/
theorem formatB_eq {w : Word} {op : Byte} (h : w &&& 0xFFFFFF00#32 = op ++ 0#24) :
    op ++ 0#16 ++ fieldLow w = w := by
  rw [mask_formatB] at h
  refine BitVec.eq_of_toNat_eq (y := w) ?_
  simp only [fieldLow, toNat_fields, toNat_field, BitVec.toNat_ofNat, Nat.add_mul, Nat.mul_assoc,
    Nat.reducePow, Nat.mul_comm op.toNat] at h ⊢
  omega

/-- A word of format P is its opcode and its two operands. -/
theorem formatP_eq {w : Word} {op : Byte} (h : w &&& 0xFFFF0000#32 = op ++ 0#24) :
    op ++ 0#8 ++ fieldRow w ++ fieldLow w = w := by
  rw [mask_formatPA] at h
  refine BitVec.eq_of_toNat_eq (y := w) ?_
  simp only [fieldRow, fieldLow, toNat_fields, toNat_field, BitVec.toNat_ofNat, Nat.add_mul, Nat.mul_assoc,
    Nat.reducePow, Nat.mul_comm op.toNat] at h ⊢
  omega

/-- A word of format A is its opcode and its operand. -/
theorem formatA_eq {w : Word} {op : Byte} (h : w &&& 0xFFFF0000#32 = op ++ 0#24) :
    op ++ 0#8 ++ fieldAddr w = w := by
  rw [mask_formatPA] at h
  refine BitVec.eq_of_toNat_eq (y := w) ?_
  simp only [fieldAddr, toNat_fields, toNat_field, BitVec.toNat_ofNat, Nat.add_mul, Nat.mul_assoc,
    Nat.reducePow, Nat.mul_comm op.toNat] at h ⊢
  omega

/-- A word of format I is its opcode and its operand. -/
theorem formatI_eq {w : Word} {op : Byte} (h : w &&& 0xFF000000#32 = op ++ 0#24) :
    op ++ fieldImm w = w := by
  rw [mask_formatI] at h
  refine BitVec.eq_of_toNat_eq (y := w) ?_
  simp only [fieldImm, toNat_fields, toNat_field, BitVec.toNat_ofNat, Nat.reducePow, Nat.mul_comm op.toNat] at h ⊢
  omega

/-- A word is the word of what the row that covers it builds: the row's mask and the operand fields are all of it. -/
theorem encode_build {r : Row} (hr : r ∈ opcodeMap) {w : Word} (h : w &&& r.mask = r.value) :
    encode (r.build w) = w := by
  have formatN {v : Word} (h : w &&& 0xFFFFFFFF#32 = v) : v = w := ((mask_formatN w v).mp h).symm
  simp only [opcodeMap, List.mem_cons, List.not_mem_nil, or_false] at hr
  rcases hr with rfl | rfl | rfl | rfl | rfl | rfl | rfl | rfl | rfl | rfl | rfl | rfl | rfl | rfl | rfl | rfl
  · exact formatN h
  · exact formatN h
  · exact formatN h
  · exact formatB_eq h
  · exact formatN h
  · exact formatN h
  · exact formatN h
  · exact formatB_eq h
  · exact formatB_eq h
  · exact formatN h
  · exact formatN h
  · exact formatP_eq h
  · exact formatA_eq h
  · exact formatI_eq h
  · exact formatI_eq h
  · exact formatN h

/-- Settles O9: the row that covers the word says what is in every bit of it. -/
theorem encodeOfDecodeIsTheWord : Obligations.EncodeOfDecodeIsTheWord := by
  intro w i h
  obtain ⟨r, hr, hcovers, rfl⟩ := row_of_decode h
  exact encode_build hr hcovers

/-! ## Lines of a host program -/

/-- A command line in range assembles to the submission of its command's word (R87). -/
theorem assembleLine_command {l : Line} {i : Instr} (hl : l.wf = true) (hi : lineCommand l = some i) :
    assembleLine l = some (.write 32 0x00#8 (encode i)) := by
  have hin : lineInput l = submission (encode i) := by
    cases l <;> first | (cases hi; done) | (cases hi; rfl)
  rw [assembleLine, if_pos hl, hin]
  rfl

/-- A line with an operand out of range does not assemble (R88). -/
theorem assembleLine_none {l : Line} (hl : ¬l.wf = true) : assembleLine l = none := if_neg hl

theorem fitsUnsigned_iff (n : Nat) (v : Int) : fitsUnsigned n v = true ↔ 0 ≤ v ∧ v < 2 ^ n := by
  simp [fitsUnsigned]

/-- A number in the unsigned range of a field keeps its value in it. -/
theorem toNat_ofInt_of_fits {n : Nat} {v : Int} (h : fitsUnsigned n v = true) :
    ((BitVec.ofInt n v).toNat : Int) = v := by
  obtain ⟨hlow, hhigh⟩ := (fitsUnsigned_iff n v).mp h
  rw [BitVec.toNat_ofInt]
  push_cast
  rw [Int.emod_eq_of_lt hlow hhigh, Int.toNat_of_nonneg hlow]

/-- Settles O11: the range of R88 is what `Line.wf` checks, and within it the field holds the operand's value. -/
theorem assembledLinesCarryTheirOperands : Obligations.AssembledLinesCarryTheirOperands := by
  refine ⟨fun b => ⟨fun h => ?_, fun h => ?_⟩, fun c r => ⟨fun h => ?_, fun h => ?_⟩,
    fun a => ⟨fun h => ?_, fun h => ?_⟩, fun v => ⟨fun h => ?_, fun h => ?_⟩,
    fun v => ⟨fun h => ?_, fun h => ?_⟩⟩
  · have hb : fitsUnsigned 8 b = true := (fitsUnsigned_iff 8 b).mpr (by omega)
    exact ⟨_, toNat_ofInt_of_fits hb, assembleLine_command hb rfl, assembleLine_command hb rfl,
      assembleLine_command hb rfl⟩
  · have hb : ¬fitsUnsigned 8 b = true := fun hb => h (by have := (fitsUnsigned_iff 8 b).mp hb; omega)
    exact ⟨assembleLine_none hb, assembleLine_none hb, assembleLine_none hb⟩
  · have hc : fitsUnsigned 8 c = true := (fitsUnsigned_iff 8 c).mpr (by omega)
    have hr : fitsUnsigned 8 r = true := (fitsUnsigned_iff 8 r).mpr (by omega)
    exact ⟨_, _, toNat_ofInt_of_fits hc, toNat_ofInt_of_fits hr,
      assembleLine_command (by simp [Line.wf, hc, hr]) rfl⟩
  · refine assembleLine_none fun hl => h ?_
    simp only [Line.wf, Bool.and_eq_true, fitsUnsigned_iff] at hl
    omega
  · have ha : fitsUnsigned 16 a = true := (fitsUnsigned_iff 16 a).mpr (by omega)
    exact ⟨_, toNat_ofInt_of_fits ha, assembleLine_command ha rfl⟩
  · refine assembleLine_none fun hl => h ?_
    simp only [Line.wf, fitsUnsigned_iff] at hl
    omega
  · have hv : fitsUnsigned 24 v = true := (fitsUnsigned_iff 24 v).mpr (by omega)
    exact ⟨_, toNat_ofInt_of_fits hv, assembleLine_command hv rfl⟩
  · refine assembleLine_none fun hl => h ?_
    simp only [Line.wf, fitsUnsigned_iff] at hl
    omega
  · obtain ⟨hlow, hhigh⟩ := h
    have hv : intOperand (BitVec.ofInt 24 v) = v :=
      BitVec.toInt_ofInt_eq_self (by decide) (by omega) (by omega)
    exact ⟨_, hv, assembleLine_command (by simp [Line.wf, hlow, hhigh]) rfl⟩
  · refine assembleLine_none fun hl => h ?_
    simp only [Line.wf, Bool.and_eq_true, decide_eq_true_eq] at hl
    exact hl

/-! ## The poll loop -/

/-- A host read of a register at its offset (R50). -/
theorem hostRead_reg (s : State) (r : Reg) :
    s.hostRead 32 (regOffset r) = (s.afterRead r).logRead (regOffset r) (s.readValue r) := by
  rw [State.hostRead, regAt_regOffset]

/-- With no command executing a poll reads the exact STATUS and ends the loop. -/
theorem poll_idle {s : State} (hb : s.busy = false) : s.poll = s.logRead 0x04#8 s.statusWord := by
  have hread : s.readValue .status = s.statusWord := by simp [State.readValue, hb]
  rw [State.poll, if_neg (by simp [hb]), hostRead_reg, afterRead_exact (.inl hb), hread]
  rfl

/-- While a command executes a poll draws a free value, and the host polls again (log 12). -/
theorem poll_busy {s : State} (hb : s.busy = true) :
    s.poll = { s.popFree.logRead 0x04#8 (s.statusWordBusy s.freeWord) with
      inbox := ⟨Config.burstLimit, .wait⟩ :: s.inbox } := by
  have hread : s.readValue .status = s.statusWordBusy s.freeWord := by simp [State.readValue, hb]
  rw [State.poll, if_pos hb, hostRead_reg, State.afterRead, if_pos ⟨hb, by decide⟩, hread]
  rfl

/-- Settles O20, by BUSY: the two outcomes of a poll. -/
theorem waitPollsUntilNotBusy : Obligations.WaitPollsUntilNotBusy := by
  intro s rest h
  have hstep : step s = .next (State.poll { s with inbox := rest }) := step_due h
  refine ⟨fun hb => ?_, fun hb => ?_⟩
  · rw [hstep, poll_idle (s := { s with inbox := rest }) hb]
    rfl
  · rw [poll_busy (s := { s with inbox := rest }) hb] at hstep
    exact ⟨_, _, _, hstep, rfl, hb, rfl, (statusWordBusy_fields _ _).1⟩

end Sys2Proof.Machine
end

section
/-! PROOFS. The transaction written with TWI commands and TEMP_READ (30_encoding.md R92): commands submitted one after
the other run the lines of their pseudocode one after the other, and on the bus only those lines count. -/

namespace Sys2Proof.Machine

/-! ## What the bus shows -/

/-- What O46 compares, and all that it depends on: the trace, PHASE, the pending stop, the byte received, and what the
device's coming answers are taken from (R11, R101). -/
structure BusView where
  btrace : List BusEvent
  phase : Phase
  stopPending : Bool
  rxdata : Byte
  dev : List BusDraw
  draws : Nat
  cfgTimeout : Byte

/-- The bus side of a state. -/
def State.busView (s : State) : BusView :=
  ⟨s.btrace, s.phase, s.stopPending, s.rxdata, s.dev, s.draws, s.cfgTimeout⟩

theorem busView_eq_iff {s t : State} :
    s.busView = t.busView ↔ s.btrace = t.btrace ∧ s.phase = t.phase ∧ s.stopPending = t.stopPending ∧
      s.rxdata = t.rxdata ∧ s.dev = t.dev ∧ s.draws = t.draws ∧ s.cfgTimeout = t.cfgTimeout := by
  rw [State.busView, State.busView, BusView.mk.injEq]

/-- The device's answers are a matter of the bus side. -/
theorem answers_iff_of_busView {s t : State} (h : s.busView = t.busView) (k : Nat) : s.answers k ↔ t.answers k := by
  obtain ⟨-, -, -, -, hdev, hdraws, htimeout⟩ := busView_eq_iff.mp h
  exact answers_congr k hdev hdraws htimeout

/-- The device's next answer. -/
def BusView.draw (b : BusView) : BusDraw := b.dev.head?.getD (Config.busDraw b.draws)

theorem drawAt_zero_eq_draw (s : State) : s.drawAt 0 = s.busView.draw := by
  cases hdev : s.dev <;> simp [State.drawAt, State.busView, BusView.draw, hdev]

/-- The bus side with the next answer used up. -/
def BusView.pop (b : BusView) : BusView := { b with dev := b.dev.tail, draws := b.draws + 1 }

/-- What a line whose request, if it makes one, is answered does to the bus side. -/
def BusView.line (b : BusView) : Micro → BusView
  | .drainStop => if b.stopPending then { b.pop with btrace := b.btrace ++ [.stop], stopPending := false } else b
  | .enableBus => { b with phase := .idle }
  | .startCond rep => { b.pop with btrace := b.btrace ++ [.start rep], phase := .addr }
  | .transmit x => { b.pop with btrace := b.btrace ++ [.tx x b.draw.ack] }
  | .addressPhase x => { b with phase := if b.phase = .addr then phaseOfAddress x else b.phase }
  | .setPhase p => { b with phase := p }
  | .receive mack => { b.pop with btrace := b.btrace ++ [.rx b.draw.data mack], rxdata := b.draw.data }
  | .issueStop => { b with phase := .idle, stopPending := true }
  | _ => b

/-- An answered line does to the bus side of a state what `BusView.line` says. -/
theorem applyStep_busView (s : State) (v : Locals) (m : Micro) :
    (applyStep (s, v) m).1.busView = s.busView.line m := by
  cases m with
  | drainStop =>
    simp only [applyStep, BusView.line]
    split <;> rename_i hstop
    · rw [if_pos (show s.busView.stopPending = true from hstop)]
      rfl
    · rw [if_neg (show ¬s.busView.stopPending = true from hstop)]
  | transmit x =>
    rw [BusView.line, ← drawAt_zero_eq_draw]
    rfl
  | receive mack =>
    rw [BusView.line, ← drawAt_zero_eq_draw]
    rfl
  | _ => rfl

theorem foldl_applyStep_busView (s : State) (v : Locals) (l : List Micro) :
    (l.foldl applyStep (s, v)).1.busView = l.foldl BusView.line s.busView := by
  induction l generalizing s v with
  | nil => rfl
  | cons m l ih => rw [List.foldl_cons, List.foldl_cons, ← applyStep_busView s v m, ← ih]

/-! ## Lines whose requests are answered -/

/-- An answered line leaves an initialized bus initialized. -/
theorem applyStep_busInit {s : State} (h : s.busInit = true) (v : Locals) (m : Micro) :
    (applyStep (s, v) m).1.busInit = true := by
  cases m with
  | drainStop =>
    simp only [applyStep]
    split <;> exact h
  | _ => first | exact h | rfl

theorem foldl_applyStep_busInit {s : State} (h : s.busInit = true) (v : Locals) (l : List Micro) :
    (l.foldl applyStep (s, v)).1.busInit = true := by
  induction l generalizing s v with
  | nil => exact h
  | cons m l ih => exact ih (applyStep_busInit h v m) _

/-- More lines make no fewer requests. -/
theorem asks_le_append (b : Bool) (l r : List Micro) : asks b l ≤ asks b (l ++ r) := by
  induction l generalizing b with
  | nil => simp [asks]
  | cons m l ih => cases m <;> simp [asks, ih]

/-- Where the requests of lines and of those after them are answered, those after them are answered once the first are
done. -/
theorem answers_rest {s : State} {l r : List Micro} (v : Locals)
    (h : ∀ k < asks s.stopPending (l ++ r), s.answers k) :
    ∀ k < asks (l.foldl applyStep (s, v)).1.stopPending r, (l.foldl applyStep (s, v)).1.answers k := by
  induction l generalizing s v with
  | nil => exact h
  | cons m l ih => exact ih _ (applyStep_asks s v m (l ++ r) h).2

/-! ## A command by itself -/

/-- Ready for the next command, with all the time it needs: no command executes, the bus is initialized and no inputs
are coming. -/
structure State.AtRest (s : State) : Prop where
  idle : s.busy = false
  enabled : s.busInit = true
  alone : s.inbox = []

theorem State.AtRest.exec_eq {s : State} (h : s.AtRest) {i : Instr} (hi : i.unit ≠ .lcd)
    (hp : phaseTable s.phase i ≠ none) : exec i s = .next (bodyOf i s) :=
  exec_accepted h.idle (unitReady_bus h.enabled hi) hp

/-- A command that uses the bus has no text among its lines, and no more lines than there is time for. -/
theorem planOf_bus_short {i : Instr} (hi : i.unit ≠ .lcd) (s : State) :
    (planOf i s).all Micro.noText = true ∧ ((planOf i s).map Micro.cost).sum + 1 ≤ Config.burstLimit := by
  cases i <;> first
    | exact absurd rfl hi
    | simp [planOf, readSteps_flat, Micro.noText, Micro.cost, Config.burstLimit]

/-- A command that uses the bus, all of whose requests are answered, does its lines to the bus side. -/
theorem exec_answered {s : State} (hs : s.AtRest) {i : Instr} (hi : i.unit ≠ .lcd) (hstop : i ≠ .busStop)
    (hp : phaseTable s.phase i ≠ none) (ha : ∀ k < asks s.stopPending (planOf i s), s.answers k) :
    ∃ t, exec i s = .next t ∧ t.AtRest ∧ t.busView = (planOf i s).foldl BusView.line s.busView := by
  obtain ⟨hnoText, hcost⟩ := planOf_bus_short hi s
  have hroom : (s.accepted i).room = Config.burstLimit := by rw [accepted_room, State.room, hs.alone]
  have hlaunch : bodyOf i s = (s.accepted i).launch (planOf i s) (resultOf i) := by
    rw [bodyOf_eq_run hstop, launch_eq, accepted_room]
  have hbody := hlaunch.trans <| launch_answered (s := s.accepted i) hnoText
    (fun k hk => (answers_congr k rfl rfl rfl).mp (ha k hk)) (hroom ▸ hcost)
  refine ⟨_, hs.exec_eq hi hp, ⟨?_, ?_, ?_⟩, ?_⟩
  · rw [hbody]
    rfl
  · rw [hbody]
    exact foldl_applyStep_busInit (s := { s.accepted i with busy := true }) hs.enabled _ _
  · rw [bodyOf_eq_run hstop, State.inputDue]
    simp only [(engineRun_sameHost _ _).inbox, State.begin, State.accepted, hs.alone]
  · rw [hbody]
    exact foldl_applyStep_busView { s.accepted i with busy := true } _ _

/-! ## Commands one after the other -/

/-- The lines of a TWI command accepted in a phase; what BUS_STOP does at acceptance (R113) is a line of R201. -/
def twiLines (p : Phase) : Instr → List Micro
  | .busInit => [.drainStop, .enableBus]
  | .busStart => [.drainStop, .startCond (decide (p ≠ .idle))]
  | .busStop => [.issueStop]
  | .busSend b => [.drainStop, .loadTx b, .transmit b, .addressPhase b]
  | .busReadAck => [.drainStop, .receive true]
  | .busReadNack => [.drainStop, .receive false, .setPhase .rxEnd]
  | _ => []

theorem twiLines_eq_planOf {i : Instr} (hi : i.unit = .twi) (hstop : i ≠ .busStop) (s : State) :
    twiLines s.phase i = planOf i s := by
  cases i <;> first | rfl | exact absurd rfl hstop | cases hi

/-- A TWI command, all of whose requests are answered, does its lines to the bus side. -/
theorem exec_twi_answered {s : State} (hs : s.AtRest) {i : Instr} (hi : i.unit = .twi)
    (hp : phaseTable s.phase i ≠ none) (ha : ∀ k < asks s.stopPending (twiLines s.phase i), s.answers k) :
    ∃ t, exec i s = .next t ∧ t.AtRest ∧ t.busView = (twiLines s.phase i).foldl BusView.line s.busView := by
  have hbus : i.unit ≠ .lcd := by simp [hi]
  by_cases hstop : i = .busStop
  · subst hstop
    exact ⟨_, hs.exec_eq hbus hp, ⟨rfl, hs.enabled, hs.alone⟩, rfl⟩
  · rw [twiLines_eq_planOf hi hstop] at ha ⊢
    exact exec_answered hs hbus hstop hp ha

/-- What an answered line does to PHASE. -/
theorem line_phase (b : BusView) (m : Micro) :
    (b.line m).phase =
      match m with
      | .enableBus => .idle
      | .startCond _ => .addr
      | .addressPhase x => if b.phase = .addr then phaseOfAddress x else b.phase
      | .setPhase p => p
      | .issueStop => .idle
      | _ => b.phase := by
  cases m with
  | drainStop =>
    rw [BusView.line]
    split <;> rfl
  | _ => rfl

/-- A completed TWI command leaves PHASE as the table R103 says. -/
theorem twiLines_phase {b : BusView} {i : Instr} {p : Phase} (hi : i.unit = .twi)
    (hp : phaseTable b.phase i = some p) : ((twiLines b.phase i).foldl BusView.line b).phase = p := by
  cases hphase : b.phase <;> rw [hphase] at hp <;> cases i <;> first
    | (cases hi; done)
    | (cases hp; done)
    | (cases hp; simp [twiLines, line_phase, hphase])

/-- The lines of TWI commands accepted one after the other, from a phase on; `none` where one of them is out of
sequence (R103). -/
def linesInSequence : Phase → List Instr → Option (List Micro)
  | _, [] => some []
  | p, i :: is => (phaseTable p i).bind fun q => (linesInSequence q is).map (twiLines p i ++ ·)

/-- The next command, once the outcome before it is a state. -/
def andThen (o : Outcome) (i : Instr) : Outcome :=
  match o with
  | .next s => exec i s
  | o => o

/-- TWI commands in sequence, all of whose requests are answered, do their lines to the bus side one after the
other. -/
theorem foldl_andThen_answered {is : List Instr} (htwi : ∀ i ∈ is, i.unit = .twi) {s : State} {l : List Micro}
    (hs : s.AtRest) (hl : linesInSequence s.phase is = some l) (ha : ∀ k < asks s.stopPending l, s.answers k) :
    ∃ t, is.foldl andThen (.next s) = .next t ∧ t.busView = l.foldl BusView.line s.busView := by
  induction is generalizing s l with
  | nil =>
    obtain rfl : [] = l := Option.some.inj hl
    exact ⟨s, rfl, rfl⟩
  | cons i is ih =>
    obtain ⟨hi, his⟩ := List.forall_mem_cons.mp htwi
    simp only [linesInSequence, Option.bind_eq_some_iff, Option.map_eq_some_iff] at hl
    obtain ⟨p, hp, r, hr, rfl⟩ := hl
    obtain ⟨t, ht, hrest, hview⟩ := exec_twi_answered hs hi (by simp [hp])
      (fun k hk => ha k (hk.trans_le (asks_le_append _ _ _)))
    have hphase : t.phase = p := by
      rw [← twiLines_phase (b := s.busView) hi hp]
      exact congrArg BusView.phase hview
    have hlines := hview.trans (foldl_applyStep_busView s ⟨.ok, 0#8, 0#8⟩ _).symm
    obtain ⟨-, -, hstop, -⟩ := busView_eq_iff.mp hlines
    have hrequests : ∀ k < asks t.stopPending r, t.answers k := fun k hk =>
      (answers_iff_of_busView hlines k).mpr (answers_rest _ ha k (hstop ▸ hk))
    obtain ⟨u, hu, huview⟩ := ih his hrest (by rw [hphase, hr]) hrequests
    exact ⟨u, by rw [List.foldl_cons, andThen, ht, hu], by rw [huview, hview, List.foldl_append]⟩

/-! ## The transaction -/

/-- The transaction of R92, written with TWI commands. -/
def transactionByHand (saddr : BitVec 7) (sreg : Byte) : List Instr :=
  [.busStart, .busSend (saddr ++ 0#1), .busSend sreg, .busStart, .busSend (saddr ++ 1#1), .busReadAck, .busReadNack,
    .busStop]

/-- The phase an address byte opens is its direction bit's (R105). -/
theorem phaseOfAddress_append (saddr : BitVec 7) (read : Bool) :
    phaseOfAddress (saddr ++ BitVec.ofBool read) = if read then .rx else .tx := by
  rw [phaseOfAddress, isReadAddress, BitVec.getLsbD_append]
  simp

@[simp] theorem phaseOfAddress_write (saddr : BitVec 7) : phaseOfAddress (saddr ++ 0#1) = .tx :=
  phaseOfAddress_append saddr false

@[simp] theorem phaseOfAddress_read (saddr : BitVec 7) : phaseOfAddress (saddr ++ 1#1) = .rx :=
  phaseOfAddress_append saddr true

/-- The transaction's lines, command by command: every command stands in a phase that admits it. -/
theorem transactionByHand_lines (saddr : BitVec 7) (sreg : Byte) :
    linesInSequence .idle (transactionByHand saddr sreg) = some
      [.drainStop, .startCond false,
        .drainStop, .loadTx (saddr ++ 0#1), .transmit (saddr ++ 0#1), .addressPhase (saddr ++ 0#1),
        .drainStop, .loadTx sreg, .transmit sreg, .addressPhase sreg,
        .drainStop, .startCond true,
        .drainStop, .loadTx (saddr ++ 1#1), .transmit (saddr ++ 1#1), .addressPhase (saddr ++ 1#1),
        .drainStop, .receive true, .drainStop, .receive false, .setPhase .rxEnd, .issueStop] := by
  simp [linesInSequence, transactionByHand, phaseTable, twiLines]

/-- After a drain no stop is pending (R104). -/
theorem line_drainStop_stopPending (b : BusView) : (b.line .drainStop).stopPending = false := by
  rw [BusView.line]
  split
  · rfl
  · next hstop => exact Bool.eq_false_iff.mpr hstop

/-- The lines by hand and those of TEMP_READ do the same to the bus side: besides the requests they share there
are only drains of no stop, lines that the bus does not see, and PHASE set to what it is. -/
theorem transactionByHand_busView (b : BusView) (saddr : BitVec 7) (sreg : Byte)
    {l : List Micro} (hl : linesInSequence .idle (transactionByHand saddr sreg) = some l) :
    l.foldl BusView.line b = (readSteps saddr sreg).foldl BusView.line b := by
  rw [transactionByHand_lines, Option.some.injEq] at hl
  subst hl
  simp only [readSteps_flat, List.foldl_cons]
  have hdrained := line_drainStop_stopPending b
  generalize b.line .drainStop = c at hdrained ⊢
  simp [BusView.line, BusView.pop, BusView.draw, addressByte, hdrained]

/-- Settles O46: both ways do lines to the bus side that differ only in what the bus does not see. -/
theorem transactionByHandEqualsTempRead : Obligations.TransactionByHandEqualsTempRead := by
  intro s hb hi hphase hin ha byHand
  have hs : s.AtRest := ⟨hb, hi, hin⟩
  have hl := transactionByHand_lines s.cfgSaddr s.cfgSreg
  have htwi : ∀ i ∈ transactionByHand s.cfgSaddr s.cfgSreg, i.unit = .twi := by simp [transactionByHand, Instr.unit]
  obtain ⟨a, hrun, hview⟩ := foldl_andThen_answered htwi hs (by rw [hphase]; exact hl)
    (fun k hk => ha k (hk.trans_le (by cases s.stopPending <;> simp [asks])))
  obtain ⟨b, hread, -, hview'⟩ := exec_answered hs (i := .tempRead) (by decide) (by decide)
    (by simp [hphase, phaseTable])
    (fun k hk => ha k (hk.trans_le (by cases s.stopPending <;> simp [planOf, readSteps_flat, asks])))
  have hsame : a.busView = b.busView := by
    rw [hview, hview']
    exact transactionByHand_busView _ _ _ hl
  obtain ⟨htrace, hp, hstop, hrx, hdev, -⟩ := busView_eq_iff.mp hsame
  exact ⟨a, b, hrun, hread, htrace, hp, hstop, hrx, hdev⟩

end Sys2Proof.Machine
end

section
/-! PROOFS. The TWI unit: what each of its commands writes on completion (40_twi.md R110 to R118), the pending stop
(R104, R119), the hang without a timeout (R101), the phase table (R103), and that no command that uses the bus touches
the LCD unit (10_state.md R36). -/

namespace Sys2Proof.Machine

/-! ## A command whose requests are answered -/

/-- The state a command that uses the bus leaves, its lines done in order with every request answered. -/
def State.completed (s : State) (i : Instr) : State :=
  let last := (planOf i s).foldl applyStep ({ s.accepted i with busy := true }, ⟨resultOf i, 0#8, 0#8⟩)
  (last.1.finish last.2.result).inputDue

/-- Where the device answers its requests and no input lands before it is complete, a command that uses the bus
completes. -/
theorem exec_completes (i : Instr) {s : State} (hi : i.unit ≠ .lcd) (hstop : i ≠ .busStop) (hb : s.busy = false)
    (hr : s.unitReady i = true) (hp : phaseTable s.phase i ≠ none)
    (ha : ∀ k < asks s.stopPending (planOf i s), s.answers k)
    (hn : ((planOf i s).map Micro.cost).sum + 1 ≤ s.room) : exec i s = .next (s.completed i) := by
  rw [exec_accepted hb hr hp, bodyOf_eq_run hstop, ← accepted_room s i, ← launch_eq,
    launch_answered (s := s.accepted i) (planOf_bus_short hi s).1 ha hn]
  rfl

/-- With no stop pending, a command of one request completes where that one is answered. -/
theorem exec_one_request (i : Instr) {s : State} (hi : i.unit ≠ .lcd) (hstop : i ≠ .busStop) (hb : s.busy = false)
    (hbus : s.busInit = true) (hp : phaseTable s.phase i ≠ none) (hnone : s.stopPending = false)
    (hone : asks false (planOf i s) = 1) (ha : s.answers 0)
    (hn : ((planOf i s).map Micro.cost).sum + 1 ≤ s.room) : exec i s = .next (s.completed i) := by
  refine exec_completes i hi hstop hb (unitReady_bus hbus hi) hp ?_ hn
  rw [hnone, hone]
  intro k hk
  rwa [Nat.lt_one_iff.mp hk]

theorem phaseOfAddress_eq (b : Byte) : phaseOfAddress b = if b.getLsbD 0 = false then .tx else .rx := by
  rw [phaseOfAddress, isReadAddress]
  cases b.getLsbD 0 <;> rfl

theorem resultAfter_ok (ack : Bool) : resultAfter .ok ack = if ack = true then .ok else .busNack := by
  cases ack <;> rfl

/-- A state with no command executing and no stop pending holds these two bits already. -/
theorem eq_self_of_idle {s : State} (hb : s.busy = false) (hstop : s.stopPending = false) :
    { s with busy := false, stopPending := false } = s := by
  cases s
  cases hb
  cases hstop
  rfl

/-- Settles O21: no stop is pending, so the two lines ask the device nothing. -/
theorem busInitEnablesTheBus : Obligations.BusInitEnablesTheBus := by
  intro s hb hphase hstop hroom
  have hp : phaseTable s.phase .busInit = some .idle := by rw [hphase]; rfl
  rw [exec_completes .busInit nofun nofun hb rfl (by simp [hp]) (by simp [hstop, planOf, asks]) hroom,
    ← eq_self_of_idle hb hstop]
  rfl

/-- Settles O22: the start is the one request. -/
theorem busStartIssuesAStart : Obligations.BusStartIssuesAStart := by
  intro s hb hbus hphase hstop ha hroom
  have hp : phaseTable s.phase .busStart = some .addr := by
    cases h : s.phase <;> first | rfl | exact absurd h hphase
  rw [exec_one_request .busStart nofun nofun hb hbus (by simp [hp]) hstop rfl ha hroom, ← eq_self_of_idle hb hstop]
  rfl

/-- Settles O23: BUS_STOP has no engine step, so its body is the whole effect. -/
theorem busStopReturnsAtOnce : Obligations.BusStopReturnsAtOnce := by
  intro s hb hbus hphase
  have hp : phaseTable s.phase .busStop = some .idle := by rcases hphase with h | h | h <;> rw [h] <;> rfl
  rw [exec_accepted hb (unitReady_bus hbus (by decide)) (by simp [hp]), hb]
  rfl

/-- Settles O24: the byte is the one request; its acknowledge is the command's result, and PHASE follows bit 0. -/
theorem busSendTransmitsOneByte : Obligations.BusSendTransmitsOneByte := by
  intro s b hb hbus hphase hstop ha hroom
  have hp : phaseTable s.phase (.busSend b) ≠ none := by rcases hphase with h | h <;> simp [h, phaseTable]
  rw [exec_one_request (.busSend b) nofun nofun hb hbus hp hstop rfl ha hroom, ← phaseOfAddress_eq, ← resultAfter_ok,
    ← eq_self_of_idle hb hstop]
  rfl

/-- Settles O25: the reception is the one request. -/
theorem busReadAckReceivesAndGoesOn : Obligations.BusReadAckReceivesAndGoesOn := by
  intro s hb hbus hphase hstop ha hroom
  have hp : phaseTable s.phase .busReadAck = some .rx := by rw [hphase]; rfl
  rw [exec_one_request .busReadAck nofun nofun hb hbus (by simp [hp]) hstop rfl ha hroom, ← eq_self_of_idle hb hstop]
  rfl

/-- Settles O26: the reception is the one request, and PHASE is set after it. -/
theorem busReadNackReceivesAndEnds : Obligations.BusReadNackReceivesAndEnds := by
  intro s hb hbus hphase hstop ha hroom
  have hp : phaseTable s.phase .busReadNack = some .rxEnd := by rw [hphase]; rfl
  rw [exec_one_request .busReadNack nofun nofun hb hbus (by simp [hp]) hstop rfl ha hroom, ← eq_self_of_idle hb hstop]
  rfl

/-! ## The pending stop -/

/-- Every command that uses the bus but BUS_STOP starts with `drain_stop` (R104). -/
theorem planOf_drains {i : Instr} (hi : i.unit ≠ .lcd) (hstop : i ≠ .busStop) (s : State) :
    ∃ l, planOf i s = .drainStop :: l := by
  cases i <;> first
    | exact absurd rfl hi
    | exact absurd rfl hstop
    | exact ⟨_, rfl⟩

/-- The lines of a command do not depend on whether the stop is still pending. -/
theorem planOf_stopPerformed (i : Instr) (s : State) : planOf i s.stopPerformed = planOf i s := by
  cases i <;> rfl

/-- With an answer to come for the stop, or with none pending, the engine's first step leaves no stop pending. -/
theorem engineRun_drains {s : State} (l : List Micro) (r : Result) (n : Nat) (ha : s.stopPending = true → s.answers 0) :
    State.engineRun (n + 1) (s.begin (.drainStop :: l) r) =
      State.engineRun n ((if s.stopPending then s.stopPerformed else s).begin l r) := by
  have hstep := engineStep_asks (s := { s with busy := true }) (m := .drainStop) (rest := l) (l := ⟨r, 0#8, 0#8⟩)
    (st := []) rfl rfl (fun hp => (answers_congr 0 rfl rfl rfl).mp (ha hp))
  refine (engineRun_of_some hstep n).trans (congrArg (State.engineRun n) ?_)
  simp only [applyStep]
  split <;> rfl

/-- Settles O27: from either state the first engine step leaves the same one. -/
theorem pendingStopIsPerformedFirst : Obligations.PendingStopIsPerformedFirst := by
  intro s i hi hstop hb hr hp hpending ha hroom
  show exec i s = exec i s.stopPerformed
  have hready : s.stopPerformed.unitReady i = true := by rw [← hr]; cases i <;> rfl
  rw [exec_accepted hb hr hp, exec_accepted (s := s.stopPerformed) hb hready hp, bodyOf_eq_run hstop,
    bodyOf_eq_run hstop, planOf_stopPerformed]
  obtain ⟨l, hl⟩ := planOf_drains hi hstop s
  obtain ⟨n, hn⟩ := Nat.exists_eq_add_of_le' hroom
  have hn' : s.stopPerformed.room = n + 1 := hn
  rw [hl, hn, hn', engineRun_drains (s := s.accepted i) l _ n (fun _ => (answers_congr 0 rfl rfl rfl).mp ha),
    engineRun_drains (s := s.stopPerformed.accepted i) l _ n nofun,
    if_pos (show (s.accepted i).stopPending = true from hpending)]
  rfl

theorem inputDue_of_none {s : State} (h : s.inbox = []) : s.inputDue = s := by
  cases s
  cases h
  rfl

theorem inputDue_of_some {s : State} {n : Nat} {x : Input} {rest : List Arrival} (h : s.inbox = ⟨n, x⟩ :: rest) :
    s.inputDue = { s with inbox := ⟨0, x⟩ :: rest } := by
  rw [State.inputDue, h]

/-- Settles O28, by what is due: the entry `stopStep`, nothing, or an input that has yet to land. -/
theorem stopStepPerformsThePendingStop : Obligations.StopStepPerformsThePendingStop := by
  unfold Obligations.StopStepPerformsThePendingStop
  intro performed s
  refine ⟨fun rest hin => ⟨fun hp hd => ?_, fun h => ?_⟩, fun hin => ⟨fun hp hd => ?_, fun hu h => ?_⟩,
    fun n x rest hin hu => ?_⟩
  · exact (step_due hin).trans (congrArg _ (stopStep_performs (s := { s with inbox := rest }) hp hd))
  · exact (step_due hin).trans (congrArg _ (stopStep_waits (s := { s with inbox := rest }) h))
  · rw [step_alone hin, alone_performs hp hd, show performed s [] = performed s s.inbox by rw [hin]]
    rfl
  · rw [step_alone hin, alone_waits h, burst_idle hu, inputDue_of_none hin]
  · rw [step_early hin, burst_idle hu, inputDue_of_some hin]

/-! ## The hang without a timeout -/

/-- Settles O30: no engine step is enabled, the stop's is not either, and no access ends the wait. -/
theorem hangWithoutTimeoutIsPermanent : Obligations.HangWithoutTimeoutIsPermanent := by
  unfold Obligations.HangWithoutTimeoutIsPermanent
  intro held s t hs ht hr
  have ⟨hb, h0, hh, u, m, rest, hu, htimer, hm, hasks⟩ := hs
  have hstuck : s.engineStep = none := (engineStep_none_iff s).mpr (.inr ⟨h0, hh, u, m, rest, hu, htimer, hm, hasks⟩)
  cases stepped ht with
  | access v f r q => exact ⟨hs, rfl, rfl⟩
  | config w q due idle => simp [hb] at idle
  | poke a b q =>
    refine ⟨⟨hb, h0, hh, ?_⟩, rfl, rfl⟩
    simp only [State.poke, hu]
    split <;> exact ⟨_, m, rest, rfl, htimer, hm, hasks⟩
  | stop q pending answered => simp [hh] at answered
  | command w i q due decodes idle => simp [hb] at idle
  | burst =>
    rw [State.burst, engineRun_of_none hstuck]
    exact ⟨hs, rfl, rfl⟩
  | reset q due => exact absurd due (hr q)

/-! ## The phase table -/

/-- What a line leaves in PHASE, unless it times out. -/
def Micro.phaseAfter (p : Phase) : Micro → Phase
  | .enableBus => .idle
  | .startCond _ => .addr
  | .addressPhase x => if p = .addr then phaseOfAddress x else p
  | .setPhase q => q
  | .issueStop => .idle
  | _ => p

theorem line_phaseAfter (b : BusView) (m : Micro) : (b.line m).phase = m.phaseAfter b.phase := by
  rw [line_phase]
  cases m <;> rfl

theorem foldl_line_phase (b : BusView) (l : List Micro) :
    (l.foldl BusView.line b).phase = l.foldl Micro.phaseAfter b.phase :=
  (List.foldl_hom BusView.phase fun b m => (line_phaseAfter b m).symm).symm

/-- The lines of a command leave the phase of its cell in the table (R103). -/
theorem planOf_phaseAfter {i : Instr} {s : State} {p : Phase} (hi : i.unit ≠ .lcd) (hstop : i ≠ .busStop)
    (hp : phaseTable s.phase i = some p) : (planOf i s).foldl Micro.phaseAfter s.phase = p := by
  cases hu : i.unit with
  | lcd => exact absurd hu hi
  | twi =>
    rw [← twiLines_eq_planOf hu hstop, ← twiLines_phase (b := s.busView) hu hp, foldl_line_phase]
    rfl
  | trs =>
    obtain rfl := (unit_trs_iff i).mp hu
    simp only [phaseTable] at hp
    split at hp <;> cases hp
    rfl

/-- A command that uses the bus executes, whose lines left end in phase `p`; or it has ended, in `p` or by a timeout. -/
structure State.HeadsFor (p : Phase) (s : State) : Prop where
  inBus : s.inBus
  running : ∀ u, s.useq = some u → s.busy = true ∧ u.todo.foldl Micro.phaseAfter s.phase = p
  ended : s.useq = none → s.err = .busTimeout ∨ s.phase = p

/-- A line of a command that uses the bus ends it by a timeout, or leaves PHASE as `Micro.phaseAfter` says. -/
theorem Performed.phase {s t : State} {u : Useq} {m : Micro} (h : Performed s u m t) (hm : m.ofDisplay = false) :
    (t.useq = none ∧ t.err = .busTimeout) ∨
      (t.busy = s.busy ∧ t.phase = m.phaseAfter s.phase ∧ ∃ v, t.useq = some v ∧ v.todo = u.todo) := by
  cases h
  case timeout asks => exact .inl ⟨rfl, rfl⟩
  case terminator a hz => cases hm
  case character a hz => cases hm
  case plain hp hw => cases m <;> first | (cases hp; done) | exact .inr ⟨rfl, rfl, _, rfl, rfl⟩
  all_goals exact .inr ⟨rfl, rfl, _, rfl, rfl⟩

theorem State.HeadsFor.engineStep {p : Phase} {s t : State} (h : s.HeadsFor p) (ht : s.engineStep = some t) :
    t.HeadsFor p := by
  refine engineStep_keeps (P := State.HeadsFor p) (fun a u m rest b ha hu _ hm hp => ?_) (fun a u ha hu => ?_)
    (fun a u ha hu _ hm => ?_) h ht
  · obtain ⟨hbusy, hphase⟩ := ha.running u hu
    have hall := ha.inBus u hu
    rw [hm, List.all_cons, Bool.and_eq_true, Bool.not_eq_true'] at hall
    have hbus : b.inBus := (hp.sameDisplay hall.1 hall.2).2
    rcases hp.phase hall.1 with ⟨hnone, herr⟩ | ⟨hb, hph, w, hw, htodo⟩
    · exact ⟨hbus, fun v hv => by simp [hnone] at hv, fun _ => .inl herr⟩
    · refine ⟨hbus, fun v hv => ?_, fun hn => by simp [hn] at hw⟩
      obtain rfl := Option.some.inj (hv.symm.trans hw)
      rw [hb, hph, htodo, ← hphase, hm]
      exact ⟨hbusy, rfl⟩
  · exact ⟨fun v hv => by cases hv; exact ha.inBus u hu, fun v hv => by cases hv; exact ha.running u hu, nofun⟩
  · have := (ha.running u hu).2
    rw [hm] at this
    exact ⟨nofun, nofun, fun _ => .inr this⟩

/-- An accepted command that uses the bus, once it has completed and not by a timeout, has left the phase of its
cell. -/
theorem bodyOf_phase {i : Instr} {s : State} {p : Phase} (hi : i.unit ≠ .lcd) (hp : phaseTable s.phase i = some p)
    (hbusy : (bodyOf i s).busy = false) (herr : (bodyOf i s).err ≠ .busTimeout) : (bodyOf i s).phase = p := by
  by_cases hstop : i = .busStop
  · subst hstop
    simp only [phaseTable] at hp
    split at hp <;> cases hp <;> rfl
  · rw [bodyOf_eq_run hstop] at hbusy herr ⊢
    have hrun := engineRun_induct (P := State.HeadsFor p) (fun _ _ h h' => h.engineStep h') s.room
      ((s.accepted i).begin (planOf i s) (resultOf i))
      ⟨fun u hu => by cases hu; exact planOf_ofBus hi s,
        fun u hu => by cases hu; exact ⟨rfl, planOf_phaseAfter hi hstop hp⟩, nofun⟩
    refine (hrun.ended ?_).resolve_left herr
    by_contra hn
    obtain ⟨u, hu⟩ := Option.ne_none_iff_exists'.mp hn
    exact Bool.false_ne_true (hbusy.symm.trans (hrun.running u hu).1)

/-- An accepted display command leaves the TWI unit and TRS alone (R146). -/
theorem bodyOf_sameBus {i : Instr} (hi : i.unit = .lcd) (s : State) : SameBus s (bodyOf i s) := by
  have hstop : i ≠ .busStop := by rintro rfl; cases hi
  have hrun := engineRun_sameBus s.room ((s.accepted i).begin (planOf i s) (resultOf i))
    (fun u hu => by cases hu; exact planOf_ofDisplay hi s)
  have hstart : SameBus s ((s.accepted i).begin (planOf i s) (resultOf i)) := by
    constructor <;> first | rfl | exact if_pos hi
  rw [bodyOf_eq_run hstop]
  exact { hstart.trans hrun with }

/-- Settles O31: a SEQ cell refuses, and else the lines left always lead to the phase of the cell. -/
theorem commandsFollowThePhaseTable : Obligations.CommandsFollowThePhaseTable := by
  unfold Obligations.CommandsFollowThePhaseTable
  intro cell s t i hb h
  have hcell : i.unit ≠ .lcd → cell s.phase i = phaseTable s.phase i := fun hi => by
    cases s.phase <;> cases i <;> first
      | exact absurd rfl hi
      | rfl
      | simp only [cell, phaseTable, phaseOfAddress_eq, apply_ite some]
  have hready : i.unit ≠ .lcd → (i = .busInit ∨ s.busInit = true) → s.unitReady i = true := by
    rintro hi (rfl | hbus)
    · rfl
    · exact unitReady_bus hbus hi
  refine ⟨fun hi => ?_, fun hi hbus hc => ?_, fun p hi hbus hc hbusy herr => ?_⟩
  · rcases exec_cases h with ⟨-, rfl⟩ | ⟨-, -, rfl⟩ | ⟨-, -, -, rfl⟩ | ⟨-, -, -, rfl⟩
    case inr.inr.inr => exact (bodyOf_sameBus hi s).phase
    all_goals rfl
  · rw [hcell hi] at hc
    rcases exec_cases h with ⟨hb', -⟩ | ⟨-, hu, -⟩ | ⟨-, -, -, rfl⟩ | ⟨-, -, hp, -⟩
    · simp [hb] at hb'
    · simp [hready hi hbus] at hu
    · rfl
    · exact absurd hc hp
  · rw [hcell hi] at hc
    rw [exec_accepted hb (hready hi hbus) (by simp [hc])] at h
    cases h
    exact bodyOf_phase hi hc hbusy herr

/-! ## The LCD unit -/

/-- An accepted command that uses the bus leaves the LCD unit alone, however it ends. -/
theorem bodyOf_sameDisplay {i : Instr} (hi : i.unit ≠ .lcd) (s : State) : SameDisplay s (bodyOf i s) := by
  by_cases hstop : i = .busStop
  · subst hstop
    constructor <;> rfl
  · have hrun := engineRun_sameDisplay s.room ((s.accepted i).begin (planOf i s) (resultOf i))
      (fun u hu => by cases hu; exact planOf_ofBus hi s)
    rw [bodyOf_eq_run hstop]
    exact { hrun with }

/-- Settles O51: the commands from their acceptance, and every step by its cases under the invariant. -/
theorem busCommandsLeaveTheDisplayAlone : Obligations.BusCommandsLeaveTheDisplayAlone := by
  have same {s t : State} (h : SameDisplay s t) : t.dtrace = s.dtrace ∧ t.rs = s.rs ∧ t.d = s.d ∧ t.e = s.e ∧
      t.driven = s.driven ∧ t.dispInit = s.dispInit := ⟨h.dtrace, h.rs, h.d, h.e, h.driven, h.dispInit⟩
  refine ⟨fun i s t hi h => same ?_, fun i w s t hinv hc hd hi h hr => same ?_⟩
  · rcases exec_cases h with ⟨-, rfl⟩ | ⟨-, -, rfl⟩ | ⟨-, -, -, rfl⟩ | ⟨-, -, -, rfl⟩
    case inr.inr.inr => exact bodyOf_sameDisplay hi s
    all_goals constructor <;> rfl
  · have hbusy : s.busy = true := by rw [← hinv.cmd_iff_busy, hc]; rfl
    cases stepped h with
    | command w i q due decodes idle => simp [hbusy] at idle
    | burst => exact { engineRun_sameDisplay s.room s (hinv.inBus hc hd hi) with }
    | reset q due => exact absurd due (hr q)
    | access v f r q => constructor <;> rfl
    | config w q => constructor <;> rfl
    | poke a b q => constructor <;> rfl
    | stop q => constructor <;> rfl

end Sys2Proof.Machine
end

section
/-! PROOFS. The LCD unit: the power-on sequence (41_lcd.md R150), the commands that send a byte (R151 to R155), the
cursor addresses (R156), and that no display command touches the TWI unit or TEMP (R146). -/

namespace Sys2Proof.Machine

/-! ## What nibbles and bytes do to the display's lines and trace -/

theorem nib_applied (rs : Bool) (n : Nibble) (s : State) :
    (nibSteps rs n).foldl State.applyPlain s =
      { s with dtrace := s.dtrace ++ [.nib rs n], rs := rs, d := n, e := false } := rfl

/-- A byte is its high nibble and then its low one (R143). -/
theorem xfer_applied (rs : Bool) (x : Byte) (s : State) :
    (xferSteps rs x).foldl State.applyPlain s =
      { s with
        dtrace := s.dtrace ++ [.nib rs (highNibble x), .nib rs (lowNibble x)]
        rs := rs, d := lowNibble x, e := false } := by
  rw [xferSteps, List.foldl_append, nib_applied, nib_applied]
  simp

/-- The seventeen events of the power-on sequence and the lines it leaves (R150). -/
theorem powerOn_applied (s : State) :
    powerOnSteps.foldl State.applyPlain s =
      { s with
        driven := true, e := false, rs := false, d := 0x1#4
        dtrace := s.dtrace ++
          [.wait 15000, .nib false 0x3#4, .wait 5000, .nib false 0x3#4, .wait 150, .nib false 0x3#4,
           .wait 50, .nib false 0x2#4, .nib false 0x2#4, .nib false 0x8#4, .nib false 0x0#4,
           .nib false 0xE#4, .nib false 0x0#4, .nib false 0x6#4, .nib false 0x0#4, .nib false 0x1#4,
           .wait 3000]
        dispInit := true } := by
  simp only [powerOnSteps, List.flatten_cons, List.flatten_nil, List.foldl_append, List.foldl_cons, List.foldl_nil,
    nib_applied, xfer_applied, State.applyPlain, List.append_assoc]
  rfl

/-! ## Display commands made of plain lines -/

theorem eq_self_of_not_busy {s : State} (hb : s.busy = false) : { s with busy := false } = s := by
  cases s
  cases hb
  rfl

/-- A display command that is accepted, asks nobody and has time to complete does its lines in order and finishes. -/
theorem exec_plain {i : Instr} {s : State} (hi : i.unit = .lcd) (hb : s.busy = false) (hr : s.unitReady i = true)
    (hl : (planOf i s).all Micro.isPlain = true) (hn : ((planOf i s).map Micro.cost).sum + 1 ≤ s.room) :
    exec i s = .next (State.inputDue (State.finish
      ((planOf i s).foldl State.applyPlain { s with busy := true, cmd := some (encode i) }) (resultOf i))) := by
  have hstop : i ≠ .busStop := by rintro rfl; cases hi
  have hacc : s.accepted i = { s with cmd := some (encode i) } := by rw [State.accepted, if_pos hi]
  rw [exec_accepted hb hr (by simp [phaseTable_lcd _ hi]), bodyOf_eq_run hstop, ← accepted_room s i, ← launch_eq,
    launch_plain (s := s.accepted i) hl hn, hacc]

/-- A display command that is one byte: its two nibbles are sent, and nothing else changes (R143). -/
theorem exec_sends_byte {i : Instr} {s : State} {rs : Bool} {x : Byte} (hi : i.unit = .lcd) (hb : s.busy = false)
    (hd : s.dispInit = true) (hn : 5 ≤ s.room) (hplan : planOf i s = xferSteps rs x) (hres : resultOf i = .ok) :
    exec i s = .next
      { s.inputDue with
        dtrace := s.dtrace ++ [.nib rs (highNibble x), .nib rs (lowNibble x)]
        rs := rs, d := lowNibble x, e := false, err := .ok, cmd := none, useq := none } := by
  rw [exec_plain hi hb (unitReady_lcd hd hi) (by rw [hplan]; rfl) (by rw [hplan]; exact hn), hplan, hres, xfer_applied,
    ← eq_self_of_not_busy hb]
  rfl

/-- Settles O32: DISP_INIT needs no initialized unit, and its lines are the power-on sequence. -/
theorem dispInitRunsThePowerOnSequence : Obligations.DispInitRunsThePowerOnSequence := by
  intro s hb hn
  rw [exec_plain (i := .dispInit) rfl hb rfl rfl hn, planOf, powerOn_applied, ← eq_self_of_not_busy hb]
  rfl

/-- Settles O33: both commands are one byte, with the register-select line at its level. -/
theorem rawBytesAreSentAsTwoNibbles : Obligations.RawBytesAreSentAsTwoNibbles := fun _ _ hb hd hn =>
  ⟨exec_sends_byte rfl hb hd hn rfl rfl, exec_sends_byte rfl hb hd hn rfl rfl⟩

/-- Settles O34: DISP_HOME is one byte; DISP_CLEAR has a wait after it. -/
theorem clearWaitsAndHomeDoesNot : Obligations.ClearWaitsAndHomeDoesNot := by
  intro s hb hd hn
  refine ⟨?_, exec_sends_byte (x := cmdHome) rfl hb hd (by omega) rfl rfl⟩
  rw [exec_plain (i := .dispClear) rfl hb hd rfl hn, planOf, List.foldl_append, xfer_applied, ← eq_self_of_not_busy hb]
  simp only [List.foldl_cons, List.foldl_nil, State.applyPlain, List.append_assoc]
  rfl

/-! ## The cursor -/

theorem offDisplay_iff (col row : Byte) : offDisplay col row = true ↔ 3 < row.toNat ∨ 20 ≤ col.toNat := by
  simp [offDisplay, Config.rows, Config.cols]

theorem rowBase_eq {row : Byte} (h : row.toNat ≤ 3) :
    rowBase row =
      if row = 0#8 then 0x00#8 else if row = 1#8 then 0x40#8 else if row = 2#8 then 0x14#8 else 0x54#8 := by
  obtain rfl | rfl | rfl | rfl : row = 0#8 ∨ row = 1#8 ∨ row = 2#8 ∨ row = 3#8 := by bv_omega
  all_goals rfl

/-- Settles O35: off the display there is no line to do; on it the command is one byte. -/
theorem gotoSetsTheCursorOrReportsRange : Obligations.GotoSetsTheCursorOrReportsRange := by
  intro s col row hb hd hn
  by_cases hoff : 3 < row.toNat ∨ 20 ≤ col.toNat
  · have ho := (offDisplay_iff col row).mpr hoff
    have hplan : planOf (.dispGoto col row) s = [] := if_pos ho
    have hres : resultOf (.dispGoto col row) = .dispRange := if_pos ho
    rw [if_pos hoff, exec_plain (i := .dispGoto col row) rfl hb hd (by rw [hplan]; rfl)
      (by rw [hplan]; exact Nat.le_trans (by decide) hn), hplan, hres, ← eq_self_of_not_busy hb]
    rfl
  · have ho := mt (offDisplay_iff col row).mp hoff
    rw [if_neg hoff, ← rowBase_eq (by omega)]
    exact exec_sends_byte rfl hb hd hn (if_neg ho) (if_neg ho)

/-- `ROW_BASE` as numbers (R59). -/
def rowStarts : List Nat := [0x00, 0x40, 0x14, 0x54]

theorem rowBase_toNat (row : Byte) : (rowBase row).toNat = rowStarts.getD row.toNat 0 :=
  (List.getD_map _ 0x00#8 BitVec.toNat).symm

theorem rowStarts_le : ∀ i ≤ 3, rowStarts.getD i 0 ≤ 0x54 := by decide

/-- The rows lie 20 addresses apart or more, so no address belongs to two of them. -/
theorem rowStarts_apart : ∀ i ≤ 3, ∀ j ≤ 3, rowStarts.getD i 0 < rowStarts.getD j 0 + 20 →
    rowStarts.getD j 0 < rowStarts.getD i 0 + 20 → i = j := by decide

theorem rowAddr_toNat {col row : Byte} (hr : row.toNat ≤ 3) (hc : col.toNat < 20) :
    (rowAddr col row).toNat = rowStarts.getD row.toNat 0 + col.toNat := by
  have hle := rowStarts_le _ hr
  rw [rowAddr, BitVec.toNat_add, rowBase_toNat, Nat.mod_eq_of_lt (by omega)]

/-- Settles O36: no sum wraps, and the rows do not overlap. -/
theorem cursorAddressesCoverTheRows : Obligations.CursorAddressesCoverTheRows := by
  refine ⟨fun col row hr hc => ⟨rowAddr_toNat hr hc, ?_⟩, fun c r c' r' hr hc hr' hc' h => ?_⟩
  · have hle := rowStarts_le _ hr
    rw [rowAddr_toNat hr hc]
    omega
  · have hsum := congrArg BitVec.toNat h
    rw [rowAddr_toNat hr hc, rowAddr_toNat hr' hc'] at hsum
    have hrow := rowStarts_apart _ hr _ hr' (by omega) (by omega)
    rw [hrow] at hsum
    exact ⟨BitVec.eq_of_toNat_eq (by omega), BitVec.eq_of_toNat_eq hrow⟩

/-! ## The TWI unit and TEMP -/

/-- A display command, refused or accepted, leaves the TWI unit and TRS alone (R146). -/
theorem exec_sameBus {i : Instr} {s t : State} (hi : i.unit = .lcd) (h : exec i s = .next t) : SameBus s t := by
  rcases exec_cases h with ⟨-, rfl⟩ | ⟨-, -, rfl⟩ | ⟨-, -, -, rfl⟩ | ⟨-, -, -, rfl⟩
  case inr.inr.inr => exact bodyOf_sameBus hi s
  all_goals constructor <;> rfl

/-- Settles O50: the commands from their acceptance, and every step by its cases under the invariant, where only the
pending stop's own step touches the bus. -/
theorem displayCommandsLeaveTheBusAlone : Obligations.DisplayCommandsLeaveTheBusAlone := by
  unfold Obligations.DisplayCommandsLeaveTheBusAlone
  intro sameBus
  have same {s t : State} (h : SameBus s t) : sameBus s t :=
    ⟨h.btrace, h.done, h.ack, h.busInit, h.stopPending, h.phase, h.rxdata, h.txd, h.divActive, h.pullup, h.dev, h.draws,
      h.tempRaw, h.tempValid⟩
  refine ⟨fun i s t hi h => same (exec_sameBus hi h), fun i w s t hinv hc hd hi h hr => ?_⟩
  have hbusy : s.busy = true := by rw [← hinv.cmd_iff_busy, hc]; rfl
  cases stepped h with
  | stop q pending answered => exact .inr ⟨pending, answered, same (by constructor <;> rfl)⟩
  | command w i q due decodes idle => simp [hbusy] at idle
  | burst => exact .inl (same { engineRun_sameBus s.room s (hinv.inDisplay hc hd hi) with })
  | reset q due => exact absurd due (hr q)
  | access v f r q => exact .inl (same (by constructor <;> rfl))
  | config w q => exact .inl (same (by constructor <;> rfl))
  | poke a b q => exact .inl (same (by constructor <;> rfl))

end Sys2Proof.Machine
end

section
/-! PROOFS. Formatted numbers (42_text.md R183 to R186): the digits of a number, the form of its characters, when they
overflow the buffer, and that they parse back. -/

namespace Sys2Proof.Machine

/-! ## The digits of a number -/

/-- A positive number that the formatter can hold starts with a digit other than 0. -/
theorem digitsOf_pos {base n : Nat} (hb : 1 < base) (hpos : 0 < n) (hn : n < base ^ 24) :
    ∃ d l, digitsOf base n = d :: l ∧ 0 < d ∧ d < base := digitsFuel_head hb 24 n [] hpos hn

theorem digitsOf_ne_nil {base n : Nat} (hb : 1 < base) (hn : n < base ^ 24) : digitsOf base n ≠ [] := by
  rcases Nat.eq_zero_or_pos n with rfl | hpos
  · simp [digitsOf_zero hb]
  · obtain ⟨d, l, h, -⟩ := digitsOf_pos hb hpos hn
    simp [h]

theorem lt_of_mem_digitsOf {base n d : Nat} (hb : 1 < base) (hn : n < base ^ 24) (hd : d ∈ digitsOf base n) :
    d < base := digitsFuel_lt hb 24 n [] nofun hn d hd

/-- A number has at most `k + 1` digits exactly where it is below `base ^ (k + 1)`. -/
theorem digitsOf_length_le_iff {base k : Nat} (hb : 1 < base) (hk : k + 1 < 24) (n : Nat) :
    (digitsOf base n).length ≤ k + 1 ↔ n < base ^ (k + 1) := by
  refine ⟨fun h => ?_, fun h => digitsFuel_length_le hb k 24 n [] h (by omega)⟩
  by_contra hn
  have hlong : k + 1 + 1 ≤ (digitsOf base n).length := digitsFuel_length_lower hb (k + 1) 24 n [] (by omega) hk
  omega

/-! ## Their characters -/

theorem digitCode_decimal : ∀ d < 10, 0x30 ≤ (digitCode d).toNat ∧ (digitCode d).toNat ≤ 0x39 := by decide

theorem digitCode_hex : ∀ d < 16, (0x30 ≤ (digitCode d).toNat ∧ (digitCode d).toNat ≤ 0x39) ∨
    (0x61 ≤ (digitCode d).toNat ∧ (digitCode d).toNat ≤ 0x66) := by decide

/-- Only the digit 0 has the character "0". -/
theorem digitCode_eq_zero : ∀ d < 16, digitCode d = 0x30#8 → d = 0 := by decide

theorem digitCode_ne_minusSign : ∀ d < 16, digitCode d ≠ minusSign := by decide

/-- The characters of a positive number have no leading zero. -/
theorem digits_head {base n : Nat} (hb : 1 < base) (hb' : base ≤ 16) (hpos : 0 < n) (hn : n < base ^ 24) :
    ((digitsOf base n).map digitCode).head? ≠ some 0x30#8 := by
  obtain ⟨d, l, h, hd, hlt⟩ := digitsOf_pos hb hpos hn
  rw [h, List.map_cons, List.head?_cons]
  intro hzero
  have := digitCode_eq_zero d (by omega) (Option.some.inj hzero)
  omega

/-- The characters of a number parse back to it in its base (R186). -/
theorem parse_digitsOf {base n : Nat} (hb : 1 < base) (hb' : base ≤ 16) (hn : n < base ^ 24) :
    parseDigits base ((digitsOf base n).map digitCode) 0 = some n := parse_digitsFuel hb hb' 24 n [] hn

/-! ## The two formats -/

theorem decstr_of_nonneg {v : Int} (h : 0 ≤ v) : decstr v = (digitsOf 10 v.natAbs).map digitCode :=
  if_neg (by omega)

theorem decstr_of_neg {v : Int} (h : v < 0) : decstr v = minusSign :: (digitsOf 10 v.natAbs).map digitCode :=
  if_pos h

/-- A negative number is written as a minus sign and its absolute value (R184). -/
theorem decstr_neg {v : Int} (h : v < 0) : decstr v = minusSign :: decstr (-v) := by
  rw [decstr_of_neg h, decstr_of_nonneg (by omega), Int.natAbs_neg]

theorem hexstr_ne_nil {v : Nat} (h : v < 16 ^ 24) : hexstr v ≠ [] :=
  mt List.map_eq_nil_iff.mp (digitsOf_ne_nil (by decide) h)

theorem decstr_ne_nil {v : Int} (h : v.natAbs < 10 ^ 24) : decstr v ≠ [] := by
  rcases lt_or_ge v 0 with hv | hv
  · simp [decstr_of_neg hv]
  · rw [decstr_of_nonneg hv]
    exact mt List.map_eq_nil_iff.mp (digitsOf_ne_nil (by decide) h)

theorem hexstr_length {v : Nat} (h : v < 16777216) : (hexstr v).length ≤ 6 := by
  rw [hexstr, List.length_map]
  exact (digitsOf_length_le_iff (by decide) (by decide) v).mpr h

/-- Settles O42, from the digits of a number: their number, the first one, and the code of each. -/
theorem numberStringsAreInPlainForm : Obligations.NumberStringsAreInPlainForm := by
  refine ⟨fun v hv => ?_, fun v hlo hhi => ⟨?_, fun hv => ?_, decstr_neg⟩⟩
  · have hn : v < 16 ^ 24 := by omega
    refine ⟨hexstr_length hv, hexstr_ne_nil hn, fun hpos => digits_head (by decide) (by decide) hpos hn, ?_, ?_⟩
    · rintro rfl
      rfl
    · intro c hc
      obtain ⟨d, hd, rfl⟩ := List.mem_map.mp hc
      exact digitCode_hex d (lt_of_mem_digitsOf (by decide) hn hd)
  · rintro rfl
    rfl
  · have hn : v.natAbs < 10 ^ 24 := by omega
    refine ⟨decstr_ne_nil hn, fun hpos => ?_, fun c hc => ?_⟩
    · rw [decstr_of_nonneg hv]
      exact digits_head (by decide) (by decide) (by omega) hn
    · rw [decstr_of_nonneg hv] at hc
      obtain ⟨d, hd, rfl⟩ := List.mem_map.mp hc
      exact digitCode_decimal d (lt_of_mem_digitsOf (by decide) hn hd)

/-- Settles O43: seven digits are too many after a minus sign and not without one. -/
theorem bufferOverflowsExactlyBelowTheBound : Obligations.BufferOverflowsExactlyBelowTheBound := by
  intro v hlo hhi
  rcases lt_or_ge v 0 with hv | hv
  · have hdigits := digitsOf_length_le_iff (base := 10) (k := 5) (by decide) (by decide) v.natAbs
    rw [decstr_of_neg hv, List.length_cons, List.length_map]
    omega
  · have hdigits := digitsOf_length_le_iff (base := 10) (k := 6) (by decide) (by decide) v.natAbs
    rw [decstr_of_nonneg hv, List.length_map]
    omega

theorem parseHex_hexstr {v : Nat} (h : v < 16 ^ 24) : parseHex (hexstr v) = some v := by
  rw [parseHex, if_neg (hexstr_ne_nil h)]
  exact parse_digitsOf (by decide) (by decide) h

theorem parseDec_of_nonneg {v : Int} (hv : 0 ≤ v) (h : v.natAbs < 10 ^ 24) : parseDec (decstr v) = some v := by
  have hparse := parse_digitsOf (base := 10) (by decide) (by decide) h
  rw [decstr_of_nonneg hv]
  rcases hd : digitsOf 10 v.natAbs with _ | ⟨d, l⟩
  · exact absurd hd (digitsOf_ne_nil (by decide) h)
  · have hlt : d < 10 := lt_of_mem_digitsOf (by decide) h (by simp [hd])
    rw [hd, List.map_cons] at hparse
    simp only [List.map_cons, parseDec, if_neg (digitCode_ne_minusSign d (by omega)), hparse]
    simp [abs_of_nonneg hv]

theorem parseDec_of_neg {v : Int} (hv : v < 0) (h : v.natAbs < 10 ^ 24) : parseDec (decstr v) = some v := by
  have hne : (digitsOf 10 v.natAbs).map digitCode ≠ [] := mt List.map_eq_nil_iff.mp (digitsOf_ne_nil (by decide) h)
  rw [decstr_of_neg hv]
  simp only [parseDec, if_pos, if_neg hne, parse_digitsOf (base := 10) (by decide) (by decide) h]
  simp [abs_of_neg hv]

/-- Settles O44: base 16 directly, base 10 by the sign. -/
theorem formattedNumbersParseBack : Obligations.FormattedNumbersParseBack := by
  refine ⟨fun imm => parseHex_hexstr ?_, fun imm _ => ?_⟩
  · have := imm.isLt
    rw [hexOperand]
    omega
  · have hlo := BitVec.le_toInt imm
    have hhi := BitVec.toInt_lt (x := imm)
    rw [intOperand]
    rcases lt_or_ge imm.toInt 0 with hv | hv
    · exact parseDec_of_neg hv (by omega)
    · exact parseDec_of_nonneg hv (by omega)

end Sys2Proof.Machine
end

section
/-! PROOFS. The text and number commands (42_text.md): DISP_HEX and DISP_INT send the characters of their operand
(R181, R182) or report that the buffer overflows (R185); DISP_TEXT sends a terminated string (R180), and a text without
end for ever. -/

namespace Sys2Proof.Machine

/-! ## Commands that send characters known at acceptance -/

/-- A display command with no line to do reports its result, and nothing else changes. -/
theorem exec_sends_nothing {i : Instr} {s : State} {r : Result} (hi : i.unit = .lcd) (hb : s.busy = false)
    (hd : s.dispInit = true) (hn : 1 ≤ s.room) (hplan : planOf i s = []) (hres : resultOf i = r) :
    exec i s = .next { s.inputDue with err := r, cmd := none, useq := none } := by
  rw [exec_plain hi hb (unitReady_lcd hd hi) (by rw [hplan]; rfl) (by rw [hplan]; exact hn), hplan, hres,
    ← eq_self_of_not_busy hb]
  rfl

/-- A display command that is a list of characters sends them, and nothing else changes (R143). -/
theorem exec_sends_chars {i : Instr} {s : State} {cs : List Byte} (hi : i.unit = .lcd) (hb : s.busy = false)
    (hd : s.dispInit = true) (hn : 4 * cs.length + 1 ≤ s.room) (hne : cs ≠ [])
    (hplan : planOf i s = cs.flatMap (xferSteps true)) (hres : resultOf i = .ok) :
    ∃ last, cs.getLast? = some last ∧ exec i s = .next
      { s.inputDue with
        dtrace := s.dtrace ++ charEvents true cs
        rs := true, d := last.extractLsb' 0 4, e := false, err := .ok, cmd := none, useq := none } := by
  have hlast := List.getLast?_eq_some_getLast hne
  refine ⟨cs.getLast hne, hlast, ?_⟩
  rw [exec_plain hi hb (unitReady_lcd hd hi) (by rw [hplan]; exact chars_plain true cs)
    (by rw [hplan, chars_cost]; exact hn), hplan, hres, chars_applied, hlast, if_neg hne, if_neg hne,
    ← eq_self_of_not_busy hb]
  rfl

theorem overflowsBuffer_iff (cs : List Byte) : overflowsBuffer cs = true ↔ 7 < cs.length := decide_eq_true_iff

/-- Settles O40: six characters fit the buffer, and four engine steps send each. -/
theorem hexOperandIsSentInBaseSixteen : Obligations.HexOperandIsSentInBaseSixteen := by
  intro s imm hb hd hn
  have hlen : (hexstr imm.toNat).length ≤ 6 := hexstr_length imm.isLt
  have hfits : ¬overflowsBuffer (hexstr (hexOperand imm)) = true :=
    mt (overflowsBuffer_iff _).mp (by rw [hexOperand]; omega)
  obtain ⟨last, hlast, hexec⟩ := exec_sends_chars (i := .dispHex imm) (s := s) (cs := hexstr imm.toNat) rfl hb hd
    (by omega) (hexstr_ne_nil (by have := imm.isLt; omega)) (if_neg hfits) (if_neg hfits)
  exact ⟨_, last, rfl, hlast, hexec⟩

/-- Settles O41, by the exact bound of the buffer. -/
theorem intOperandIsSentInBaseTenOrRejected : Obligations.IntOperandIsSentInBaseTenOrRejected := by
  intro s imm hb hd hn
  have hlo : -8388608 ≤ imm.toInt := BitVec.le_toInt imm
  have hhi : imm.toInt < 8388608 := BitVec.toInt_lt
  have hbound : overflowsBuffer (decstr (intOperand imm)) = true ↔ imm.toInt ≤ -1000000 :=
    (overflowsBuffer_iff _).trans (bufferOverflowsExactlyBelowTheBound imm.toInt hlo hhi)
  refine ⟨fun h => ?_, fun h => ?_⟩
  · have hover := hbound.mpr h
    exact exec_sends_nothing rfl hb hd (by omega) (if_pos hover) (if_pos hover)
  · have hfits := mt hbound.mp (by omega)
    have hlen := mt (overflowsBuffer_iff _).mpr hfits
    rw [intOperand] at hlen
    obtain ⟨last, hlast, hexec⟩ := exec_sends_chars (i := .dispInt imm) (s := s) (cs := decstr imm.toInt) rfl hb hd
      (by omega) (decstr_ne_nil (by omega)) (if_neg hfits) (if_neg hfits)
    exact ⟨_, last, rfl, hlast, hexec⟩

/-! ## DISP_TEXT -/

/-- The engine has the lines `l` to do and then stands at the loop of DISP_TEXT at `a`, and the host has written nothing
meanwhile. -/
def State.atText (s : State) (l : List Micro) (a : HAddr) : State :=
  { s with useq := some ⟨l ++ [.text a], .ok, 0#8, 0#8, none, []⟩ }

/-- A DISP_TEXT that is accepted runs from its loop at the operand (R180). -/
theorem exec_dispText {s : State} (hb : s.busy = false) (hd : s.dispInit = true) (addr : HAddr) :
    exec (.dispText addr) s = .next (State.inputDue (State.engineRun s.room
      (State.atText { s with busy := true, cmd := some (encode (.dispText addr)) } [] addr))) := by
  have hphase : phaseTable s.phase (.dispText addr) = some s.phase := phaseTable_lcd s.phase rfl
  rw [exec_accepted hb (unitReady_lcd hd rfl) (by simp [hphase])]
  rfl

/-- At a 0x00 byte the loop ends and the command is complete (R180). -/
theorem engineStep_text_end {s : State} {a : HAddr} (h : s.hmem.read a = 0#8) :
    (s.atText [] a).engineStep = some (s.finish .ok) :=
  (text_step s a .ok 0#8 0#8).trans (by rw [if_pos h])

/-- At another byte the loop goes on to the byte's nibbles and then to the next address (R180). -/
theorem engineStep_text_char {s : State} {a : HAddr} (h : s.hmem.read a ≠ 0#8) :
    (s.atText [] a).engineStep = some (s.atText (xferSteps true (s.hmem.read a)) (a + 1)) :=
  (text_step s a .ok 0#8 0#8).trans (by rw [if_neg h]; rfl)

/-- A nonzero byte takes the loop's step and four more, and the loop then stands at the next address. -/
theorem engineRun_text_char {s : State} {a : HAddr} (h : s.hmem.read a ≠ 0#8) (n : Nat) :
    State.engineRun (n + 5) (s.atText [] a) =
      State.engineRun n (((xferSteps true (s.hmem.read a)).foldl State.applyPlain s).atText [] (a + 1)) := by
  rw [engineRun_of_some (engineStep_text_char h), Nat.add_comm n 4]
  exact engineRun_plain [.text (a + 1)] .ok 0#8 0#8 [] n (xferSteps true (s.hmem.read a)) s rfl

/-- The bytes `cs` stand in `m` from `a` on, addresses modulo 2^16. -/
def Memory.holds (m : Memory) (a : HAddr) (cs : List Byte) : Prop :=
  ∀ k (h : k < cs.length), m.read (a + BitVec.ofNat 16 k) = cs[k]

theorem add_ofNat_succ (a : HAddr) (k : Nat) : a + BitVec.ofNat 16 (k + 1) = a + BitVec.ofNat 16 k + 1 := by
  rw [BitVec.ofNat_add, BitVec.add_assoc]
  rfl

theorem add_one_ofNat (a : HAddr) (k : Nat) : a + 1 + BitVec.ofNat 16 k = a + BitVec.ofNat 16 (k + 1) := by
  rw [add_ofNat_succ, BitVec.add_assoc, BitVec.add_assoc, BitVec.add_comm 1]

theorem holds_cons {m : Memory} {a : HAddr} {c : Byte} {cs : List Byte} (h : m.holds a (c :: cs)) :
    m.read a = c ∧ m.holds (a + 1) cs := by
  refine ⟨by simpa using h 0 (Nat.succ_pos _), fun k hk => ?_⟩
  rw [add_one_ofNat]
  exact h (k + 1) (Nat.succ_lt_succ hk)

/-- A string of nonzero bytes is sent in five steps a character. -/
theorem engineRun_text_chars {cs : List Byte} (hz : ∀ c ∈ cs, c ≠ 0#8) (n : Nat) {s : State} {a : HAddr}
    (h : s.hmem.holds a cs) :
    State.engineRun (n + 5 * cs.length) (s.atText [] a) =
      State.engineRun n
        (((cs.flatMap (xferSteps true)).foldl State.applyPlain s).atText [] (a + BitVec.ofNat 16 cs.length)) := by
  induction cs generalizing s a with
  | nil => simp
  | cons c cs ih =>
    obtain ⟨hc, hcs⟩ := holds_cons h
    have hne : s.hmem.read a ≠ 0#8 := by rw [hc]; exact hz c List.mem_cons_self
    have hmem : ((xferSteps true c).foldl State.applyPlain s).hmem = s.hmem := by rw [xfer_applied]
    rw [List.length_cons, Nat.mul_succ, ← Nat.add_assoc, engineRun_text_char hne, hc,
      ih (fun x hx => hz x (List.mem_cons_of_mem _ hx)) (hmem ▸ hcs), List.flatMap_cons, List.foldl_append,
      add_one_ofNat]

/-- Settles O37: the characters, and then the terminator. -/
theorem textSendsTheStringUpToItsTerminator : Obligations.TextSendsTheStringUpToItsTerminator := by
  intro s addr cs hb hd hz hstring hend hn
  obtain ⟨n, hroom⟩ : ∃ n, s.room = n + 1 + 5 * cs.length := ⟨s.room - (5 * cs.length + 1), by omega⟩
  rw [exec_dispText hb hd, hroom, engineRun_text_chars hz (n + 1) (by exact hstring), chars_applied,
    engineRun_of_some (engineStep_text_end (by exact hend)), engineRun_idle (finish_useq _ _),
    ← eq_self_of_not_busy hb]
  rfl

/-! ## A text without end -/

/-- The first `m` bytes of HMEM from `a` on, addresses modulo 2^16. -/
def Memory.bytes (h : Memory) (a : HAddr) (m : Nat) : List Byte :=
  (List.range m).map (fun j => h.read (a + BitVec.ofNat 16 j))

theorem charEvents_length (rs : Bool) (cs : List Byte) : (charEvents rs cs).length = 2 * cs.length := by
  simp [charEvents, List.length_flatMap, Nat.mul_comm]

theorem charEvents_bytes_succ (h : Memory) (a : HAddr) (m : Nat) :
    charEvents true (h.bytes a (m + 1)) =
      charEvents true (h.bytes a m) ++ charEvents true [h.read (a + BitVec.ofNat 16 m)] := by
  simp [charEvents, Memory.bytes, List.range_succ]

/-- What may be left of the lines that send a byte. -/
theorem suffix_xferSteps {rs : Bool} {x : Byte} {l : List Micro} (h : l <:+ xferSteps rs x) :
    l = xferSteps rs x ∨ l = [.nibFall, .nibRise rs (lowNibble x), .nibFall] ∨
      l = [.nibRise rs (lowNibble x), .nibFall] ∨ l = [.nibFall] ∨ l = [] := by
  simpa [xferSteps, nibSteps, List.suffix_cons_iff] using h

/-- What is left of a byte appends at most one event for two lines. -/
theorem rest_of_xfer_dtrace {rs : Bool} {x : Byte} {l : List Micro} (h : l <:+ xferSteps rs x) (s : State) :
    ∃ evs, (l.foldl State.applyPlain s).dtrace = s.dtrace ++ evs ∧ 2 * evs.length ≤ l.length + 1 := by
  rcases suffix_xferSteps h with rfl | rfl | rfl | rfl | rfl
  · exact ⟨[.nib rs (highNibble x), .nib rs (lowNibble x)], by rw [xfer_applied], by simp [xferSteps, nibSteps]⟩
  · exact ⟨[.nib s.rs s.d, .nib rs (lowNibble x)], List.append_assoc _ _ _, by simp⟩
  · exact ⟨[.nib rs (lowNibble x)], rfl, by simp⟩
  · exact ⟨[.nib s.rs s.d], rfl, by simp⟩
  · exact ⟨[], (List.append_nil _).symm, by simp⟩

/-- A pending stop performed meanwhile does not show in the display trace (R119, R146). -/
theorem rest_of_xfer_stopPerformed {rs : Bool} {x : Byte} {l : List Micro} (h : l <:+ xferSteps rs x) (s : State) :
    (l.foldl State.applyPlain s.stopPerformed).dtrace = (l.foldl State.applyPlain s).dtrace := by
  rcases suffix_xferSteps h with rfl | rfl | rfl | rfl | rfl <;> rfl

/-- DISP_TEXT `addr`, started in `s`, has taken `n` engine steps: it is within or just past its `m`-th byte, with the
lines `l` of that byte left, and with these done the display has seen `m` bytes of HMEM. -/
structure TextSent (s : State) (addr : HAddr) (n m : Nat) (l : List Micro) (y : State) : Prop where
  busy : y.busy = true
  inbox : y.inbox = []
  hmem : y.hmem = s.hmem
  lines : ∃ c, l <:+ xferSteps true c
  steps : n + l.length = 5 * m
  trace : (l.foldl State.applyPlain y).dtrace = s.dtrace ++ charEvents true (s.hmem.bytes addr m)

/-- `TextSent` for some position of the engine; `pending` says whether a stop is still pending. -/
def Texting (s : State) (addr : HAddr) (pending : Bool) (n : Nat) (x : State) : Prop :=
  ∃ y l m, x = y.atText l (addr + BitVec.ofNat 16 m) ∧ y.stopPending = pending ∧ TextSent s addr n m l y

theorem TextSent.length_le {s y : State} {addr : HAddr} {n m : Nat} {l : List Micro}
    (h : TextSent s addr n m l y) : l.length ≤ 4 := by
  obtain ⟨c, hc⟩ := h.lines
  exact hc.length_le

/-- The state of a text under way: a command executes, no input waits, and nearly all of the bytes' events are out. -/
theorem Texting.sent {s x : State} {addr : HAddr} {p : Bool} {n : Nat} (h : Texting s addr p n x) :
    x.busy = true ∧ x.inbox = [] ∧ ∃ m k, n ≤ 5 * m ∧ k ≤ 2 * m ∧ 2 * m ≤ k + 2 ∧
      x.dtrace = s.dtrace ++ (charEvents true (s.hmem.bytes addr m)).take k := by
  obtain ⟨y, l, m, rfl, -, hy⟩ := h
  obtain ⟨c, hl⟩ := hy.lines
  obtain ⟨evs, happ, hevs⟩ := rest_of_xfer_dtrace hl y
  have hlen := hy.length_le
  have hsteps := hy.steps
  have hsent : (charEvents true (s.hmem.bytes addr m)).length = 2 * m := by
    rw [charEvents_length, Memory.bytes, List.length_map, List.length_range]
  have hsum := congrArg List.length (happ.symm.trans hy.trace)
  rw [List.length_append, List.length_append, hsent] at hsum
  refine ⟨hy.busy, hy.inbox, m, 2 * m - evs.length, by omega, by omega, by omega, ?_⟩
  have hcut := congrArg (List.take y.dtrace.length) (happ.symm.trans hy.trace)
  rwa [List.take_left, List.take_append, List.take_of_length_le (by omega),
    show y.dtrace.length - s.dtrace.length = 2 * m - evs.length by omega] at hcut

/-- Before its first step the command has sent nothing. -/
theorem texting_start {s y : State} (addr : HAddr) (hb : y.busy = true) (hin : y.inbox = []) (hm : y.hmem = s.hmem)
    (htrace : y.dtrace = s.dtrace) : Texting s addr y.stopPending 0 (y.atText [] addr) :=
  ⟨y, [], 0, by simp, rfl, hb, hin, hm, ⟨0#8, List.nil_suffix⟩, rfl, htrace.trans (List.append_nil _).symm⟩

/-- An engine step: the next line of the byte, or with none left the start of the next byte. -/
theorem Texting.engineStep {s x : State} {addr : HAddr} {p : Bool} {n : Nat} (hz : ∀ a, s.hmem.read a ≠ 0#8)
    (h : Texting s addr p n x) : ∃ t, x.engineStep = some t ∧ Texting s addr p (n + 1) t := by
  obtain ⟨y, l, m, rfl, hp, hy⟩ := h
  have hsteps := hy.steps
  cases l with
  | nil =>
    have hne : y.hmem.read (addr + BitVec.ofNat 16 m) ≠ 0#8 := by rw [hy.hmem]; exact hz _
    refine ⟨_, engineStep_text_char hne, y, _, m + 1, by rw [add_ofNat_succ], hp,
      { hy with lines := ⟨_, List.suffix_refl _⟩, steps := ?_, trace := ?_ }⟩
    · rw [List.length_nil] at hsteps
      change n + 1 + 4 = 5 * (m + 1)
      omega
    · have hbefore : y.dtrace = s.dtrace ++ charEvents true (s.hmem.bytes addr m) := hy.trace
      rw [xfer_applied, charEvents_bytes_succ, ← List.append_assoc, ← hbefore, hy.hmem]
      rfl
  | cons line l =>
    obtain ⟨c, hl⟩ := hy.lines
    have hline : (∃ nib, line = .nibRise true nib) ∨ line = .nibFall := by
      have hmem := hl.mem List.mem_cons_self
      simp only [xferSteps, nibSteps, List.cons_append, List.nil_append, List.mem_cons, List.not_mem_nil, or_false]
        at hmem
      rcases hmem with h | h | h | h
      exacts [.inl ⟨_, h⟩, .inr h, .inl ⟨_, h⟩, .inr h]
    have hrest : ∃ c, l <:+ xferSteps true c := ⟨c, (List.suffix_cons _ _).trans hl⟩
    rw [List.length_cons] at hsteps
    have hleft : n + 1 + l.length = 5 * m := by omega
    rcases hline with ⟨nib, rfl⟩ | rfl
    · exact ⟨_, rfl, y.applyPlain (.nibRise true nib), l, m, rfl, hp, { hy with lines := hrest, steps := hleft }⟩
    · exact ⟨_, rfl, y.applyPlain .nibFall, l, m, rfl, hp, { hy with lines := hrest, steps := hleft }⟩

theorem Texting.engineRun {s : State} {addr : HAddr} {p : Bool} (hz : ∀ a, s.hmem.read a ≠ 0#8) (k : Nat) :
    ∀ {n : Nat} {x : State}, Texting s addr p n x → Texting s addr p (n + k) (State.engineRun k x) := by
  induction k with
  | zero => exact id
  | succ k ih =>
    intro n x h
    obtain ⟨t, ht, h⟩ := h.engineStep hz
    rw [engineRun_of_some ht, Nat.add_comm k 1, ← Nat.add_assoc]
    exact ih h

/-- A pending stop that is performed takes no step of the engine. -/
theorem Texting.stopPerformed {s x : State} {addr : HAddr} {p : Bool} {n : Nat} (h : Texting s addr p n x) :
    Texting s addr false n x.stopPerformed := by
  obtain ⟨y, l, m, rfl, -, hy⟩ := h
  obtain ⟨c, hl⟩ := hy.lines
  exact ⟨y.stopPerformed, l, m, rfl, rfl, { hy with trace := (rest_of_xfer_stopPerformed hl y).trans hy.trace }⟩

/-- A run of the engine with no input waiting. -/
theorem Texting.burst {s x : State} {addr : HAddr} {p : Bool} {n : Nat} (hz : ∀ a, s.hmem.read a ≠ 0#8)
    (h : Texting s addr p n x) : Texting s addr p (n + Config.burstLimit) x.burst := by
  have hx : x.inbox = [] := h.sent.2.1
  have hrun := h.engineRun hz Config.burstLimit
  rwa [State.burst, State.room, hx, inputDue_of_none hrun.sent.2.1]

/-- A step of the machine performs the pending stop or runs the engine. -/
theorem Texting.step {s x : State} {addr : HAddr} {p : Bool} {n : Nat} (hz : ∀ a, s.hmem.read a ≠ 0#8)
    (h : Texting s addr p n x) : ∃ t, step x = .next t ∧
      ((p = true ∧ Texting s addr false n t) ∨ Texting s addr p (n + Config.burstLimit) t) := by
  have hx : x.inbox = [] := h.sent.2.1
  have hp : x.stopPending = p := by obtain ⟨y, l, m, rfl, hp, -⟩ := h; exact hp
  refine ⟨x.alone, step_alone hx, ?_⟩
  by_cases hstop : x.stopPending = true ∧ (x.drawAt 0).hang = false
  · obtain ⟨hpending, hanswers⟩ := hstop
    rw [alone_performs hpending hanswers]
    exact .inl ⟨hp ▸ hpending, h.stopPerformed⟩
  · rw [alone_waits (by rwa [not_and_or, Bool.not_eq_true, Bool.not_eq_false] at hstop)]
    exact .inr (h.burst hz)

/-- Of the steps of the machine at most one is spent on the pending stop. -/
theorem Texting.run {s : State} {addr : HAddr} (hz : ∀ a, s.hmem.read a ≠ 0#8) (k : Nat) :
    ∀ {p : Bool} {n : Nat} {x : State}, Texting s addr p n x →
      ∃ t p' n', Sys2Proof.core.run k x = .next t ∧ Texting s addr p' n' t ∧
        n + Config.burstLimit * k ≤ n' + Config.burstLimit * p.toNat := by
  induction k with
  | zero => exact fun {p n x} h => ⟨x, p, n, rfl, h, by omega⟩
  | succ k ih =>
    intro p n x hx
    obtain ⟨t, ht, ⟨rfl, h⟩ | h⟩ := hx.step hz
    all_goals
      obtain ⟨t', p', n', hrun, h', hle⟩ := ih h
      refine ⟨t', p', n', (core_run_succ k ht).trans hrun, h', ?_⟩
      simp only [Nat.mul_succ, Bool.toNat_true, Bool.toNat_false] at hle ⊢
      omega

/-- Settles O38: after `n` steps of the machine the engine has taken at least `n` bursts of steps, and a byte takes
five. -/
theorem endlessTextNeverFinishes : Obligations.EndlessTextNeverFinishes := by
  intro s t addr hb hd hin hz ht sent n
  have hstart := texting_start (y := { s with busy := true, cmd := some (encode (.dispText addr)) }) addr rfl hin
    (s := s) rfl rfl
  have hfirst := hstart.engineRun hz s.room
  rw [exec_dispText hb hd, inputDue_of_none hfirst.sent.2.1, Host.Outcome.next.injEq] at ht
  rw [ht] at hfirst
  obtain ⟨t', p, n', hrun, hlast, hle⟩ := hfirst.run hz n
  obtain ⟨hbusy, -, m, k, hm, hk, hk', htrace⟩ := hlast.sent
  have hroom : s.room = Config.burstLimit := by rw [State.room, hin]
  have hsent : sent m = charEvents true (s.hmem.bytes addr m) := by
    rw [charEvents, Memory.bytes, List.flatMap_map]
  have hp := Bool.toNat_le s.stopPending
  refine ⟨t', hrun, hbusy, m, k, ?_, hk, by rw [hsent]; exact htrace⟩
  rw [hroom] at hle
  simp only [Config.burstLimit] at hle
  omega

end Sys2Proof.Machine
end

section
/-! PROOFS. The TRS unit: the transaction of TEMP_READ (43_trs.md R200 to R202), and the code and the temperature of the
word it leaves (R203 to R205). -/

namespace Sys2Proof.Machine

/-! ## The transaction -/

/-- The result after one more transmission, where it was BUS_NACK exactly if one before was not acknowledged (R201). -/
theorem resultAfter_acknowledged (acked ack : Bool) :
    resultAfter (if acked then .ok else .busNack) ack = if acked && ack then .ok else .busNack := by
  cases acked <;> cases ack <;> rfl

theorem decide_result_eq_ok (acked : Bool) : decide ((if acked then Result.ok else .busNack) = .ok) = acked := by
  cases acked <;> rfl

/-- A state with `n` answers of the device used up and the events of those requests appended. -/
def State.asked (s : State) (n : Nat) (evs : List BusEvent) : State :=
  { s with btrace := s.btrace ++ evs, dev := s.dev.drop n, draws := s.draws + n }

/-- After `n` answers the next one is number `n`. -/
@[simp] theorem drawAt_asked (s : State) (n : Nat) (evs : List BusEvent) : (s.asked n evs).drawAt 0 = s.drawAt n := by
  simp [State.asked, State.drawAt]

/-- One more answer used up, and its event appended. -/
theorem emitBus_popDraw_asked (s : State) (n : Nat) (evs : List BusEvent) (ev : BusEvent) :
    State.emitBus (s.asked n evs).popDraw ev = s.asked (n + 1) (evs ++ [ev]) := by
  simp only [State.asked, State.popDraw, State.emitBus, List.append_assoc, List.tail_drop, Nat.add_assoc]

/-- A line that asks nobody does the same before the requests as after them. -/
theorem applyStep_plain_asked {m : Micro} (hm : m.isPlain = true) (s : State) (n : Nat) (evs : List BusEvent)
    (l : Locals) : applyStep (s.asked n evs, l) m = ((s.applyPlain m).asked n evs, l) := by
  cases m <;> first | rfl | cases hm

/-- An answered start, after `n` answers. -/
theorem applyStep_startCond_asked (s : State) (n : Nat) (evs : List BusEvent) (l : Locals) (rep : Bool) :
    applyStep (s.asked n evs, l) (.startCond rep) =
      (State.asked { s with phase := .addr, done := true } (n + 1) (evs ++ [.start rep]), l) := by
  have hpop := emitBus_popDraw_asked s n evs (.start rep)
  exact congrArg (fun t : State => ({ t with phase := .addr, done := true }, l)) hpop

/-- An answered transmission, after `n` answers: the acknowledge is that of answer `n`. -/
theorem applyStep_transmit_asked (s : State) (n : Nat) (evs : List BusEvent) (l : Locals) (b : Byte) :
    applyStep (s.asked n evs, l) (.transmit b) =
      (State.asked { s with ack := (s.drawAt n).ack, done := true } (n + 1) (evs ++ [.tx b (s.drawAt n).ack]),
        { l with result := resultAfter l.result (s.drawAt n).ack }) := by
  have hpop := emitBus_popDraw_asked s n evs (.tx b (s.drawAt n).ack)
  rw [applyStep, drawAt_asked]
  exact congrArg (fun t : State => ({ t with ack := (s.drawAt n).ack, done := true }, _)) hpop

/-- An answered reception, after `n` answers: the byte is that of answer `n`. -/
theorem applyStep_receive_asked (s : State) (n : Nat) (evs : List BusEvent) (l : Locals) (mack : Bool) :
    applyStep (s.asked n evs, l) (.receive mack) =
      (State.asked { s with rxdata := (s.drawAt n).data, done := true } (n + 1)
        (evs ++ [.rx (s.drawAt n).data mack]), l) := by
  have hpop := emitBus_popDraw_asked s n evs (.rx (s.drawAt n).data mack)
  rw [applyStep, drawAt_asked]
  exact congrArg (fun t : State => ({ t with rxdata := (s.drawAt n).data, done := true }, l)) hpop

/-- `tx(x)` of R201, answered, after `n` answers. -/
theorem txSteps_asked (s : State) (n : Nat) (evs : List BusEvent) (l : Locals) (x : Byte) :
    (txSteps x).foldl applyStep (s.asked n evs, l) =
      (State.asked { s with txd := x, ack := (s.drawAt n).ack, done := true } (n + 1)
          (evs ++ [.tx x (s.drawAt n).ack]),
        { l with result := resultAfter l.result (s.drawAt n).ack }) := by
  rw [txSteps, List.foldl_cons, applyStep_plain_asked rfl, List.foldl_cons, applyStep_plain_asked rfl,
    List.foldl_cons, applyStep_transmit_asked]
  rfl

theorem applyStep_keepHi_asked (s : State) (n : Nat) (evs : List BusEvent) (l : Locals) :
    applyStep (s.asked n evs, l) .keepHi = (s.asked n evs, { l with hi := s.rxdata }) := rfl

theorem applyStep_keepLo_asked (s : State) (n : Nat) (evs : List BusEvent) (l : Locals) :
    applyStep (s.asked n evs, l) .keepLo = (s.asked n evs, { l with lo := s.rxdata }) := rfl

theorem applyStep_assemble_asked (s : State) (n : Nat) (evs : List BusEvent) (l : Locals) :
    applyStep (s.asked n evs, l) .assemble =
      (State.asked { s with tempRaw := assembleWord l.hi l.lo, tempValid := decide (l.result = .ok) } n evs, l) := rfl

/-- The lines of TEMP_READ, its seven requests answered and no stop pending: what they leave in the state and in the
pseudocode's local variables. -/
theorem readSteps_applied (saddr : BitVec 7) (sreg : Byte) {s : State} (hstop : s.stopPending = false) :
    let acked := (s.drawAt 1).ack && (s.drawAt 2).ack && (s.drawAt 4).ack
    let result : Result := if acked then .ok else .busNack
    (readSteps saddr sreg).foldl applyStep (s, ⟨.ok, 0#8, 0#8⟩) =
      (State.asked
        { s with
          done := false, ack := (s.drawAt 4).ack, txd := addressByte saddr true,
          phase := .idle, stopPending := true, rxdata := (s.drawAt 6).data,
          tempRaw := assembleWord (s.drawAt 5).data (s.drawAt 6).data, tempValid := acked } 7
        [.start false, .tx (addressByte saddr false) (s.drawAt 1).ack, .tx sreg (s.drawAt 2).ack,
          .start true, .tx (addressByte saddr true) (s.drawAt 4).ack,
          .rx (s.drawAt 5).data true, .rx (s.drawAt 6).data false],
        ⟨result, (s.drawAt 5).data, (s.drawAt 6).data⟩) := by
  intro acked result
  have hresult : resultAfter (resultAfter (resultAfter .ok (s.drawAt 1).ack) (s.drawAt 2).ack) (s.drawAt 4).ack =
      result := by
    rw [resultAfter_ok, resultAfter_acknowledged, resultAfter_acknowledged]
  have hvalid : acked = decide (result = .ok) := (decide_result_eq_ok acked).symm
  have hdrain : applyStep (s, ⟨.ok, 0#8, 0#8⟩) .drainStop = (s.asked 0 [], ⟨.ok, 0#8, 0#8⟩) := by
    rw [applyStep, if_neg (Bool.eq_false_iff.mp hstop), State.asked, List.append_nil]
    rfl
  have hclear := @applyStep_plain_asked .clearDone rfl
  have hphase (p : Phase) := @applyStep_plain_asked (.setPhase p) rfl
  have hissue := @applyStep_plain_asked .issueStop rfl
  simp only [readSteps, List.flatten_cons, List.flatten_nil, List.append_nil, List.foldl_append, List.foldl_cons,
    List.foldl_nil, hdrain, applyStep_startCond_asked, txSteps_asked, applyStep_receive_asked, hclear, hphase, hissue,
    applyStep_keepHi_asked, applyStep_keepLo_asked, applyStep_assemble_asked, State.applyPlain]
  rw [hvalid, ← hresult]
  rfl

/-- Settles O45: TEMP_READ completes, with what its lines leave. -/
theorem tempReadRunsTheTransaction : Obligations.TempReadRunsTheTransaction := by
  intro s hb hbus hphase hstop ha hroom
  have hp : phaseTable s.phase .tempRead = some .idle := by rw [hphase]; rfl
  have hasks : asks s.stopPending (planOf .tempRead s) = 7 := by rw [hstop]; rfl
  have hlines := readSteps_applied s.cfgSaddr s.cfgSreg (s := { s.accepted .tempRead with busy := true }) hstop
  have hcost : ((planOf .tempRead s).map Micro.cost).sum + 1 = 25 := by
    simp [planOf, readSteps_flat, Micro.cost]
  rw [exec_completes .tempRead nofun nofun hb (unitReady_bus hbus (by decide)) (by simp [hp]) (by rwa [hasks])
    (by rwa [hcost])]
  simp only [State.completed, planOf, resultOf, hlines]
  rw [← eq_self_of_not_busy hb]
  rfl

/-! ## The temperature code -/

/-- The code is the word shifted right by three, as a number (R203). -/
theorem codeOf_toNat (w : BitVec 16) : (codeOf w).toNat = w.toNat / 8 := by
  rw [codeOf, toNat_field]
  omega

/-- A code and three low bits laid side by side are a word with that code. -/
@[simp] theorem codeOf_append (t : BitVec 13) (low : BitVec 3) : codeOf (t ++ low) = t := by
  apply BitVec.eq_of_toNat_eq
  rw [codeOf_toNat, toNat_fields]
  omega

/-- Settles O47: the code as a number and as a field of the word, and the field of TEMP that holds it. -/
theorem temperatureCodeDropsTheLowBits : Obligations.TemperatureCodeDropsTheLowBits := by
  refine ⟨codeOf_toNat, fun t low low' => by rw [codeOf_append, codeOf_append], fun s hb => ?_⟩
  have htemp : s.readValue .temp = s.tempWord := by rw [State.readValue, hb]; rfl
  obtain ⟨-, hcode, -⟩ := tempWord_fields s
  rwa [htemp]

/-! ## The temperature -/

/-- The top bit of the code is the top bit of the word (R204). -/
theorem codeOf_sign (w : BitVec 16) : (codeOf w).getLsbD 12 = w.getLsbD 15 := by
  rw [codeOf, BitVec.getLsbD_extractLsb']
  rfl

/-- The code's value by either reading, from the word (R204). -/
theorem codeValue_eq (signed : Bool) (w : BitVec 16) :
    codeValue signed w =
      if signed && w.getLsbD 15 then ((w >>> 3).toNat : Int) - 8192 else ((w >>> 3).toNat : Int) := by
  have hcode : (codeOf w).toNat = (w >>> 3).toNat := by
    rw [codeOf_toNat, BitVec.toNat_ushiftRight, Nat.shiftRight_eq_div_pow]
  simp only [codeValue, codeOf_sign, hcode, Bool.and_eq_true]

/-- The range of a code read unsigned. -/
theorem codeValue_unsigned_range (w : BitVec 16) : 0 ≤ codeValue false w ∧ codeValue false w ≤ 8191 := by
  have hlt := (codeOf w).isLt
  simp only [codeValue, Bool.false_eq_true, false_and, if_false]
  omega

/-- The range of a code read signed: its top bit says whether it lies in the upper half. -/
theorem codeValue_signed_range (w : BitVec 16) : -4096 ≤ codeValue true w ∧ codeValue true w ≤ 4095 := by
  have hlt := (codeOf w).isLt
  simp only [codeValue, getLsbD_arith, decide_eq_true_eq, true_and]
  split <;> omega

/-- Bounds of the code's value, as bounds of the temperature. -/
theorem celsius_bounds {signed : Bool} {w : BitVec 16} {lo hi : Int}
    (h : lo ≤ codeValue signed w ∧ codeValue signed w ≤ hi) :
    (lo : ℚ) / 16 ≤ celsius signed w ∧ celsius signed w ≤ (hi : ℚ) / 16 := by
  obtain ⟨hlo, hhi⟩ := h
  rw [celsius]
  exact ⟨by gcongr, by gcongr⟩

/-- Settles O48: each clause is about the code's value, over sixteen. -/
theorem celsiusIsTheCodeOverSixteen : Obligations.CelsiusIsTheCodeOverSixteen := by
  refine ⟨fun w => ?_, fun w => ?_, fun w hw => ?_, fun w => ?_⟩
  · rw [celsius, codeValue_eq, Bool.false_and, if_neg nofun, Int.cast_natCast]
  · rw [celsius, codeValue_eq, Bool.true_and]
    split <;> push_cast <;> rfl
  · rw [celsius, celsius, codeValue_eq, codeValue_eq, hw]
    rfl
  · obtain ⟨hlo, hhi⟩ := celsius_bounds (codeValue_unsigned_range w)
    obtain ⟨hlo', hhi'⟩ := celsius_bounds (codeValue_signed_range w)
    exact ⟨le_trans (by norm_num) hlo, hhi.trans (by norm_num), le_trans (by norm_num) hlo', hhi'.trans (by norm_num)⟩

/-- Settles O49: the image is affine with slope 9 / 5, so it is injective. -/
theorem fahrenheitIsAffineInCelsius : Obligations.FahrenheitIsAffineInCelsius := by
  refine ⟨fun signed w => ?_, fun signed v w => ?_⟩
  · rw [fahrenheit, mul_div_assoc]
  · rw [fahrenheit, fahrenheit, add_left_inj, mul_left_inj' (by norm_num)]

end Sys2Proof.Machine
end

section
/-! PROOFS. Violations, result codes and traps: the checks a submitted command passes (60_exceptions.md R220 to R223),
the timeout of a bus wait (R228), and that nothing stops the machine (R231). -/

namespace Sys2Proof.Machine

/-! ## No trap -/

/-- A submitted word, refused or not, answers a next state (R222). -/
theorem submit_next (s : State) (w : Word) : ∃ t, s.submit w = .next t := by
  unfold State.submit
  split
  · exact ⟨_, rfl⟩
  · split
    · exact ⟨_, rfl⟩
    · exact exec_next _ s

/-- A host write answers a next state at every width and offset (R50 to R54). -/
theorem hostWrite_next (s : State) (width : Nat) (off : Byte) (w : Word) :
    ∃ t, s.hostWrite width off w = .next t := by
  unfold State.hostWrite
  split
  · exact submit_next s w
  all_goals exact ⟨_, rfl⟩

theorem deliver_next (s : State) (i : Input) : ∃ t, s.deliver i = .next t := by
  cases i with
  | write width off w => exact hostWrite_next s width off w
  | _ => exact ⟨_, rfl⟩

/-- Settles O4, by whether an input is due: LM92TC's own moves are a next state, and so is every delivery. -/
theorem everyStepAnswersANextState : Obligations.EveryStepAnswersANextState := by
  intro s
  rcases hin : s.inbox with _ | ⟨⟨_ | n, i⟩, rest⟩
  · exact ⟨_, step_alone hin⟩
  · rw [step_due hin]
    exact deliver_next _ i
  · exact ⟨_, step_early hin⟩

/-! ## The checks of a submitted command -/

theorem submit_busy {s : State} (hb : s.busy = true) (w : Word) : s.submit w = .next (s.raise .overrun) :=
  if_pos hb

theorem submit_illegal {s : State} {w : Word} (hb : s.busy = false) (hd : decode w = none) :
    s.submit w = .next (s.raise .illegalCmd) := by
  rw [State.submit, hb, hd]
  rfl

theorem exec_notInit {i : Instr} {s : State} (hb : s.busy = false) (hu : s.unitReady i = false) :
    exec i s = .next (s.raise .notInit) := by
  obtain ⟨go, he, -⟩ := exec_eq_accept i s
  simp [he, State.accept, hb, hu]

theorem exec_sequence {i : Instr} {s : State} (hb : s.busy = false) (hu : s.unitReady i = true)
    (hp : phaseTable s.phase i = none) : exec i s = .next (s.raise .sequence) := by
  obtain ⟨go, he, -⟩ := exec_eq_accept i s
  simp [he, State.accept, hb, hu, hp]

/-- The commands that "need an initialized unit", and the flag each needs (R222). -/
theorem unitReady_eq_false_iff (s : State) (i : Instr) :
    s.unitReady i = false ↔
      (i.unit ≠ .lcd ∧ i ≠ .busInit ∧ s.busInit = false) ∨
        (i.unit = .lcd ∧ i ≠ .dispInit ∧ s.dispInit = false) := by
  cases i <;> simp [State.unitReady, Instr.unit]

/-- The SEQ cells of the phase table (R103). -/
theorem phaseTable_eq_none_iff (p : Phase) (i : Instr) :
    phaseTable p i = none ↔
      (i = .busInit ∧ p ≠ .idle) ∨ (i = .tempRead ∧ p ≠ .idle) ∨ (i = .busStart ∧ p = .rx) ∨
        ((∃ b, i = .busSend b) ∧ p ≠ .addr ∧ p ≠ .tx) ∨ (i = .busReadAck ∧ p ≠ .rx) ∨
        (i = .busReadNack ∧ p ≠ .rx) ∨ (i = .busStop ∧ (p = .idle ∨ p = .rx)) := by
  cases i <;> cases p <;> simp [phaseTable]

/-- Settles O12: the write is a submission, whose checks are those of `State.submit` and then those of the phase table;
what passes them runs its body, which leaves VIOL. -/
theorem commandAcceptanceChecksInOrder : Obligations.CommandAcceptanceChecksInOrder := by
  intro s w rest hin refuse
  let x : State := { s with inbox := rest }
  have hstep : step s = x.submit w := step_write_cmd hin
  refine ⟨fun hb => hstep.trans (submit_busy (s := x) hb w),
    fun hb hd => hstep.trans (submit_illegal (s := x) hb hd), ?_⟩
  intro i hb hd notInit outOfSequence
  have hexec : step s = exec i x := hstep.trans (submit_decoded (s := x) hb hd)
  have hready : x.unitReady i = false ↔ notInit := unitReady_eq_false_iff x i
  have hcell : phaseTable x.phase i = none ↔ outOfSequence := phaseTable_eq_none_iff x.phase i
  rw [← hready, ← hcell, Bool.not_eq_false]
  exact ⟨fun hu => hexec.trans (exec_notInit hb hu), fun hu hp => hexec.trans (exec_sequence hb hu hp),
    fun hu hp => ⟨hexec, bodyOf i x, hexec.trans (exec_accepted hb hu hp), (bodyOf_sameHost i x).viol⟩⟩

/-! ## The timeout -/

/-- A line that asks the device is abandoned where the timeout is enabled and due (R101, R104). -/
theorem perform_of_timeout {s : State} {m : Micro} {u : Useq} (ha : m.asksDevice s.stopPending = true)
    (ht : s.cfgTimeout ≠ 0#8) (hd : (s.drawAt 0).hang = true ∨ (s.drawAt 0).early = true) :
    s.perform m u = some (State.timeout (State.popDraw { s with useq := some u })) := by
  have abandoned (f : BusDraw → State → State) :
      State.busWait { s with useq := some u } f = some (State.timeout (State.popDraw { s with useq := some u })) :=
    busWait_of_timeout (s := { s with useq := some u }) f ht hd
  cases m with
  | drainStop => exact (if_pos ha).trans (abandoned _)
  | startCond _ | transmit _ | receive _ =>
    rw [State.perform]
    exact abandoned _
  | _ => cases ha

theorem runsTempRead_iff (s : State) : s.runsTempRead = true ↔ s.cmd = some 0x40000000#32 := beq_iff_eq

/-- Settles O29: the line at the head is abandoned, and `timeout()` keeps nothing of the engine's position. -/
theorem timeoutAbandonsTheCommand : Obligations.TimeoutAbandonsTheCommand := by
  intro s u m rest hu htimer htodo ha ht hd
  have hstep : s.engineStep = s.perform m { u with todo := rest } := by
    simp only [State.engineStep, hu, htimer, htodo]
  rw [hstep, perform_of_timeout ha ht hd]
  simp only [← runsTempRead_iff]
  rfl

end Sys2Proof.Machine
end

section
/-! PROOFS. Reset, the least times of the display commands, and the end of a run (70_reset_and_hazards.md R250, R270,
R272). -/

namespace Sys2Proof.Machine

/-! ## Reset -/

/-- Settles O2: the step delivers the reset event, which starts from the reset state. -/
theorem resetEventRestoresAllButHostMemory : Obligations.ResetEventRestoresAllButHostMemory :=
  fun _ _ h => ⟨_, step_due h, rfl⟩

/-! ## The least times of display traces -/

theorem minMicros_append (a b : List DispEvent) : minMicros (a ++ b) = minMicros a + minMicros b := by
  simp [minMicros]

/-- Two nibbles of 41 microseconds a byte (R143, R264). -/
theorem minMicros_charEvents (rs : Bool) (cs : List Byte) : minMicros (charEvents rs cs) = 82 * cs.length := by
  induction cs with
  | nil => rfl
  | cons c cs ih =>
    have hcons : charEvents rs (c :: cs) = charEvents rs [c] ++ charEvents rs cs := by simp [charEvents]
    have hbyte : minMicros (charEvents rs [c]) = 82 := rfl
    rw [hcons, minMicros_append, hbyte, ih, List.length_cons]
    omega

/-- The command finishes, and the least time of the display trace has then grown by `us` (R270). -/
def TakesMicros (i : Instr) (s : State) (us : Nat) : Prop :=
  ∃ t, exec i s = .next t ∧ t.busy = false ∧ minMicros t.dtrace = minMicros s.dtrace + us

/-- A finished command takes the least time of the events it has appended. -/
theorem takesMicros_of_appends {i : Instr} {s t : State} {evs : List DispEvent} (h : exec i s = .next t)
    (hb : t.busy = false) (htrace : t.dtrace = s.dtrace ++ evs) : TakesMicros i s (minMicros evs) :=
  ⟨t, h, hb, by rw [htrace, minMicros_append]⟩

/-- A finished command that has appended nothing takes no time. -/
theorem takesMicros_zero {i : Instr} {s t : State} (h : exec i s = .next t) (hb : t.busy = false)
    (htrace : t.dtrace = s.dtrace) : TakesMicros i s 0 :=
  takesMicros_of_appends h hb (htrace.trans (List.append_nil _).symm)

/-- A finished command that has sent the bytes `cs` takes 82 microseconds for each. -/
theorem takesMicros_of_sends {i : Instr} {s t : State} {rs : Bool} {cs : List Byte} (h : exec i s = .next t)
    (hb : t.busy = false) (htrace : t.dtrace = s.dtrace ++ charEvents rs cs) : TakesMicros i s (82 * cs.length) :=
  minMicros_charEvents rs cs ▸ takesMicros_of_appends h hb htrace

/-! ## The least times of the display commands -/

section
variable {s : State} (hb : s.busy = false)
include hb

theorem dispInit_takesMicros (hn : 37 ≤ s.room) : TakesMicros .dispInit s 23692 :=
  takesMicros_of_appends (dispInitRunsThePowerOnSequence s hb hn) hb rfl

variable (hd : s.dispInit = true)
include hd

theorem dispClear_takesMicros (hn : 7 ≤ s.room) : TakesMicros .dispClear s 3082 :=
  takesMicros_of_appends (clearWaitsAndHomeDoesNot s hb hd hn).1 hb rfl

theorem dispHome_takesMicros (hn : 7 ≤ s.room) : TakesMicros .dispHome s 82 :=
  takesMicros_of_appends (clearWaitsAndHomeDoesNot s hb hd hn).2 hb rfl

theorem dispCmd_takesMicros (b : Byte) (hn : 5 ≤ s.room) : TakesMicros (.dispCmd b) s 82 :=
  takesMicros_of_appends (rawBytesAreSentAsTwoNibbles s b hb hd hn).1 hb rfl

theorem dispChar_takesMicros (b : Byte) (hn : 5 ≤ s.room) : TakesMicros (.dispChar b) s 82 :=
  takesMicros_of_appends (rawBytesAreSentAsTwoNibbles s b hb hd hn).2 hb rfl

/-- Off the display DISP_GOTO sends nothing (R155). -/
theorem dispGoto_takesMicros (col row : Byte) (hn : 5 ≤ s.room) :
    TakesMicros (.dispGoto col row) s (if 3 < row.toNat ∨ 20 ≤ col.toNat then 0 else 82) := by
  have hexec := gotoSetsTheCursorOrReportsRange s col row hb hd hn
  split
  · next hoff =>
    rw [if_pos hoff] at hexec
    exact takesMicros_zero hexec hb rfl
  · next hon =>
    rw [if_neg hon] at hexec
    exact takesMicros_of_appends hexec hb rfl

theorem dispText_takesMicros {addr : HAddr} {n : Nat} (hz : ∀ k < n, s.hmem.read (addr + BitVec.ofNat 16 k) ≠ 0#8)
    (hend : s.hmem.read (addr + BitVec.ofNat 16 n) = 0#8) (hn : 5 * n + 1 ≤ s.room) :
    TakesMicros (.dispText addr) s (82 * n) := by
  have hlen : (s.hmem.bytes addr n).length = n := by simp [Memory.bytes]
  have hnonzero : ∀ c ∈ s.hmem.bytes addr n, c ≠ 0#8 := by simpa [Memory.bytes] using hz
  have hstring : s.hmem.holds addr (s.hmem.bytes addr n) := fun k hk => by simp [Memory.bytes]
  have htakes := takesMicros_of_sends (rs := true) (textSendsTheStringUpToItsTerminator s addr (s.hmem.bytes addr n)
    hb hd hnonzero hstring (by rwa [hlen]) (by rwa [hlen])) hb rfl
  rwa [hlen] at htakes

theorem dispHex_takesMicros (imm : BitVec 24) (hn : 25 ≤ s.room) :
    TakesMicros (.dispHex imm) s (82 * (hexstr imm.toNat).length) := by
  obtain ⟨_, last, rfl, -, hexec⟩ := hexOperandIsSentInBaseSixteen s imm hb hd hn
  exact takesMicros_of_sends (rs := true) hexec hb rfl

/-- A number that overflows the format buffer is not sent (R185). -/
theorem dispInt_takesMicros (imm : BitVec 24) (hn : 29 ≤ s.room) :
    TakesMicros (.dispInt imm) s (if imm.toInt ≤ -1000000 then 0 else 82 * (decstr imm.toInt).length) := by
  obtain ⟨hover, hfits⟩ := intOperandIsSentInBaseTenOrRejected s imm hb hd hn
  split
  · next h => exact takesMicros_zero (hover h) hb rfl
  · next h =>
    obtain ⟨_, last, rfl, -, hexec⟩ := hfits (by omega)
    exact takesMicros_of_sends (rs := true) hexec hb rfl

end

/-- Settles O59, command by command, from the events that each appends. -/
theorem displayCommandsTakeTheirLeastTimes : Obligations.DisplayCommandsTakeTheirLeastTimes := by
  unfold Obligations.DisplayCommandsTakeTheirLeastTimes
  refine ⟨fun s hb hn => dispInit_takesMicros hb hn, fun s hb hd hn => ?_,
    fun s addr n hb hd hz hend hn => dispText_takesMicros hb hd hz hend hn,
    fun s imm hb hd hn => ⟨dispHex_takesMicros hb hd imm (by omega), dispInt_takesMicros hb hd imm hn⟩⟩
  have hbyte : 5 ≤ s.room := by omega
  exact ⟨dispClear_takesMicros hb hd hn, dispHome_takesMicros hb hd hn,
    fun b => ⟨dispCmd_takesMicros hb hd b hbyte, dispChar_takesMicros hb hd b hbyte⟩,
    fun col row => dispGoto_takesMicros hb hd col row hbyte⟩

/-! ## The end of a run -/

theorem settled_iff (s : State) :
    s.settled = true ↔ s.engineStep = none ∧ (s.stopPending = false ∨ (s.drawAt 0).hang = true) := by
  cases hp : s.stopPending <;> simp [State.settled, State.nextDraw, hp]

theorem ended_iff (s : State) : s.ended = true ↔ s.inbox = [] ∧ s.settled = true := by
  simp [State.ended]

theorem alone_eq_self_of_settled {s : State} (hi : s.inbox = []) (h : s.settled = true) : s.alone = s := by
  obtain ⟨hengine, hstop⟩ := (settled_iff s).mp h
  rw [alone_waits hstop, State.burst, engineRun_of_none hengine, State.inputDue, hi]
  simp only [← hi]

/-- With no input to come the engine, where it has a step, leaves another state. -/
theorem burst_ne_self {s t : State} (hi : s.inbox = []) (h : s.engineStep = some t) : s.burst ≠ s := by
  intro hself
  have hroom : s.room = (Config.burstLimit - 1) + 1 := by rw [State.room, hi]; rfl
  have huseq : (State.engineRun s.room s).useq = s.useq := (congrArg State.useq hself :)
  have htrace : (State.engineRun s.room s).dtrace = s.dtrace := (congrArg State.dtrace hself :)
  rw [hroom] at huseq htrace
  exact (engineRun_ne h _).elim (fun hu => hu huseq) (fun hd => hd htrace)

/-- Performing the pending stop clears STOP_PENDING (R119). -/
theorem stopPerformed_ne_self {s : State} (h : s.stopPending = true) : s.stopPerformed ≠ s := by
  intro hself
  have hcleared : s.stopPending = false := congrArg State.stopPending hself.symm
  simp [h] at hcleared

theorem settled_of_alone_eq_self {s : State} (hi : s.inbox = []) (h : s.alone = s) : s.settled = true := by
  have hstop : s.stopPending = false ∨ (s.drawAt 0).hang = true := by
    by_contra hc
    simp only [not_or, Bool.not_eq_false, Bool.not_eq_true] at hc
    obtain ⟨hp, hd⟩ := hc
    exact stopPerformed_ne_self hp ((alone_performs hp hd).symm.trans h)
  refine (settled_iff s).mpr ⟨?_, hstop⟩
  rw [alone_waits hstop] at h
  exact Option.eq_none_iff_forall_ne_some.mpr fun t ht => burst_ne_self hi ht h

/-- A run has ended exactly where no input is to come and the step changes nothing. -/
theorem ended_iff_step_self (s : State) : s.ended = true ↔ s.inbox = [] ∧ step s = .next s := by
  rw [ended_iff]
  refine and_congr_right fun hi => ?_
  rw [step_alone hi, Host.Outcome.next.injEq]
  exact ⟨alone_eq_self_of_settled hi, settled_of_alone_eq_self hi⟩

/-- The engine stands at a request to the device (R101, R104). -/
theorem engineAsks_iff (s : State) :
    s.engineAsks = true ↔ ∃ u m rest, s.useq = some u ∧ u.timer = none ∧ u.todo = m :: rest ∧
      m.asksDevice s.stopPending = true := by
  unfold State.engineAsks
  rcases s.useq with _ | ⟨_ | ⟨m, rest⟩, res, hi, lo, timer, st⟩ <;> simp

theorem engineStep_none_iff_asks (s : State) :
    s.engineStep = none ↔
      s.useq = none ∨ (s.cfgTimeout = 0#8 ∧ (s.drawAt 0).hang = true ∧ s.engineAsks = true) := by
  rw [engineStep_none_iff, engineAsks_iff]

theorem State.Inv.useq_none_iff {s : State} (h : s.Inv) : s.useq = none ↔ s.busy = false := by
  rw [← h.useq_iff_busy, Option.isSome_eq_false_iff, Option.isNone_iff_eq_none]

/-- Where nothing moves, by BUSY, STOP_PENDING and CFG.TIMEOUT (R272; log 17). -/
theorem settled_iff_ends {s : State} (h : s.Inv) :
    s.settled = true ↔
      (s.busy = false ∧ s.stopPending = false) ∨
      (s.busy = true ∧ s.cfgTimeout = 0#8 ∧ (s.drawAt 0).hang = true ∧ s.engineAsks = true) ∨
      (s.busy = false ∧ s.stopPending = true ∧ s.cfgTimeout = 0#8 ∧ (s.drawAt 0).hang = true) ∨
      (s.busy = false ∧ s.stopPending = true ∧ s.cfgTimeout ≠ 0#8 ∧ (s.drawAt 0).hang = true) := by
  rw [settled_iff, engineStep_none_iff_asks, h.useq_none_iff]
  cases hb : s.busy
  · by_cases hc : s.cfgTimeout = 0#8 <;> cases hp : s.stopPending <;> simp [hc]
  · simp only [Bool.true_eq_false, false_or, false_and, or_false, true_and]
    exact ⟨fun ⟨hasks, _⟩ => hasks, fun ⟨hc, hh, ha⟩ => ⟨⟨hc, hh, ha⟩, .inr hh⟩⟩

/-- Settles O60: the ends by the agents that still could move, and what each is called. -/
theorem runEndsExactlyWhereNothingMoves : Obligations.RunEndsExactlyWhereNothingMoves := by
  intro s h
  refine ⟨ended_iff_step_self s, ?_, fun he hc => ?_⟩
  · rw [ended_iff, settled_iff_ends h, engineAsks_iff]
  · obtain ⟨-, hs⟩ := (ended_iff s).mp he
    rcases (settled_iff_ends h).mp hs with ⟨hb, hp⟩ | ⟨-, -, hh, ha⟩ | ⟨-, hp, -, hh⟩ | ⟨-, -, ht, -⟩
    · exact .inl (by simp [State.quiescent, hb, hp])
    · exact .inr (by simp [State.stuck, State.nextDraw, ha, hh, hc])
    · exact .inr (by simp [State.stuck, State.nextDraw, hp, hh, hc])
    · exact absurd hc ht

end Sys2Proof.Machine
end
